-- ==== Sys2Proof/Word.lean ====
section
/-! DEFINITION. The word types of the block: a 32-bit bus word (20_memory.md R76) and an operand register
index (30_encoding.md R102). -/

namespace Sys2Proof

/-- A 32-bit bus word or command word (R76, R100). -/
abbrev Word := BitVec 32

/-- An unsigned 5-bit index of an operand register `V0` to `V31` (R8, R102). -/
abbrev Reg := Fin 32

end Sys2Proof
end

