-- ==== Sys2Proof/Syntax.lean ====
section
/-! DEFINITION. The commands of ECS-CMD v1, one constructor per row of spec/opcode_table.json
(30_encoding.md R104, R105). -/

namespace Sys2Proof

/-- A legal command word's content: the fields its row of R105 uses, each a base register index. -/
inductive Instr where
  | inv (rd rs1 rs2 : Reg)             -- R141: rd <- rs1^-1 mod rs2
  | mctx (rs1 : Reg)                   -- R160: Montgomery context of modulus rs1
  | tomont (rd rs1 : Reg)              -- R162
  | frommont (rd rs1 : Reg)            -- R163
  | mmul (rd rs1 rs2 : Reg)            -- R164
  | mpow (rd rs1 rs2 : Reg)            -- R165: base rs1, exponent rs2
  | gfadd (rd rs1 rs2 : Reg)           -- R190
  | gfmul (rd rs1 rs2 : Reg)           -- R191: rd, rd+1 <- low, high
  | gfred (rd rs1 rs2 : Reg)           -- R193: input pair rs1, rs1+1; polynomial rs2
  | gfmulr (rd rs1 rs2 rs3 : Reg)      -- R194: polynomial rs3
  | curve (rs1 : Reg)                  -- R221: descriptor rs1 .. rs1+6
  | padd (rd rs1 rs2 : Reg)            -- R255
  | pdbl (rd rs1 : Reg)                -- R258
  | peq (rs1 rs2 : Reg)                -- R262
  | j2a (rd rs1 : Reg)                 -- R265
  | smul (rd rs1 rs2 : Reg)            -- R290 with O = 0: point rs1, scalar rs2
  | smulO (rd rs1 rs2 : Reg)           -- R290 with O = 1
  | smulg (rd rs2 : Reg)               -- R296: scalar rs2
  | esign (rd rs1 rs2 rs3 : Reg)       -- R320: d rs1, e rs2, k rs3
  | everify (rs1 rs2 rs3 : Reg)        -- R326: Q rs1, e rs2, (r, s) rs3
deriving DecidableEq, Repr

end Sys2Proof
end

