-- ==== Sys2Proof/WellFormed.lean ====
section
/-! DEFINITION. The checks on a command as syntax: every span it uses stays inside V0 to V31
(30_encoding.md R106). -/

namespace Sys2Proof

/-- The span `r, …, r + n - 1` passes no register after V31 (R106). -/
def spanFits (r : Reg) (n : Nat) : Bool := decide (r.val + n ≤ 32)

/-- The spans of R105, each with its base register. -/
def Instr.spans : Instr → List (Reg × Nat)
  | .inv rd rs1 rs2 => [(rd, 1), (rs1, 1), (rs2, 1)]
  | .mctx rs1 => [(rs1, 1)]
  | .tomont rd rs1 => [(rd, 1), (rs1, 1)]
  | .frommont rd rs1 => [(rd, 1), (rs1, 1)]
  | .mmul rd rs1 rs2 => [(rd, 1), (rs1, 1), (rs2, 1)]
  | .mpow rd rs1 rs2 => [(rd, 1), (rs1, 1), (rs2, 1)]
  | .gfadd rd rs1 rs2 => [(rd, 1), (rs1, 1), (rs2, 1)]
  | .gfmul rd rs1 rs2 => [(rd, 2), (rs1, 1), (rs2, 1)]
  | .gfred rd rs1 rs2 => [(rd, 1), (rs1, 2), (rs2, 1)]
  | .gfmulr rd rs1 rs2 rs3 => [(rd, 1), (rs1, 1), (rs2, 1), (rs3, 1)]
  | .curve rs1 => [(rs1, 7)]
  | .padd rd rs1 rs2 => [(rd, 3), (rs1, 3), (rs2, 3)]
  | .pdbl rd rs1 => [(rd, 3), (rs1, 3)]
  | .peq rs1 rs2 => [(rs1, 3), (rs2, 3)]
  | .j2a rd rs1 => [(rd, 3), (rs1, 3)]
  | .smul rd rs1 rs2 => [(rd, 3), (rs1, 3), (rs2, 1)]
  | .smulO rd rs1 rs2 => [(rd, 3), (rs1, 3), (rs2, 1)]
  | .smulg rd rs2 => [(rd, 3), (rs2, 1)]
  | .esign rd rs1 rs2 rs3 => [(rd, 2), (rs1, 1), (rs2, 1), (rs3, 1)]
  | .everify rs1 rs2 rs3 => [(rs1, 3), (rs2, 1), (rs3, 2)]

/-- A command is well formed when each of its spans fits (R106). Every command that a word decodes to is. -/
def Instr.wf (i : Instr) : Bool := i.spans.all fun x => spanFits x.1 x.2

end Sys2Proof
end

