-- ==== Sys2Proof/Decode.lean ====
section
/-! DEFINITION. The command format `CW`, the opcode map and decoding (30_encoding.md R100 to R110), and after it the
encoder written from the same tables. -/

namespace Sys2Proof

/-- The fields of a command word (R101), each an unsigned number of its width. -/
structure Fields where
  op  : Fin 64
  rd  : Reg
  rs1 : Reg
  rs2 : Reg
  rs3 : Reg
  fn  : Fin 64
deriving DecidableEq, Repr

/-- Cut a word into its fields: OP[31:26] RD[25:21] RS1[20:16] RS2[15:11] RS3[10:6] FN[5:0] (R101). -/
def Fields.ofWord (w : Word) : Fields :=
  { op := Fin.ofNat 64 (w.toNat / 2 ^ 26), rd := Fin.ofNat 32 (w.toNat / 2 ^ 21),
    rs1 := Fin.ofNat 32 (w.toNat / 2 ^ 16), rs2 := Fin.ofNat 32 (w.toNat / 2 ^ 11),
    rs3 := Fin.ofNat 32 (w.toNat / 2 ^ 6), fn := Fin.ofNat 64 w.toNat }

/-- R101: `OP<<26 | RD<<21 | RS1<<16 | RS2<<11 | RS3<<6 | FN` (the fields do not overlap, so the sum is the OR). -/
def Fields.toWord (f : Fields) : Word :=
  BitVec.ofNat 32 (f.op.val * 2 ^ 26 + f.rd.val * 2 ^ 21 + f.rs1.val * 2 ^ 16 + f.rs2.val * 2 ^ 11 +
    f.rs3.val * 2 ^ 6 + f.fn.val)

/-- The 19 assigned opcodes (R104). -/
inductive Op where
  | inv | mctx | tomont | frommont | mmul | mpow | gfadd | gfmul | gfred | gfmulr | curve
  | padd | pdbl | peq | j2a | smul | smulg | esign | everify
deriving DecidableEq, Repr

/-- The opcode numbers (R104). -/
def Op.code : Op → Fin 64
  | .inv => 0x01
  | .mctx => 0x04
  | .tomont => 0x05
  | .frommont => 0x06
  | .mmul => 0x07
  | .mpow => 0x08
  | .gfadd => 0x0C
  | .gfmul => 0x0D
  | .gfred => 0x0E
  | .gfmulr => 0x0F
  | .curve => 0x10
  | .padd => 0x14
  | .pdbl => 0x15
  | .peq => 0x16
  | .j2a => 0x18
  | .smul => 0x1C
  | .smulg => 0x1D
  | .esign => 0x20
  | .everify => 0x21

/-- The assigned opcodes in the order of R104's table. -/
def Op.all : List Op :=
  [.inv, .mctx, .tomont, .frommont, .mmul, .mpow, .gfadd, .gfmul, .gfred, .gfmulr, .curve,
   .padd, .pdbl, .peq, .j2a, .smul, .smulg, .esign, .everify]

/-- The opcode a number stands for; every number outside R104 is unassigned (R107). -/
def Op.ofCode (c : Fin 64) : Option Op := Op.all.find? fun o => o.code == c

/-- The span of each field of a format row of R105; 0 means unused. -/
structure Roles where
  rd  : Nat
  rs1 : Nat
  rs2 : Nat
  rs3 : Nat
deriving DecidableEq, Repr

/-- The spans of R105. -/
def Op.roles : Op → Roles
  | .inv => ⟨1, 1, 1, 0⟩
  | .mctx => ⟨0, 1, 0, 0⟩
  | .tomont => ⟨1, 1, 0, 0⟩
  | .frommont => ⟨1, 1, 0, 0⟩
  | .mmul => ⟨1, 1, 1, 0⟩
  | .mpow => ⟨1, 1, 1, 0⟩
  | .gfadd => ⟨1, 1, 1, 0⟩
  | .gfmul => ⟨2, 1, 1, 0⟩
  | .gfred => ⟨1, 2, 1, 0⟩
  | .gfmulr => ⟨1, 1, 1, 1⟩
  | .curve => ⟨0, 7, 0, 0⟩
  | .padd => ⟨3, 3, 3, 0⟩
  | .pdbl => ⟨3, 3, 0, 0⟩
  | .peq => ⟨0, 3, 3, 0⟩
  | .j2a => ⟨3, 3, 0, 0⟩
  | .smul => ⟨3, 3, 1, 0⟩
  | .smulg => ⟨3, 0, 1, 0⟩
  | .esign => ⟨2, 1, 1, 1⟩
  | .everify => ⟨0, 3, 1, 2⟩

/-- Why a word is illegal (R106 to R108). -/
inductive Illegal where
  | unassignedOpcode   -- R107
  | reservedField      -- R108: a field marked 0, or a function bit, is not zero
  | spanOverflow       -- R106
deriving DecidableEq, Repr

/-- R110's check of one register field with span `n`: none when it is legal. -/
def checkField (n : Nat) (r : Reg) : Option Illegal :=
  if n = 0 then (if r.val = 0 then none else some .reservedField)
  else (if r.val + n ≤ 32 then none else some .spanOverflow)

/-- R110's check of the function bits: SMUL has FN[5:1] = 0 (R103), every other command has FN = 0 (R108). -/
def checkFn (op : Op) (fn : Fin 64) : Option Illegal :=
  match op with
  | .smul => if fn.val / 2 = 0 then none else some .reservedField
  | _ => if fn.val = 0 then none else some .reservedField

/-- The command of an opcode and its fields; SMUL's FN[0] is `O` (R103). -/
def Op.build (op : Op) (f : Fields) : Instr :=
  match op with
  | .inv => .inv f.rd f.rs1 f.rs2
  | .mctx => .mctx f.rs1
  | .tomont => .tomont f.rd f.rs1
  | .frommont => .frommont f.rd f.rs1
  | .mmul => .mmul f.rd f.rs1 f.rs2
  | .mpow => .mpow f.rd f.rs1 f.rs2
  | .gfadd => .gfadd f.rd f.rs1 f.rs2
  | .gfmul => .gfmul f.rd f.rs1 f.rs2
  | .gfred => .gfred f.rd f.rs1 f.rs2
  | .gfmulr => .gfmulr f.rd f.rs1 f.rs2 f.rs3
  | .curve => .curve f.rs1
  | .padd => .padd f.rd f.rs1 f.rs2
  | .pdbl => .pdbl f.rd f.rs1
  | .peq => .peq f.rs1 f.rs2
  | .j2a => .j2a f.rd f.rs1
  | .smul => if f.fn.val = 0 then .smul f.rd f.rs1 f.rs2 else .smulO f.rd f.rs1 f.rs2
  | .smulg => .smulg f.rd f.rs2
  | .esign => .esign f.rd f.rs1 f.rs2 f.rs3
  | .everify => .everify f.rs1 f.rs2 f.rs3

/-- The first failing check of R110 after the opcode: the fields in the order RD, RS1, RS2, RS3, then FN. -/
def fieldProblem (op : Op) (f : Fields) : Option Illegal :=
  (checkField op.roles.rd f.rd).or ((checkField op.roles.rs1 f.rs1).or ((checkField op.roles.rs2 f.rs2).or
    ((checkField op.roles.rs3 f.rs3).or (checkFn op f.fn))))

/-- Decode (R110), total on every 32-bit word. -/
def decode (w : Word) : Except Illegal Instr :=
  match Op.ofCode (Fields.ofWord w).op with
  | none => .error .unassignedOpcode
  | some op =>
    match fieldProblem op (Fields.ofWord w) with
    | some e => .error e
    | none => .ok (op.build (Fields.ofWord w))

/-- The opcode of a command (R104). -/
def Instr.op : Instr → Op
  | .inv _ _ _ => .inv
  | .mctx _ => .mctx
  | .tomont _ _ => .tomont
  | .frommont _ _ => .frommont
  | .mmul _ _ _ => .mmul
  | .mpow _ _ _ => .mpow
  | .gfadd _ _ _ => .gfadd
  | .gfmul _ _ _ => .gfmul
  | .gfred _ _ _ => .gfred
  | .gfmulr _ _ _ _ => .gfmulr
  | .curve _ => .curve
  | .padd _ _ _ => .padd
  | .pdbl _ _ => .pdbl
  | .peq _ _ => .peq
  | .j2a _ _ => .j2a
  | .smul _ _ _ => .smul
  | .smulO _ _ _ => .smul
  | .smulg _ _ => .smulg
  | .esign _ _ _ _ => .esign
  | .everify _ _ _ => .everify

/-- The fields of a command's word: its operands at their places (R105), every unused field and function bit 0
(R108), FN[0] = 1 for SMUL.O (R103). -/
def Instr.fields (i : Instr) : Fields :=
  match i with
  | .inv rd rs1 rs2 => ⟨i.op.code, rd, rs1, rs2, 0, 0⟩
  | .mctx rs1 => ⟨i.op.code, 0, rs1, 0, 0, 0⟩
  | .tomont rd rs1 => ⟨i.op.code, rd, rs1, 0, 0, 0⟩
  | .frommont rd rs1 => ⟨i.op.code, rd, rs1, 0, 0, 0⟩
  | .mmul rd rs1 rs2 => ⟨i.op.code, rd, rs1, rs2, 0, 0⟩
  | .mpow rd rs1 rs2 => ⟨i.op.code, rd, rs1, rs2, 0, 0⟩
  | .gfadd rd rs1 rs2 => ⟨i.op.code, rd, rs1, rs2, 0, 0⟩
  | .gfmul rd rs1 rs2 => ⟨i.op.code, rd, rs1, rs2, 0, 0⟩
  | .gfred rd rs1 rs2 => ⟨i.op.code, rd, rs1, rs2, 0, 0⟩
  | .gfmulr rd rs1 rs2 rs3 => ⟨i.op.code, rd, rs1, rs2, rs3, 0⟩
  | .curve rs1 => ⟨i.op.code, 0, rs1, 0, 0, 0⟩
  | .padd rd rs1 rs2 => ⟨i.op.code, rd, rs1, rs2, 0, 0⟩
  | .pdbl rd rs1 => ⟨i.op.code, rd, rs1, 0, 0, 0⟩
  | .peq rs1 rs2 => ⟨i.op.code, 0, rs1, rs2, 0, 0⟩
  | .j2a rd rs1 => ⟨i.op.code, rd, rs1, 0, 0, 0⟩
  | .smul rd rs1 rs2 => ⟨i.op.code, rd, rs1, rs2, 0, 0⟩
  | .smulO rd rs1 rs2 => ⟨i.op.code, rd, rs1, rs2, 0, 1⟩
  | .smulg rd rs2 => ⟨i.op.code, rd, 0, rs2, 0, 0⟩
  | .esign rd rs1 rs2 rs3 => ⟨i.op.code, rd, rs1, rs2, rs3, 0⟩
  | .everify rs1 rs2 rs3 => ⟨i.op.code, 0, rs1, rs2, rs3, 0⟩

/-- Encode (R101): the word a host writes to CMD for the command. -/
def encode (i : Instr) : Word := i.fields.toWord

/-- What the decoder reads from an instruction of `nbits` bits whose bits are `w`, the bits above being 0: a command
is one 32-bit word (R100), bit 0 its least significant bit (R15). -/
def decodeTableWord (nbits w : Nat) : Option Instr :=
  match decode (BitVec.ofNat 32 (w % 2 ^ nbits)) with
  | .ok i => some i
  | .error _ => none

end Sys2Proof
end

