-- ==== Sys2Proof/Machine/Arith.lean ====
section
/-! DEFINITION. The integer and binary-polynomial primitives (00_scope.md R16, R17, R19; 40_modular_inverse.md R140;
41_montgomery.md R160, R165). Every value is an unbounded integer (R15). -/

namespace Sys2Proof.Machine

/-- `a mod p` of a signed integer, in `[0, p)` for `p >= 1` (R16). -/
def zmod (a : Int) (p : Nat) : Nat := (a % (p : Int)).toNat

/-- The number of bits of the binary magnitude (R17). -/
def bitlen (n : Nat) : Nat := if n = 0 then 0 else Nat.log2 n + 1

/-- The extended Euclidean loop (R140, R412) on remainders `r0, r1` with coefficients `t0, t1` modulo `m`
(`ti * a ≡ ri`), for at most `fuel` tests of `r1`. It returns the coefficient of the last nonzero remainder. -/
def euclid (m : Nat) : Nat → Nat → Nat → Nat → Nat → Nat
  | 0, _, _, t0, _ => t0
  | fuel + 1, r0, r1, t0, t1 =>
    if r1 = 0 then t0
    else euclid m fuel r1 (r0 % r1) t1 ((t0 + (m - r0 / r1 * t1 % m)) % m)

/-- `InvMod` (R140): `some x` is `ok x`, `none` is `NotInvertible`. -/
def invMod (a m : Nat) : Option Nat :=
  if a = 0 then some 0
  else if Nat.gcd (a % m) m ≠ 1 then none
  else some (euclid m (2 * bitlen m + 1) m (a % m) 0 (1 % m))

/-- Square and multiply over the exponent's low `i` bits, highest first. -/
def powLoop (t e n : Nat) : Nat → Nat → Nat
  | 0, acc => acc
  | i + 1, acc => powLoop t e n i (if e.testBit i then acc * acc % n * t % n else acc * acc % n)

/-- `t^e mod n` with `t^0 = 1` (R165). -/
def powMod (t e n : Nat) : Nat := powLoop t e n (bitlen e) (1 % n)

/-- The Montgomery radix exponent `BL = MONT_GRAN * ceil(bitlen(n) / MONT_GRAN)` (R160). -/
def montExp (gran n : Nat) : Nat := gran * ((bitlen n + (gran - 1)) / gran)

/-- The XOR of `v << j` over every `j < i` with `u[j] = 1`. -/
def clmulBits (u v : Nat) : Nat → Nat
  | 0 => 0
  | i + 1 => clmulBits u v i ^^^ (if u.testBit i then v <<< i else 0)

/-- The carry-less product (R19). -/
def clmul (u v : Nat) : Nat := clmulBits u v (bitlen u)

/-- Eliminate the bits of `t` at places `i - 1` down to `deg f`, highest first. -/
def polyReduce (f : Nat) : Nat → Nat → Nat
  | 0, t => t
  | i + 1, t =>
    polyReduce f i (if t.testBit i && decide (bitlen f ≤ i + 1) then t ^^^ (f <<< (i + 1 - bitlen f)) else t)

/-- `polymod(t, f)` (R19): the remainder of the binary polynomial `t` by `f`. -/
def polymod (t f : Nat) : Nat := polyReduce f (bitlen t) t

end Sys2Proof.Machine
end

