-- ==== Sys2Proof/Config.lean ====
section
/-! DEFINITION. What an implementation fixes (00_scope.md section 3) and the free values. The parameters are plain
data of the state, so that a statement about every state is a statement about every legal choice of them. -/

namespace Sys2Proof

/-- `JAC_REPR` (R12): how the Jacobian coordinates that PADD and PDBL write are fixed. -/
inductive JacRepr where
  | exact        -- the formulas of R247 to R253 give every coordinate
  | projClass    -- the spec's `class`: any triple of the exact result's projective class, a draw
deriving DecidableEq, Repr

/-- The implementation parameters (00_scope.md section 3, 60_exceptions.md R360). No step changes them. -/
structure Params where
  width    : Nat     -- W (R7)
  montGran : Nat     -- MONT_GRAN (R9)
  jacRepr  : JacRepr -- JAC_REPR (R12)
  base     : Nat     -- BASE (R10), a bus address
  irqLine  : Nat     -- IRQ_LINE (R360)
deriving DecidableEq, Repr

/-- The values the parameters may take: R7, R9, R10. -/
def Params.legal (p : Params) : Bool :=
  p.width % 64 == 0 && decide (64 ≤ p.width) && decide (p.width ≤ 1024) &&
    (p.montGran == 32 || p.montGran == 64) && p.base % 0x4000 == 0

/-- This spec's values: W = 576 (R7), MONT_GRAN = 64 (R9), JAC_REPR = exact (R12). BASE and IRQ_LINE are OPEN: DESIGN CHOICE 0 (log 2). -/
def Params.spec : Params :=
  { width := 576, montGran := 64, jacRepr := .exact, base := 0, irqLine := 0 }

/-- The free values (the spec's draws: R81, R244, R295, R390), numbered by the state's counter `draws` (log 5).
Nothing is known of them. A draw of `k` bits is this number modulo `2^k`. -/
opaque Config.draw : Nat → Nat

end Sys2Proof
end

