-- ==== Sys2Proof/Machine/State.lean ====
section
/-! DEFINITION. The state of the block and of the two agents, as plain data, and the state after hard reset
(10_state.md; 00_scope.md R4; 30_encoding.md R116; 70_reset_and_hazards.md R390). -/

namespace Sys2Proof.Machine

/-- One operand register (R30) and its hidden `written` bits, bit `j` for word `j` (R31). The value is an unsigned
integer below `2^W`; `W <= 1024`, so 32 written bits are enough. -/
structure VReg where
  value   : Nat
  written : BitVec 32
deriving DecidableEq, Repr

/-- CTRL's stored fields (R36, R37). SRST is an action and reserved bits read 0: neither holds anything. -/
structure Ctrl where
  ie   : Bool
  nafw : BitVec 4
deriving DecidableEq, Repr

/-- STATUS's fields (R38). Bits [31:15] are reserved and read 0. -/
structure Status where
  busy    : Bool
  done    : Bool
  err     : Bool
  overrun : Bool
  ecode   : BitVec 4
  eq      : Bool
  valid   : Bool
  inf     : Bool
  vrange  : Bool
  mctxv   : Bool
  curvev  : Bool
  gtabv   : Bool
deriving DecidableEq, Repr

/-- The curve context (R41), each register an unsigned integer below `2^W`. -/
structure CurveCtx where
  p  : Nat
  a  : Nat
  b  : Nat
  h  : Nat
  gx : Nat
  gy : Nat
  n  : Nat
deriving DecidableEq, Repr

/-- The Montgomery context (R44): modulus, radix exponent, `R^2 mod N`, `R^-1 mod N`. -/
structure MontCtx where
  n    : Nat
  bl   : Nat
  r2   : Nat
  rinv : Nat
deriving DecidableEq, Repr

/-- An affine point (R23, R240): the identity `O`, or `(x, y)`. -/
inductive Aff where
  | identity
  | pt (x y : Nat)
deriving DecidableEq, Repr

/-- The fields of STATUS a host branch can test (R38, R116's JIF). -/
inductive StatusField where
  | busy | done | err | overrun | ecode | eq | valid | inf | vrange | mctxv | curvev | gtabv
deriving DecidableEq, Repr

/-- One line of host code: an access (R20) at a bus address, or a pseudo-instruction of R116. A label is the index
of a line. -/
inductive HostLine where
  | memRead (addr size : Nat)                -- MemRead
  | memWrite (addr size : Nat) (v : Word)    -- MemWrite
  | command (i : Instr)                      -- a command line: its encoding to CMD
  | li (n : Reg) (imm : Nat)                 -- W/32 word writes of V[n]
  | rdv (n : Reg)                            -- W/32 word reads of V[n]
  | rdc (c : Fin 10)                         -- W/32 word reads of context register c (R74's number)
  | wait                                     -- poll STATUS until BUSY = 0; the host keeps the word
  | clr                                      -- clear DONE and OVERRUN
  | srst                                     -- soft reset
  | jif (f : StatusField) (value label : Nat)
  | jmp (label : Nat)
deriving DecidableEq, Repr

/-- The host agent (R4). -/
structure HostAgent where
  prog  : List HostLine   -- its program
  pc    : Nat             -- the index of its next line
  word  : Nat             -- the word a many-access line (LI, RDV, RDC) has reached
  st    : Word            -- the STATUS word the last WAIT kept (R116)
  rdata : Word            -- the word the last read returned
  value : Nat             -- the value RDV or RDC has assembled so far, little-endian
deriving DecidableEq, Repr

/-- Who takes a step (R4, R390). -/
inductive Turn where
  | host | core | hardReset
deriving DecidableEq, Repr

/-- Why the machine stops. -/
inductive Fault where
  /-- Raised by a host access whose size is not 4, whose offset is not a multiple of 4 or is 0x4000 or more (R76, R77,
  R82): the bus answers with an error and no state changes. Safe: the hardware goes on, the model says nothing. -/
  | accessFault (offset size : Nat)
  /-- Raised by a host access to a bus address below BASE: outside the window, not this block's (R71, R82;
  log 14). Safe. -/
  | outsideWindow (addr : Nat)
  /-- Raised by a legal command with its context that reads an operand word whose `written` bit is clear (R22, R31, R113,
  R353, R396; D4; item 8 of file 93). Safe: the hardware goes on with an unspecified value, the model says nothing. -/
  | unwrittenOperand
deriving DecidableEq, Repr

/-- Why an instruction has no meaning. -/
inductive Refusal where
  /-- Raised by an arm of `exec` whose instruction has no meaning yet. Safe. No arm raises it now. -/
  | notModelled (mnemonic : String)
deriving DecidableEq, Repr

/-- The whole machine. -/
structure State where
  params   : Params               -- R7, R9, R10, R12, R360
  v        : Vector VReg 32       -- V0 to V31 (R30, R31)
  ctrl     : Ctrl                 -- CTRL (R36)
  status   : Status               -- STATUS (R38)
  cmd      : Word                 -- CMD, the last accepted command word (R45, R46)
  curve    : CurveCtx             -- C.P to C.N (R41)
  mont     : MontCtx              -- M.N, M.BL, M.R2, M.RINV (R43, R44)
  gtab     : List (Option Aff)    -- GTAB (R47); none: the doubling that makes it has no inverse (log 10)
  draws    : Nat                  -- the model's own: free values taken so far (log 5)
  host     : HostAgent            -- the host agent (R4, R116; log 3)
  schedule : List Turn            -- the order of the next steps (R4, R11, R361; log 3)
deriving DecidableEq, Repr

/-- CTRL after a reset: NAFW = 4, IE = 0 (R51). -/
def Ctrl.reset : Ctrl := { ie := false, nafw := 4 }

/-- STATUS after a reset: 0 (R51). -/
def Status.reset : Status :=
  { busy := false, done := false, err := false, overrun := false, ecode := 0, eq := false, valid := false,
    inf := false, vrange := false, mctxv := false, curvev := false, gtabv := false }

/-- The curve context after a reset: 0 (R41, R51). -/
def CurveCtx.reset : CurveCtx := { p := 0, a := 0, b := 0, h := 0, gx := 0, gy := 0, n := 0 }

/-- The Montgomery context after a reset: 0 (R44, R51). -/
def MontCtx.reset : MontCtx := { n := 0, bl := 0, r2 := 0, rinv := 0 }

/-- A host with no program (log 3). DESIGN CHOICE (log 3): the kept STATUS word `st` is 0 until a WAIT has kept one, so a
JIF before any WAIT tests 0; R116 speaks only of the word that the last WAIT kept. -/
def HostAgent.empty : HostAgent := { prog := [], pc := 0, word := 0, st := 0, rdata := 0, value := 0 }

/-- The machine right after hard reset (R51, R390). V0 to V31: DESIGN CHOICE 0 with every `written` bit clear
(log 1); no fault is recorded (R414); the host has no program and the schedule is empty (log 3); no free value is taken
(log 5). -/
def State.reset : State :=
  { params := Params.spec
    v := Vector.replicate 32 { value := 0, written := 0 }
    ctrl := Ctrl.reset
    status := Status.reset
    cmd := 0
    curve := CurveCtx.reset
    mont := MontCtx.reset
    gtab := []
    draws := 0
    host := HostAgent.empty
    schedule := [] }

end Sys2Proof.Machine
end

