-- ==== Sys2Proof/Machine/Flags.lean ====
section
/-! DEFINITION. Error codes, the STATUS and CTRL words, what acceptance and completion do to STATUS, the result flags
and the interrupt output (10_state.md R36 to R40, R49, R50; 30_encoding.md R112, R113; 60_exceptions.md R351, R352,
R360). -/

namespace Sys2Proof.Machine

/-- The errors a command can complete with (R352). Codes 3, 6, 7 and 11 to 15 are reserved and never placed in
ECODE, so they have no constructor. -/
inductive ErrorCode where
  | illegalCommand | invalidModulus | invalidFieldPolynomial | degenerateSignature | malformedPoint
  | notInvertible | noContext
deriving DecidableEq, Repr

/-- The codes of R352. -/
def ErrorCode.code : ErrorCode → BitVec 4
  | .illegalCommand => 1
  | .invalidModulus => 2
  | .invalidFieldPolynomial => 4
  | .degenerateSignature => 5
  | .malformedPoint => 8
  | .notInvertible => 9
  | .noContext => 10

/-- The values ECODE ranges over (R352). -/
def legalEcode (c : BitVec 4) : Bool := c ∈ [0, 1, 2, 4, 5, 8, 9, 10]

/-- The bit a flag has at place `k` of a word. -/
def flagBit (b : Bool) (k : Nat) : Nat := if b then 2 ^ k else 0

/-- STATUS as the word a host reads (R38). -/
def Status.word (t : Status) : Word :=
  BitVec.ofNat 32 (flagBit t.busy 0 + flagBit t.done 1 + flagBit t.err 2 + flagBit t.overrun 3 + t.ecode.toNat * 2 ^ 4 +
    flagBit t.eq 8 + flagBit t.valid 9 + flagBit t.inf 10 + flagBit t.vrange 11 + flagBit t.mctxv 12 +
    flagBit t.curvev 13 + flagBit t.gtabv 14)

/-- CTRL as the word a host reads: SRST and the reserved bits read 0 (R36). -/
def Ctrl.word (c : Ctrl) : Word := BitVec.ofNat 32 (flagBit c.ie 1 + c.nafw.toNat * 2 ^ 4)

/-- A STATUS field cut from a STATUS word (R38, R116's JIF). -/
def StatusField.get (f : StatusField) (w : Word) : Nat :=
  match f with
  | .busy => w.toNat / 2 ^ 0 % 2
  | .done => w.toNat / 2 ^ 1 % 2
  | .err => w.toNat / 2 ^ 2 % 2
  | .overrun => w.toNat / 2 ^ 3 % 2
  | .ecode => w.toNat / 2 ^ 4 % 16
  | .eq => w.toNat / 2 ^ 8 % 2
  | .valid => w.toNat / 2 ^ 9 % 2
  | .inf => w.toNat / 2 ^ 10 % 2
  | .vrange => w.toNat / 2 ^ 11 % 2
  | .mctxv => w.toNat / 2 ^ 12 % 2
  | .curvev => w.toNat / 2 ^ 13 % 2
  | .gtabv => w.toNat / 2 ^ 14 % 2

/-- Acceptance's effect on STATUS (R112): BUSY rises; DONE, ERR, ECODE and the result flags are cleared. -/
def Status.accept (t : Status) : Status :=
  { t with busy := true, done := false, err := false, ecode := 0, eq := false, valid := false, inf := false,
           vrange := false }

/-- Completion's effect on STATUS, with or without an error (R113). -/
def Status.complete (t : Status) : Status := { t with busy := false, done := true }

/-- An error completion's effect on STATUS (R351). -/
def Status.fail (t : Status) (e : ErrorCode) : Status := { t.complete with ecode := e.code, err := true }

/-- A host write of STATUS (R39): bit 1 clears DONE, bit 3 clears OVERRUN, every other bit is ignored. -/
def Status.hostWrite (t : Status) (w : Word) : Status :=
  { t with done := t.done && !w.getLsbD 1, overrun := t.overrun && !w.getLsbD 3 }

/-- A host write of CTRL with SRST = 0 (R36, R37): IE is stored; NAFW is stored when it is 2 to 8. -/
def Ctrl.hostWrite (c : Ctrl) (w : Word) : Ctrl :=
  { ie := w.getLsbD 1
    nafw := if 2 ≤ w.toNat / 2 ^ 4 % 16 ∧ w.toNat / 2 ^ 4 % 16 ≤ 8 then BitVec.ofNat 4 (w.toNat / 2 ^ 4) else c.nafw }

/-- The interrupt output: `STATUS.DONE AND CTRL.IE` (R49, R360). -/
def State.irq (s : State) : Bool := s.status.done && s.ctrl.ie

/-- The interrupt controller line `IRQ_LINE` and its level (R360). -/
def State.irqOutput (s : State) : Nat × Bool := (s.params.irqLine, s.irq)

end Sys2Proof.Machine
end

