-- ==== Sys2Proof/Machine/Ops.lean ====
section
/-! DEFINITION. The operations over the registers: reads and writes of V registers and their words, free values,
acceptance, the commit of a command's writes, error completion (the block's exception entry), soft and hard reset
(10_state.md; 30_encoding.md R112 to R114; 60_exceptions.md R351; 70_reset_and_hazards.md R390, R391). -/

namespace Sys2Proof.Machine

/-- The number of 32-bit words of a W-bit register (R73). -/
def wordCount (p : Params) : Nat := p.width / 32

/-- The `written` bits of a register all of whose words are written (R31). -/
def allWritten (p : Params) : BitVec 32 := BitVec.ofNat 32 (2 ^ wordCount p - 1)

/-- The register `k` places after `r` in a span (R32, R102). -/
def spanReg (r : Reg) (k : Nat) : Reg := Fin.ofNat 32 (r.val + k)

/-- `V[i]` (R18). -/
def State.reg (s : State) (i : Reg) : Nat := s.v[i].value

/-- Whether every word of `V[i]` has been written since hard reset (R31). -/
def State.regWritten (s : State) (i : Reg) : Bool := s.v[i].written &&& allWritten s.params == allWritten s.params

/-- `V[i] <- x` by a command (R18, R31): the W-bit register takes `x`, every word of it becomes written. -/
def State.setReg (s : State) (i : Reg) (x : Nat) : State :=
  { s with v := s.v.set i { value := x % 2 ^ s.params.width, written := allWritten s.params } }

/-- Word `j` of a W-bit value: bits `[32j+31 : 32j]` (R73). -/
def wordOf (x j : Nat) : Word := BitVec.ofNat 32 (x / 2 ^ (32 * j))

/-- A value with its word `j` replaced (R73, R83). -/
def setWord (x j : Nat) (w : Word) : Nat :=
  x % 2 ^ (32 * j) + w.toNat * 2 ^ (32 * j) + x / 2 ^ (32 * (j + 1)) * 2 ^ (32 * (j + 1))

/-- A host write of word `j < W/32` of `V[i]` (R83): the word is replaced and becomes written. -/
def State.setRegWord (s : State) (i : Reg) (j : Nat) (w : Word) : State :=
  { s with v := s.v.set i { value := setWord s.v[i].value j w, written := s.v[i].written ||| BitVec.ofNat 32 (2 ^ j) } }

/-- The `k`-th free value after those already taken (log 5). -/
def State.drawn (s : State) (k : Nat) : Nat := Config.draw (s.draws + k)

/-- Count `k` free values as taken. -/
def State.takeDraws (s : State) (k : Nat) : State := { s with draws := s.draws + k }

/-- Acceptance of a command word (R112). -/
def State.accept (s : State) (w : Word) : State := { s with cmd := w, status := s.status.accept }

/-- Error completion (R351), the block's exception entry: the code goes to ECODE, ERR and DONE are set, BUSY is
cleared, and nothing else changes. CMD already holds the failed command's word; there is no return (R362). -/
def State.raise (s : State) (e : ErrorCode) : State := { s with status := s.status.fail e }

/-- The writes and flags of a successful command (R113, R21): what its rule lists, nothing else. -/
structure Writes where
  regs   : List (Reg × Nat) := []                          -- V registers, in the rule's order
  mont   : Option MontCtx := none                          -- MCTX: the Montgomery context, and MCTXV
  curve  : Option (CurveCtx × List (Option Aff)) := none   -- CURVE: the curve context and GTAB, and CURVEV, GTABV
  eq     : Option Bool := none
  valid  : Option Bool := none
  inf    : Option Bool := none
  vrange : Option Bool := none
  draws  : Nat := 0                                        -- free values taken (log 5)

/-- The two ways a command's rule can end (R350): success with its writes, or an error. `draws` counts the free
values the rule took before it raised (log 5). -/
inductive CmdResult where
  | ok (w : Writes)
  | error (e : ErrorCode) (draws : Nat)

/-- `raise E` (R21) by a rule that has taken no free value. -/
def CmdResult.raise (e : ErrorCode) : CmdResult := .error e 0

/-- Perform register writes in order. -/
def State.setRegs (s : State) : List (Reg × Nat) → State
  | [] => s
  | (i, x) :: rest => (s.setReg i x).setRegs rest

/-- STATUS after a command's flag writes (R113, R50) and context loads (R160, R221). -/
def Status.setFlags (t : Status) (w : Writes) : Status :=
  { t with eq := w.eq.getD t.eq, valid := w.valid.getD t.valid, inf := w.inf.getD t.inf,
           vrange := w.vrange.getD t.vrange, mctxv := w.mont.isSome || t.mctxv,
           curvev := w.curve.isSome || t.curvev, gtabv := w.curve.isSome || t.gtabv }

/-- The commit of a successful command (R113): every write and flag at once, then BUSY 0 and DONE 1. -/
def State.commit (s : State) (w : Writes) : State :=
  { s with
    v := (s.setRegs w.regs).v
    status := (s.status.setFlags w).complete
    mont := w.mont.getD s.mont
    curve := (w.curve.map Prod.fst).getD s.curve
    gtab := (w.curve.map Prod.snd).getD s.gtab
    draws := s.draws + w.draws }

/-- Completion of a command (R113) with the result its rule gave. -/
def State.finish (s : State) : CmdResult → State
  | .ok w => s.commit w
  | .error e k => (s.takeDraws k).raise e

/-- Soft reset (R391): everything but the V registers and their `written` bits takes its reset value; a command in
flight is gone. The parameters, a recorded model fault, the host and the schedule are not the block's registers. -/
def State.softReset (s : State) : State :=
  { s with
    ctrl := Ctrl.reset
    status := Status.reset
    cmd := 0
    curve := CurveCtx.reset
    mont := MontCtx.reset
    gtab := [] }

/-- The V registers right after hard reset: each an unspecified W-bit value (a draw), no word written (R390). -/
@[irreducible] def State.drawnRegs (s : State) : Vector VReg 32 :=
  Vector.ofFn fun i : Fin 32 => { value := s.drawn i.val % 2 ^ s.params.width, written := 0 }

/-- Hard reset (R390): as soft reset, and each V register takes an unspecified value with no word written. -/
def State.hardReset (s : State) : State := { s.softReset with v := s.drawnRegs, draws := s.draws + 32 }

end Sys2Proof.Machine
end

