-- ==== Sys2Proof/Machine/Operands.lean ====
section
/-! DEFINITION. Every operand form: source and destination spans, the context a command needs, single registers, pairs
and points, the reduction of a point operand and the canonical form of a point result; and the execution frame every
command shares (10_state.md R31, R32; 30_encoding.md R105, R111, R113; 44_point_arith.md R245, R246). -/

namespace Sys2Proof.Machine

/-- The context a command needs (R111). -/
inductive Context where
  | none | mont | curve
deriving DecidableEq, Repr

/-- R111. -/
def contextOf (i : Instr) : Context :=
  match i with
  | .inv _ _ _ => .none
  | .mctx _ => .none
  | .tomont _ _ => .mont
  | .frommont _ _ => .mont
  | .mmul _ _ _ => .mont
  | .mpow _ _ _ => .mont
  | .gfadd _ _ _ => .none
  | .gfmul _ _ _ => .none
  | .gfred _ _ _ => .none
  | .gfmulr _ _ _ _ => .none
  | .curve _ => .none
  | .padd _ _ _ => .curve
  | .pdbl _ _ => .curve
  | .peq _ _ => .curve
  | .j2a _ _ => .curve
  | .smul _ _ _ => .curve
  | .smulO _ _ _ => .curve
  | .smulg _ _ => .curve
  | .esign _ _ _ _ => .curve
  | .everify _ _ _ => .curve

/-- Whether the context is valid: MCTXV or CURVEV (R111). -/
def State.contextValid (s : State) : Context → Bool
  | .none => true
  | .mont => s.status.mctxv
  | .curve => s.status.curvev

/-- The source spans of R105, base register and length. -/
def sourceSpans (i : Instr) : List (Reg × Nat) :=
  match i with
  | .inv _ rs1 rs2 => [(rs1, 1), (rs2, 1)]
  | .mctx rs1 => [(rs1, 1)]
  | .tomont _ rs1 => [(rs1, 1)]
  | .frommont _ rs1 => [(rs1, 1)]
  | .mmul _ rs1 rs2 => [(rs1, 1), (rs2, 1)]
  | .mpow _ rs1 rs2 => [(rs1, 1), (rs2, 1)]
  | .gfadd _ rs1 rs2 => [(rs1, 1), (rs2, 1)]
  | .gfmul _ rs1 rs2 => [(rs1, 1), (rs2, 1)]
  | .gfred _ rs1 rs2 => [(rs1, 2), (rs2, 1)]
  | .gfmulr _ rs1 rs2 rs3 => [(rs1, 1), (rs2, 1), (rs3, 1)]
  | .curve rs1 => [(rs1, 7)]
  | .padd _ rs1 rs2 => [(rs1, 3), (rs2, 3)]
  | .pdbl _ rs1 => [(rs1, 3)]
  | .peq rs1 rs2 => [(rs1, 3), (rs2, 3)]
  | .j2a _ rs1 => [(rs1, 3)]
  | .smul _ rs1 rs2 => [(rs1, 3), (rs2, 1)]
  | .smulO _ rs1 rs2 => [(rs1, 3), (rs2, 1)]
  | .smulg _ rs2 => [(rs2, 1)]
  | .esign _ rs1 rs2 rs3 => [(rs1, 1), (rs2, 1), (rs3, 1)]
  | .everify rs1 rs2 rs3 => [(rs1, 3), (rs2, 1), (rs3, 2)]

/-- The destination span of R105; none for the commands that write no V register. -/
def destSpan (i : Instr) : Option (Reg × Nat) :=
  match i with
  | .inv rd _ _ => some (rd, 1)
  | .mctx _ => none
  | .tomont rd _ => some (rd, 1)
  | .frommont rd _ => some (rd, 1)
  | .mmul rd _ _ => some (rd, 1)
  | .mpow rd _ _ => some (rd, 1)
  | .gfadd rd _ _ => some (rd, 1)
  | .gfmul rd _ _ => some (rd, 2)
  | .gfred rd _ _ => some (rd, 1)
  | .gfmulr rd _ _ _ => some (rd, 1)
  | .curve _ => none
  | .padd rd _ _ => some (rd, 3)
  | .pdbl rd _ => some (rd, 3)
  | .peq _ _ => none
  | .j2a rd _ => some (rd, 3)
  | .smul rd _ _ => some (rd, 3)
  | .smulO rd _ _ => some (rd, 3)
  | .smulg rd _ => some (rd, 3)
  | .esign rd _ _ _ => some (rd, 2)
  | .everify _ _ _ => none

/-- The registers of a span, in order (R102). -/
def spanRegs (r : Reg) (n : Nat) : List Reg := (List.range n).map (spanReg r)

/-- Whether a register is one the command names as a destination (R105). -/
def isDest (i : Instr) (r : Reg) : Bool :=
  match destSpan i with
  | none => false
  | some (rd, n) => (spanRegs rd n).contains r

/-- Whether every word of every source span is written (R31, R113). -/
def State.sourcesWritten (s : State) (i : Instr) : Bool :=
  (sourceSpans i).all fun x => (spanRegs x.1 x.2).all s.regWritten

/-- Whether the operand check of R113 finds an unwritten word: a legal command with its context that reads one (R31,
R353). -/
def State.readsUnwritten (s : State) (i : Instr) : Bool :=
  i.wf && s.contextValid (contextOf i) && !s.sourcesWritten i

/-- `PAIR(r)`: the 2W-bit value with `V[r]` its low W bits (R18). -/
def State.pair (s : State) (r : Reg) : Nat := s.reg r + s.reg (spanReg r 1) * 2 ^ s.params.width

/-- A Jacobian triple of integers (R23). -/
structure Jac where
  x : Nat
  y : Nat
  z : Nat
deriving DecidableEq, Repr

/-- `reduce(PT(r))` (R245): the three coordinates of the point operand, each mod `p = C.P`. -/
def State.point (s : State) (r : Reg) : Jac :=
  { x := s.reg r % s.curve.p, y := s.reg (spanReg r 1) % s.curve.p, z := s.reg (spanReg r 2) % s.curve.p }

/-- `IsInf` of a reduced triple (R245). -/
def Jac.isInf (t : Jac) : Bool := t.y == 0 || t.z == 0

/-- The triple `Canon` returns (R246): `CANON_INF = (0, 0, 0)` for an infinite result. -/
def Jac.canon (t : Jac) : Jac := if t.isInf then ⟨0, 0, 0⟩ else t

/-- `PT(rd) <- Canon(t)` (R246; also for the affine results of J2A, SMUL and SMULG, log 13): the three registers, and
INF = 1 exactly for an infinite result. -/
def pointWrites (rd : Reg) (t : Jac) : Writes :=
  { regs := [(rd, t.canon.x), (spanReg rd 1, t.canon.y), (spanReg rd 2, t.canon.z)], inf := some t.isInf }

/-- `V[rd] <- x`. -/
def oneWrite (rd : Reg) (x : Nat) : Writes := { regs := [(rd, x)] }

/-- Execution and completion of a command (R113) around its own rule, in the order of R353: an illegal command (a span past
V31, R106; log 11), a context that is not valid, an unwritten word of a source span, at which the model stops (R22, R31), then
the rule's own checks. -/
def State.runCommand (s : State) (i : Instr) (rule : State → CmdResult) : Host.Outcome State Fault Refusal :=
  if i.wf = false then .next (s.raise .illegalCommand)
  else if s.contextValid (contextOf i) = false then .next (s.raise .noContext)
  else if s.sourcesWritten i = false then .fault .unwrittenOperand
  else .next (s.finish (rule s))

end Sys2Proof.Machine
end

