-- ==== Sys2Proof/Machine/BinaryField.lean ====
section
/-! DEFINITION. The GF(2^m) multiplier and reduction: GFADD, GFMUL, GFRED, GFMULR (42_gf2m.md). -/

namespace Sys2Proof.Machine

/-- GFADD's rule (R190). -/
def ruleGfadd (rd rs1 rs2 : Reg) (s : State) : CmdResult := .ok (oneWrite rd (s.reg rs1 ^^^ s.reg rs2))

/-- GFADD (R190): `V[RD] <- V[RS1] XOR V[RS2]`. -/
def execGfadd (rd rs1 rs2 : Reg) (s : State) : Host.Outcome State Fault Refusal :=
  s.runCommand (.gfadd rd rs1 rs2) (ruleGfadd rd rs1 rs2)

/-- GFMUL's rule (R191): the low and high halves of the double-length product. -/
def ruleGfmul (rd rs1 rs2 : Reg) (s : State) : CmdResult :=
  .ok { regs := [(rd, clmul (s.reg rs1) (s.reg rs2) % 2 ^ s.params.width),
                 (spanReg rd 1, clmul (s.reg rs1) (s.reg rs2) / 2 ^ s.params.width)] }

/-- GFMUL (R191). -/
def execGfmul (rd rs1 rs2 : Reg) (s : State) : Host.Outcome State Fault Refusal :=
  s.runCommand (.gfmul rd rs1 rs2) (ruleGfmul rd rs1 rs2)

/-- Reduction of `t` by the polynomial operand `f`, valid when its bit 0 is 1 (R192). -/
def reduceBy (rd : Reg) (t f : Nat) : CmdResult :=
  if f % 2 = 0 then .raise .invalidFieldPolynomial else .ok (oneWrite rd (polymod t f))

/-- GFRED's rule (R193). -/
def ruleGfred (rd rs1 rs2 : Reg) (s : State) : CmdResult := reduceBy rd (s.pair rs1) (s.reg rs2)

/-- GFRED (R193). -/
def execGfred (rd rs1 rs2 : Reg) (s : State) : Host.Outcome State Fault Refusal :=
  s.runCommand (.gfred rd rs1 rs2) (ruleGfred rd rs1 rs2)

/-- GFMULR's rule (R194). -/
def ruleGfmulr (rd rs1 rs2 rs3 : Reg) (s : State) : CmdResult :=
  reduceBy rd (clmul (s.reg rs1) (s.reg rs2)) (s.reg rs3)

/-- GFMULR (R194). -/
def execGfmulr (rd rs1 rs2 rs3 : Reg) (s : State) : Host.Outcome State Fault Refusal :=
  s.runCommand (.gfmulr rd rs1 rs2 rs3) (ruleGfmulr rd rs1 rs2 rs3)

end Sys2Proof.Machine
end

