-- ==== Sys2Proof/Machine/Group.lean ====
section
/-! DEFINITION. The affine reference group law, the Jacobian formulas, the curve equation and the generator table
(43_curve_context.md R222 to R224; 44_point_arith.md R240 to R253; 45_scalar_mul.md R293, R295, R297). Everything is
modulo `p`, with `a`, `b` the curve's coefficients. Intermediate values are signed integers. -/

namespace Sys2Proof.Machine

/-- `OnCurve` (R224). -/
def onCurve (x y p a b : Nat) : Bool := zmod ((y : Int) * y - (x * x * x + a * x + b)) p == 0

/-- `AffNeg` (R240). -/
def affNeg (p : Nat) : Aff → Aff
  | .identity => .identity
  | .pt x y => .pt x ((p - y) % p)

/-- The point of the tangent or chord with slope `lam` through `(x1, y1)` and a point of abscissa `x2` (R241, R242). -/
def affLine (p lam x1 y1 x2 : Nat) : Aff :=
  let x3 := zmod ((lam : Int) * lam - x1 - x2) p
  .pt x3 (zmod ((lam : Int) * ((x1 : Int) - x3) - y1) p)

/-- `AffDbl` (R241); none when its `InvMod` reports NotInvertible (R244). -/
def affDbl (p a : Nat) : Aff → Option Aff
  | .identity => some .identity
  | .pt x y =>
    if y = 0 then some .identity
    else match invMod (2 * y) p with
      | none => none
      | some iv => some (affLine p ((3 * x * x + a) * iv % p) x y x)

/-- `AffAdd` (R242); none when an `InvMod` in it reports NotInvertible (R244). -/
def affAdd (p a : Nat) (P Q : Aff) : Option Aff :=
  match P, Q with
  | .identity, Q => some Q
  | P, .identity => some P
  | .pt x1 y1, .pt x2 y2 =>
    if x1 = x2 ∧ (y1 + y2) % p = 0 then some .identity
    else if x1 = x2 ∧ y1 = y2 then affDbl p a (.pt x1 y1)
    else match invMod (zmod ((x2 : Int) - x1) p) p with
      | none => none
      | some iv => some (affLine p (zmod (((y2 : Int) - y1) * iv) p) x1 y1 x2)

/-- One round of double-and-add: double, then add `P` when the bit is 1 (R243). -/
def affRound (p a : Nat) (P : Aff) (bit : Bool) (acc : Aff) : Option Aff :=
  match affDbl p a acc with
  | none => none
  | some d => if bit then affAdd p a d P else some d

/-- The rounds for bits `i - 1` down to 0 of `k` (R243). -/
def affMulLoop (p a : Nat) (P : Aff) (k : Nat) : Nat → Aff → Option Aff
  | 0, acc => some acc
  | i + 1, acc =>
    match affRound p a P (k.testBit i) acc with
    | none => none
    | some acc' => affMulLoop p a P k i acc'

/-- `AffMul` (R243), left-to-right double-and-add; none when an inverse in it does not exist (R244). -/
def affMul (p a k : Nat) (P : Aff) : Option Aff := affMulLoop p a P k (bitlen k) .identity

/-- `MDBL` (R252): doubling with `Z = 1`. -/
def mdbl (p a : Nat) (x1 y1 : Int) : Jac :=
  let m : Int := p
  let xx := x1 * x1 % m
  let yy := y1 * y1 % m
  if yy = 0 then ⟨0, 0, 1⟩
  else
    let yyyy := yy * yy % m
    let s := 2 * ((x1 + yy) * (x1 + yy) - xx - yyyy) % m
    let mm := 3 * xx + a
    let t := (mm * mm - 2 * s) % m
    ⟨zmod t p, zmod (mm * (s - t) - 8 * yyyy) p, zmod (2 * y1) p⟩

/-- `DBL` (R253): general doubling. -/
def dbl (p a : Nat) (x1 y1 z1 : Int) : Jac :=
  let m : Int := p
  if z1 = 1 then mdbl p a x1 y1
  else if y1 = 0 ∨ z1 = 0 then ⟨0, 0, 1⟩
  else
    let xx := x1 * x1 % m
    let yy := y1 * y1 % m
    if yy = 0 then ⟨0, 0, 1⟩
    else
      let yyyy := yy * yy % m
      let zz := z1 * z1 % m
      let s := 2 * ((x1 + yy) * (x1 + yy) - xx - yyyy) % m
      let mm := (3 * xx + a * zz * zz) % m
      let t := (mm * mm - 2 * s) % m
      ⟨zmod t p, zmod (mm * (s - t) - 8 * yyyy) p, zmod ((y1 + z1) * (y1 + z1) - yy - zz) p⟩

/-- `MMADD` (R248): both operands have `Z = 1`. -/
def mmadd (p a : Nat) (x1 y1 x2 y2 : Int) : Jac :=
  let m : Int := p
  let h := x2 - x1
  let hh := h * h
  let i := 4 * hh % m
  let j := h * i
  let r := 2 * (y2 - y1)
  if h % m = 0 ∧ r % m = 0 then mdbl p a x1 y1
  else
    let v := x1 * i
    let x3 := (r * r - j - 2 * v) % m
    ⟨zmod x3 p, zmod (r * (v - x3) - 2 * y1 * j) p, zmod (2 * h) p⟩

/-- `ZADD` (R249): equal `Z`, not 1. -/
def zadd (p a : Nat) (x1 y1 z1 x2 y2 : Int) : Jac :=
  let m : Int := p
  let aa := (x2 - x1) * (x2 - x1) % m
  let b := x1 * aa % m
  let c := x2 * aa
  let d := (y2 - y1) * (y2 - y1) % m
  if aa = 0 ∧ d = 0 then dbl p a x1 y1 z1
  else
    let x3 := (d - b - c) % m
    ⟨zmod x3 p, zmod ((y2 - y1) * (b - x3) - y1 * (c - b)) p, zmod (z1 * (x2 - x1)) p⟩

/-- `MADD` (R250): the second operand has `Z = 1`, the first does not. -/
def madd (p a : Nat) (x1 y1 z1 x2 y2 : Int) : Jac :=
  let m : Int := p
  let z1z1 := z1 * z1 % m
  let u2 := x2 * z1z1 % m
  let s2 := y2 * z1 * z1z1 % m
  let h := (u2 - x1) % m
  let hh := h * h % m
  let i := 4 * hh % m
  let j := h * i
  let r := 2 * (s2 - y1) % m
  if r = 0 ∧ h = 0 then mdbl p a x2 y2
  else
    let v := x1 * i
    let x3 := (r * r - j - 2 * v) % m
    ⟨zmod x3 p, zmod (r * (v - x3) - 2 * y1 * j) p, zmod ((z1 + h) * (z1 + h) - z1z1 - hh) p⟩

/-- `ADDG` (R251): the general case. `H = 0` is tested on the integer `U2 - U1` of two remainders. -/
def addg (p a : Nat) (x1 y1 z1 x2 y2 z2 : Int) : Jac :=
  let m : Int := p
  let z1z1 := z1 * z1 % m
  let z2z2 := z2 * z2 % m
  let u1 := x1 * z2z2 % m
  let u2 := x2 * z1z1 % m
  let s1 := y1 * z2 * z2z2 % m
  let s2 := y2 * z1 * z1z1 % m
  let h := u2 - u1
  let i := 4 * h * h % m
  let j := h * i % m
  let r := 2 * (s2 - s1) % m
  if h = 0 ∧ r = 0 then dbl p a x1 y1 z1
  else
    let v := u1 * i
    let x3 := (r * r - j - 2 * v) % m
    ⟨zmod x3 p, zmod (r * (v - x3) - 2 * s1 * j) p, zmod (((z1 + z2) * (z1 + z2) - z1z1 - z2z2) * h) p⟩

/-- `JAdd` (R247), the case dispatch on reduced triples. -/
def jadd (p a : Nat) (P Q : Jac) : Jac :=
  if P.isInf then Q
  else if Q.isInf then P
  else if P.z = Q.z then
    (if P.z = 1 then mmadd p a P.x P.y Q.x Q.y else zadd p a P.x P.y P.z Q.x Q.y)
  else if P.z = 1 then madd p a Q.x Q.y Q.z P.x P.y
  else if Q.z = 1 then madd p a P.x P.y P.z Q.x Q.y
  else addg p a P.x P.y P.z Q.x Q.y Q.z

/-- `DBL` of a reduced triple (R258). -/
def jdbl (p a : Nat) (P : Jac) : Jac := dbl p a P.x P.y P.z

/-- `(X·zi^2 mod p, Y·zi^3 mod p)` for the inverse `zi` of `Z` (R265, R290, R326). -/
def affineOf (p : Nat) (P : Jac) (zi : Nat) : Nat × Nat := (P.x * zi * zi % p, P.y * zi * zi * zi % p)

/-- The reduced triple `(l^2·X, l^3·Y, l·Z)` of the same projective class (R12's `class`). -/
def Jac.scaled (p l : Nat) (t : Jac) : Jac := ⟨l * l * t.x % p, l * l * l * t.y % p, l * t.z % p⟩

/-- The W-bit value congruent to the residue `x` mod `p` that a drawn number picks: `x` plus one of the multiples of `p` that
keep it below `2^W`. R245 reads all of them as `x`. -/
def liftCoord (W p x d : Nat) : Nat := x + p * (d % ((2 ^ W - 1 - x) / p + 1))

/-- A reduced triple with each coordinate replaced by a drawn W-bit value congruent to it: the same point (R23, R245). -/
def Jac.lift (W p d0 d1 d2 : Nat) (t : Jac) : Jac := ⟨liftCoord W p t.x d0, liftCoord W p t.y d1, liftCoord W p t.z d2⟩

/-- The triple of an affine result: `CANON_INF` or `(x, y, 1)` (R290, R296, R246). -/
def Aff.triple : Aff → Jac
  | .identity => ⟨0, 0, 0⟩
  | .pt x y => ⟨x, y, 1⟩

/-- The table entries after `T[0]`, by repeated doubling (R223); an entry whose doubling has no inverse holds no point
(log 10). -/
def tableFrom (p a : Nat) : Nat → Option Aff → List (Option Aff)
  | 0, t => [t]
  | k + 1, t => t :: tableFrom p a k (t.bind (affDbl p a))

/-- `BuildTable` (R223): `bitlen(2n) + 1` entries, entry `k` the point `2^k·G`. -/
def buildTable (p a gx gy n : Nat) : List (Option Aff) := tableFrom p a (bitlen (2 * n)) (some (.pt gx gy))

/-- `AffAdd` where its value is a sum (R242): none, too, for two points with one abscissa that are neither equal nor
opposite (composite `p`), where `InvMod` answers 0 for 0 and no inverse exists. -/
def properAdd (p a : Nat) (P Q : Aff) : Option Aff :=
  match P, Q with
  | .identity, Q => some Q
  | P, .identity => some P
  | .pt x1 y1, .pt x2 y2 =>
    if x1 = x2 ∧ y1 ≠ y2 ∧ (y1 + y2) % p ≠ 0 then none else affAdd p a (.pt x1 y1) (.pt x2 y2)

/-- One round of double-and-add (R243) on the multiple `acc` of `P`, with `add` for the addition. -/
def multipleStep (add : Aff → Aff → Option Aff) (p a : Nat) (P acc : Aff) (bit : Bool) : Option Aff :=
  (affDbl p a acc).bind fun d => if bit then add d P else some d

/-- The multiple of `P` that double-and-add (R243) reaches from `acc` over the scalar bits `bits`, most significant
first. -/
def multipleFrom (add : Aff → Aff → Option Aff) (p a : Nat) (P : Aff) : List Bool → Aff → Option Aff
  | [], acc => some acc
  | bit :: bits, acc => (multipleStep add p a P acc bit).bind (multipleFrom add p a P bits)

/-- The bits of a scalar, most significant first (R243). -/
def scalarBits (k : Nat) : List Bool := (List.range (bitlen k)).reverse.map k.testBit

/-- The two multiples of `P` that one more round can make of the multiple `Q`. -/
def nextMultiples (add : Aff → Aff → Option Aff) (p a : Nat) (P Q : Aff) : List Aff :=
  [false, true].filterMap (multipleStep add p a P Q)

/-- Search from the points `todo`, following `next`, for one that meets `goal`; `seen` were looked at before. -/
def searchFrom (next : Aff → List Aff) (goal : Aff → Bool) : Nat → List Aff → List Aff → Bool
  | 0, _, _ => false
  | _ + 1, [], _ => false
  | fuel + 1, Q :: todo, seen =>
    if goal Q then true
    else if Q ∈ seen then searchFrom next goal fuel todo seen
    else searchFrom next goal fuel (next Q ++ todo) (Q :: seen)

/-- Search all multiples of `P`: there are at most `p^2 + 1`, and each is followed by at most two. -/
def searchMultiples (add : Aff → Aff → Option Aff) (p a : Nat) (P : Aff) (goal : Aff → Bool) : Bool :=
  searchFrom (nextMultiples add p a P) goal (2 * (p * p + 1) + 2) [.identity] []

/-- Whether a point is one of order 2: finite with `y = 0` (R295). -/
def Aff.orderTwo : Aff → Bool
  | .identity => false
  | .pt _ y => y == 0

/-- Whether an odd multiple of `P` is the identity: `P` has odd order. -/
def hasOddOrder (p a : Nat) (P : Aff) : Bool :=
  searchMultiples (properAdd p a) p a P fun Q => multipleStep (properAdd p a) p a P Q true == some .identity

/-- Whether `P` has even order, so that the result of its scalar multiplication is open (R295; log 7): some multiple of
`P` is a point of order 2, and no odd multiple of it is the identity (both can be only for composite `p`). When an odd
order `n` of the curve context takes `P` to the identity, nothing is left to search. -/
def orderOpen (p a n : Nat) (P : Aff) : Bool :=
  if n % 2 = 1 ∧ multipleFrom (properAdd p a) p a P (scalarBits n) .identity = some .identity then false
  else searchMultiples (affAdd p a) p a P Aff.orderTwo && !hasOddOrder p a P

/-- The width-`w` NAF digits of `k`, least significant first (R293, informative). `fuel` bounds the digits. -/
def nafDigits (w : Nat) : Nat → Nat → List Int
  | 0, _ => []
  | fuel + 1, k =>
    if k = 0 then []
    else if k % 2 = 1 then
      (if k % 2 ^ w < 2 ^ (w - 1) then ((k % 2 ^ w : Nat) : Int) :: nafDigits w fuel ((k - k % 2 ^ w) / 2)
       else (((k % 2 ^ w : Nat) : Int) - 2 ^ w) :: nafDigits w fuel ((k + (2 ^ w - k % 2 ^ w)) / 2))
    else 0 :: nafDigits w fuel (k / 2)

/-- `NAF_w(k)` (R293): at most `bitlen(k) + 1` digits. -/
def naf (w k : Nat) : List Int := nafDigits w (bitlen k + 1) k

/-- The integer a list of signed digits stands for, least significant first. -/
def digitsValue : List Int → Int
  | [] => 0
  | d :: rest => d + 2 * digitsValue rest

/-- `Evaluate` (R293, informative): doubling and signed addition, most significant digit first. The digits come least
significant first, so the tail is evaluated before its head is added. `mult d` is the precomputed `d·P`. -/
def nafEvaluate (p a : Nat) (P : Aff) : List Int → Option Aff
  | [] => some .identity
  | d :: rest =>
    match (nafEvaluate p a P rest).bind (affDbl p a) with
    | none => none
    | some acc =>
      if d = 0 then some acc
      else match affMul p a d.natAbs P with
        | none => none
        | some m => affAdd p a acc (if 0 < d then m else affNeg p m)

/-- The generator-table path (R297, informative): width-2 NAF digits over the entries of GTAB. -/
def tableEvaluate (p a : Nat) : List (Option Aff) → Nat → Aff → Option Aff
  | [], _, acc => some acc
  | t :: rest, m, acc =>
    if m % 2 = 1 then
      match t with
      | none => none
      | some g =>
        if m % 4 ≥ 2 then (affAdd p a acc (affNeg p g)).bind (tableEvaluate p a rest ((m + 1) / 2))
        else (affAdd p a acc g).bind (tableEvaluate p a rest ((m - 1) / 2))
    else tableEvaluate p a rest (m / 2) acc

end Sys2Proof.Machine
end

