-- ==== Sys2Proof/Machine/Curve.lean ====
section
/-! DEFINITION. The curve descriptor: CURVE (43_curve_context.md). -/

namespace Sys2Proof.Machine

/-- `CheckCurve` (R222): the first failing check's error, none when all pass. -/
def checkCurve (p a b gx gy n : Nat) : Option ErrorCode :=
  if p % 2 = 0 ∨ p < 5 then some .invalidModulus
  else if n < 2 then some .invalidModulus
  else if gx ≥ p ∨ gy ≥ p ∨ gy = 0 ∨ onCurve gx gy p (a % p) (b % p) = false then some .malformedPoint
  else none

/-- The curve context a descriptor loads: `a` and `b` reduced mod `p` (R221). -/
def curveContext (p a b h gx gy n : Nat) : CurveCtx :=
  { p := p, a := a % p, b := b % p, h := h, gx := gx, gy := gy, n := n }

/-- CURVE's rule (R220, R221) on the seven descriptor values. -/
def loadCurve (p a b h gx gy n : Nat) : CmdResult :=
  match checkCurve p a b gx gy n with
  | some e => .raise e
  | none => .ok { curve := some (curveContext p a b h gx gy n, buildTable p (a % p) gx gy n) }

/-- CURVE's rule: the descriptor is in `V[c]` to `V[c+6]` in the order p, a, b, h, Gx, Gy, n (R220). -/
def ruleCurve (c : Reg) (s : State) : CmdResult :=
  loadCurve (s.reg c) (s.reg (spanReg c 1)) (s.reg (spanReg c 2)) (s.reg (spanReg c 3)) (s.reg (spanReg c 4))
    (s.reg (spanReg c 5)) (s.reg (spanReg c 6))

/-- CURVE (R221): load the curve context and build the generator table. -/
def execCurve (rs1 : Reg) (s : State) : Host.Outcome State Fault Refusal :=
  s.runCommand (.curve rs1) (ruleCurve rs1)

end Sys2Proof.Machine
end

