-- ==== Sys2Proof/Machine/ScalarMul.lean ====
section
/-! DEFINITION. The scalar multiplier: SMUL, SMUL.O, SMULG, and the scalar multiplication the ECDSA engine shares
(45_scalar_mul.md; 44_point_arith.md R244). -/

namespace Sys2Proof.Machine

/-- The affine point three free values stand for: the identity, or any `(x, y)` mod `p` (R295; log 7). -/
def drawnPoint (p d0 d1 d2 : Nat) : Aff := if d0 % 2 = 0 then .identity else .pt (d1 % p) (d2 % p)

/-- `k·P` on the curve context, and how many free values are taken by then, `d` of them before. The value is `AffMul`
(R243); for a point of even order it is any point, whatever `k` (R295; log 7). None: an inverse inside `AffMul` does
not exist (R244). -/
def State.scalarMul (s : State) (d k : Nat) (P : Aff) : Option (Aff × Nat) :=
  match affMul s.curve.p s.curve.a k P with
  | none => none
  | some R =>
    if orderOpen s.curve.p s.curve.a s.curve.n P then
      some (drawnPoint s.curve.p (s.drawn d) (s.drawn (d + 1)) (s.drawn (d + 2)), d + 3)
    else some (R, d)

/-- The outcome of a command whose reference group law met an inverse that does not exist (R244, item 18 of file 93;
log 8): a drawn choice among its error codes `errs` and the success that writes drawn values to its destinations `dst`
and its flags; `d` free values were taken before. -/
def State.openOutcome (s : State) (d : Nat) (errs : List ErrorCode) (dst : List Reg) (inf valid : Bool) : CmdResult :=
  match errs[s.drawn d % (errs.length + 1)]? with
  | some e => .error e (d + 1)
  | none =>
    .ok { regs := dst.mapIdx fun k r => (r, s.drawn (d + 4 + k))
          inf := if inf then some (s.drawn (d + 1) % 2 == 1) else none
          valid := if valid then some (s.drawn (d + 2) % 2 == 1) else none
          vrange := if valid then some (s.drawn (d + 3) % 2 == 1) else none
          draws := d + 4 + dst.length }

/-- The point write of a scalar multiplication, with the free values it took (R290, R296, R246). -/
def scalarWrites (rd : Reg) (r : Aff × Nat) : Writes := { pointWrites rd r.1.triple with draws := r.2 }

/-- SMUL's rule for both forms (R290 to R292); `order` is FN[0] = O. -/
def smulRule (order : Bool) (rd rs1 rs2 : Reg) (s : State) : CmdResult :=
  if (s.point rs1).isInf then .ok (pointWrites rd ⟨0, 0, 0⟩)
  else match invMod (s.point rs1).z s.curve.p with
    | none => .raise .notInvertible
    | some zi =>
      let P := affineOf s.curve.p (s.point rs1) zi
      if onCurve P.1 P.2 s.curve.p s.curve.a s.curve.b = false then .raise .malformedPoint
      else match s.scalarMul 0 (if order then s.reg rs2 % (2 * s.curve.n) else s.reg rs2) (.pt P.1 P.2) with
        | none => s.openOutcome 0 [.noContext, .notInvertible, .malformedPoint] (spanRegs rd 3) true false
        | some r => .ok (scalarWrites rd r)

/-- SMUL (R290 with O = 0): `k·P` without reduction of the scalar. -/
def execSmul (rd rs1 rs2 : Reg) (s : State) : Host.Outcome State Fault Refusal :=
  s.runCommand (.smul rd rs1 rs2) (smulRule false rd rs1 rs2)

/-- SMUL.O (R290 with O = 1): the scalar is reduced mod `2·C.N` (R291). -/
def execSmulO (rd rs1 rs2 : Reg) (s : State) : Host.Outcome State Fault Refusal :=
  s.runCommand (.smulO rd rs1 rs2) (smulRule true rd rs1 rs2)

/-- The generator `G` of the curve context (R41). -/
def State.generator (s : State) : Aff := .pt s.curve.gx s.curve.gy

/-- SMULG's rule (R296). The value is `AffMul`'s whatever path computes it (R297). -/
def ruleSmulg (rd rs2 : Reg) (s : State) : CmdResult :=
  match s.scalarMul 0 (s.reg rs2 % (2 * s.curve.n)) s.generator with
  | none => s.openOutcome 0 [.noContext] (spanRegs rd 3) true false
  | some r => .ok (scalarWrites rd r)

/-- SMULG (R296): scalar multiplication of the generator. -/
def execSmulg (rd rs2 : Reg) (s : State) : Host.Outcome State Fault Refusal :=
  s.runCommand (.smulg rd rs2) (ruleSmulg rd rs2)

end Sys2Proof.Machine
end

