-- ==== Sys2Proof/Machine/Ecdsa.lean ====
section
/-! DEFINITION. The ECDSA engine: ESIGN and EVERIFY (46_ecdsa.md). -/

namespace Sys2Proof.Machine

/-- `Blind` (R321). -/
def blind (k n : Nat) : Nat := if bitlen (k % n + n) = bitlen n then k % n + n else k % n + n + n

/-- The signature part of ESIGN (R320) once `R.x` is known; `d` free values were taken before. -/
def signWith (rd : Reg) (priv e k n x d : Nat) : CmdResult :=
  if x % n = 0 then .error .degenerateSignature d
  else match invMod (k % n) n with
    | none => .error .notInvertible d
    | some kinv =>
      if kinv * (e + priv * (x % n)) % n = 0 then .error .degenerateSignature d
      else .ok { regs := [(rd, x % n), (spanReg rd 1, kinv * (e + priv * (x % n)) % n)], draws := d }

/-- ESIGN's rule (R320 to R324). -/
def ruleEsign (rd rs1 rs2 rs3 : Reg) (s : State) : CmdResult :=
  let n := s.curve.n
  match s.scalarMul 0 (blind (s.reg rs3) n % (2 * n)) s.generator with
  | none => s.openOutcome 0 [.noContext, .degenerateSignature, .notInvertible] (spanRegs rd 2) false false
  | some (.identity, d) => .error .degenerateSignature d
  | some (.pt x _, d) => signWith rd (s.reg rs1) (s.reg rs2 % n) (s.reg rs3) n x d

/-- ESIGN (R320): sign the digest `V[RS2]` with the key `V[RS1]` and the nonce `V[RS3]`. -/
def execEsign (rd rs1 rs2 rs3 : Reg) (s : State) : Host.Outcome State Fault Refusal :=
  s.runCommand (.esign rd rs1 rs2 rs3) (ruleEsign rd rs1 rs2 rs3)

/-- What EVERIFY may still do when the group law met an inverse that does not exist (R244; log 8). -/
def State.openVerify (s : State) (d : Nat) : CmdResult :=
  s.openOutcome d [.noContext, .malformedPoint, .notInvertible] [] false true

/-- Whether `R'.x mod n = r` for a finite `R'` (R331). -/
def acceptsPoint (n r : Nat) : Aff → Bool
  | .identity => false
  | .pt x _ => x % n == r

/-- EVERIFY's curve computation (R326): `R' = u1·G + u2·Q`, then the verdict (R331). -/
def verifySum (s : State) (u1 u2 r : Nat) (Q : Aff) : CmdResult :=
  match s.scalarMul 0 u1 s.generator with
  | none => s.openVerify 0
  | some (A, d) =>
    match s.scalarMul d u2 Q with
    | none => s.openVerify d
    | some (B, d') =>
      match affAdd s.curve.p s.curve.a A B with
      | none => s.openVerify d'
      | some R => .ok { valid := some (acceptsPoint s.curve.n r R), draws := d' }

/-- EVERIFY's rule after the range check (R326, R328, R329). -/
def verifyInRange (s : State) (Q : Jac) (e r sig : Nat) : CmdResult :=
  if Q.isInf then .raise .malformedPoint
  else match invMod Q.z s.curve.p with
    | none => .raise .notInvertible
    | some zi =>
      let q := affineOf s.curve.p Q zi
      if onCurve q.1 q.2 s.curve.p s.curve.a s.curve.b = false then .raise .malformedPoint
      else match invMod sig s.curve.n with
        | none => .ok { valid := some false }
        | some c => verifySum s (e * c % s.curve.n) (r * c % s.curve.n) r (.pt q.1 q.2)

/-- EVERIFY's rule (R326, R327): out-of-range `r` or `s` completes with VRANGE = 1 and VALID = 0, nothing checked. -/
def ruleEverify (rs1 rs2 rs3 : Reg) (s : State) : CmdResult :=
  let r := s.reg rs3
  let sig := s.reg (spanReg rs3 1)
  if 1 ≤ r ∧ r < s.curve.n ∧ 1 ≤ sig ∧ sig < s.curve.n then
    verifyInRange s (s.point rs1) (s.reg rs2 % s.curve.n) r sig
  else .ok { valid := some false, vrange := some true }

/-- EVERIFY (R326): verify the signature `V[RS3], V[RS3+1]` of the digest `V[RS2]` under the key at `RS1`. -/
def execEverify (rs1 rs2 rs3 : Reg) (s : State) : Host.Outcome State Fault Refusal :=
  s.runCommand (.everify rs1 rs2 rs3) (ruleEverify rs1 rs2 rs3)

end Sys2Proof.Machine
end

