-- ==== Sys2Proof/Machine/Inverse.lean ====
section
/-! DEFINITION. The modular inverse engine: INV (40_modular_inverse.md). -/

namespace Sys2Proof.Machine

/-- INV's rule (R141). -/
def ruleInv (rd rs1 rs2 : Reg) (s : State) : CmdResult :=
  if s.reg rs2 = 0 then .raise .invalidModulus
  else match invMod (s.reg rs1) (s.reg rs2) with
    | some x => .ok (oneWrite rd x)
    | none => .raise .notInvertible

/-- INV (R141): `V[RD] <- V[RS1]^-1 mod V[RS2]`. -/
def execInv (rd rs1 rs2 : Reg) (s : State) : Host.Outcome State Fault Refusal :=
  s.runCommand (.inv rd rs1 rs2) (ruleInv rd rs1 rs2)

end Sys2Proof.Machine
end

