-- ==== Sys2Proof/Machine/Montgomery.lean ====
section
/-! DEFINITION. The Montgomery multiplier and exponentiator: MCTX, TOMONT, FROMMONT, MMUL, MPOW (41_montgomery.md). -/

namespace Sys2Proof.Machine

/-- The Montgomery context of an odd modulus (R160). `InvMod(R mod n, n)` always exists for odd `n` (R160). -/
def montContext (gran n : Nat) : MontCtx :=
  { n := n
    bl := montExp gran n
    r2 := 2 ^ montExp gran n * 2 ^ montExp gran n % n
    rinv := (invMod (2 ^ montExp gran n % n) n).getD 0 }

/-- MCTX's rule (R160). -/
def ruleMctx (rs1 : Reg) (s : State) : CmdResult :=
  if s.reg rs1 % 2 = 0 then .raise .invalidModulus
  else .ok { mont := some (montContext s.params.montGran (s.reg rs1)) }

/-- MCTX (R160): build the Montgomery context. -/
def execMctx (rs1 : Reg) (s : State) : Host.Outcome State Fault Refusal :=
  s.runCommand (.mctx rs1) (ruleMctx rs1)

/-- The Montgomery form of `a` (R162). -/
def montIn (c : MontCtx) (a : Nat) : Nat := a * 2 ^ c.bl % c.n

/-- The plain value of a Montgomery form (R163). -/
def montOut (c : MontCtx) (a : Nat) : Nat := a * c.rinv % c.n

/-- The Montgomery product (R164). -/
def montMul (c : MontCtx) (a b : Nat) : Nat := a * b * c.rinv % c.n

/-- The Montgomery power: base in Montgomery form, plain exponent (R165). -/
def montPow (c : MontCtx) (x e : Nat) : Nat := montIn c (powMod (montOut c x) e c.n)

/-- TOMONT's rule (R162). -/
def ruleTomont (rd rs1 : Reg) (s : State) : CmdResult := .ok (oneWrite rd (montIn s.mont (s.reg rs1)))

/-- TOMONT (R162). -/
def execTomont (rd rs1 : Reg) (s : State) : Host.Outcome State Fault Refusal :=
  s.runCommand (.tomont rd rs1) (ruleTomont rd rs1)

/-- FROMMONT's rule (R163). -/
def ruleFrommont (rd rs1 : Reg) (s : State) : CmdResult := .ok (oneWrite rd (montOut s.mont (s.reg rs1)))

/-- FROMMONT (R163). -/
def execFrommont (rd rs1 : Reg) (s : State) : Host.Outcome State Fault Refusal :=
  s.runCommand (.frommont rd rs1) (ruleFrommont rd rs1)

/-- MMUL's rule (R164). -/
def ruleMmul (rd rs1 rs2 : Reg) (s : State) : CmdResult :=
  .ok (oneWrite rd (montMul s.mont (s.reg rs1) (s.reg rs2)))

/-- MMUL (R164). -/
def execMmul (rd rs1 rs2 : Reg) (s : State) : Host.Outcome State Fault Refusal :=
  s.runCommand (.mmul rd rs1 rs2) (ruleMmul rd rs1 rs2)

/-- MPOW's rule (R165). -/
def ruleMpow (rd rs1 rs2 : Reg) (s : State) : CmdResult :=
  .ok (oneWrite rd (montPow s.mont (s.reg rs1) (s.reg rs2)))

/-- MPOW (R165). -/
def execMpow (rd rs1 rs2 : Reg) (s : State) : Host.Outcome State Fault Refusal :=
  s.runCommand (.mpow rd rs1 rs2) (ruleMpow rd rs1 rs2)

end Sys2Proof.Machine
end

