-- ==== Sys2Proof/Machine/Point.lean ====
section
/-! DEFINITION. The point adder, doubler and Jacobian-to-affine converter: PADD, PDBL, PEQ, J2A (44_point_arith.md
section 4). -/

namespace Sys2Proof.Machine

/-- The factor a drawn number stands for: itself when it is invertible mod `p`, else 1 (R12's `class`; log 6). -/
def scaleFactor (p d : Nat) : Nat := if Nat.gcd (d % p) p = 1 then d % p else 1

/-- The triple of the projective class of `t` that four drawn numbers pick (R12's `class`): a unit factor, then a W-bit
value congruent to each coordinate. Where `Z` is invertible every triple of W-bit values that stands for the same affine point is
one of them (Laws/Class.lean, class_covers; log 6). -/
def classTriple (W p d0 d1 d2 d3 : Nat) (t : Jac) : Jac := (t.scaled p (scaleFactor p d0)).lift W p d1 d2 d3

/-- The write of a Jacobian result by PADD and PDBL: with JAC_REPR `exact` the triple itself; with `class` a drawn
triple of its projective class, an infinite one staying `CANON_INF` (R12, R246; log 6). -/
def jacobianWrites (s : State) (rd : Reg) (t : Jac) : Writes :=
  match s.params.jacRepr with
  | .exact => pointWrites rd t
  | .projClass =>
    if t.isInf then pointWrites rd t
    else
      { pointWrites rd (classTriple s.params.width s.curve.p (s.drawn 0) (s.drawn 1) (s.drawn 2) (s.drawn 3) t) with
        draws := 4 }

/-- PADD's rule (R255). -/
def rulePadd (rd rs1 rs2 : Reg) (s : State) : CmdResult :=
  .ok (jacobianWrites s rd (jadd s.curve.p s.curve.a (s.point rs1) (s.point rs2)))

/-- PADD (R255): Jacobian point addition. -/
def execPadd (rd rs1 rs2 : Reg) (s : State) : Host.Outcome State Fault Refusal :=
  s.runCommand (.padd rd rs1 rs2) (rulePadd rd rs1 rs2)

/-- PDBL's rule (R258). -/
def rulePdbl (rd rs1 : Reg) (s : State) : CmdResult :=
  .ok (jacobianWrites s rd (jdbl s.curve.p s.curve.a (s.point rs1)))

/-- PDBL (R258): Jacobian point doubling. -/
def execPdbl (rd rs1 : Reg) (s : State) : Host.Outcome State Fault Refusal :=
  s.runCommand (.pdbl rd rs1) (rulePdbl rd rs1)

/-- Equality of two reduced triples (R262): both infinite, or both finite and equal by cross-multiplication. -/
def jacEq (p : Nat) (P Q : Jac) : Bool :=
  if P.isInf && Q.isInf then true
  else if P.isInf || Q.isInf then false
  else zmod ((P.x : Int) * (Q.z * Q.z) - Q.x * (P.z * P.z)) p == 0 &&
    zmod ((P.y : Int) * (Q.z * Q.z * Q.z) - Q.y * (P.z * P.z * P.z)) p == 0

/-- PEQ's rule (R262). -/
def rulePeq (rs1 rs2 : Reg) (s : State) : CmdResult :=
  .ok { eq := some (jacEq s.curve.p (s.point rs1) (s.point rs2)) }

/-- PEQ (R262): point equality, into STATUS.EQ. -/
def execPeq (rs1 rs2 : Reg) (s : State) : Host.Outcome State Fault Refusal :=
  s.runCommand (.peq rs1 rs2) (rulePeq rs1 rs2)

/-- J2A's rule (R265). -/
def ruleJ2a (rd rs1 : Reg) (s : State) : CmdResult :=
  if (s.point rs1).isInf then .ok (pointWrites rd ⟨0, 0, 0⟩)
  else match invMod (s.point rs1).z s.curve.p with
    | none => .raise .notInvertible
    | some zi =>
      .ok (pointWrites rd ⟨(affineOf s.curve.p (s.point rs1) zi).1, (affineOf s.curve.p (s.point rs1) zi).2, 1⟩)

/-- J2A (R265): Jacobian to affine. -/
def execJ2a (rd rs1 : Reg) (s : State) : Host.Outcome State Fault Refusal :=
  s.runCommand (.j2a rd rs1) (ruleJ2a rd rs1)

end Sys2Proof.Machine
end

