-- ==== Sys2Proof/Machine/Dispatch.lean ====
section
/-! DEFINITION. One arm per command: the core's completion of the command (30_encoding.md R104, R113). -/

namespace Sys2Proof.Machine

def exec (i : Instr) (s : State) : Host.Outcome State Fault Refusal :=
  match i with
  | .inv rd rs1 rs2 => Sys2Proof.Machine.execInv rd rs1 rs2 s
  | .mctx rs1 => Sys2Proof.Machine.execMctx rs1 s
  | .tomont rd rs1 => Sys2Proof.Machine.execTomont rd rs1 s
  | .frommont rd rs1 => Sys2Proof.Machine.execFrommont rd rs1 s
  | .mmul rd rs1 rs2 => Sys2Proof.Machine.execMmul rd rs1 rs2 s
  | .mpow rd rs1 rs2 => Sys2Proof.Machine.execMpow rd rs1 rs2 s
  | .gfadd rd rs1 rs2 => Sys2Proof.Machine.execGfadd rd rs1 rs2 s
  | .gfmul rd rs1 rs2 => Sys2Proof.Machine.execGfmul rd rs1 rs2 s
  | .gfred rd rs1 rs2 => Sys2Proof.Machine.execGfred rd rs1 rs2 s
  | .gfmulr rd rs1 rs2 rs3 => Sys2Proof.Machine.execGfmulr rd rs1 rs2 rs3 s
  | .curve rs1 => Sys2Proof.Machine.execCurve rs1 s
  | .padd rd rs1 rs2 => Sys2Proof.Machine.execPadd rd rs1 rs2 s
  | .pdbl rd rs1 => Sys2Proof.Machine.execPdbl rd rs1 s
  | .peq rs1 rs2 => Sys2Proof.Machine.execPeq rs1 rs2 s
  | .j2a rd rs1 => Sys2Proof.Machine.execJ2a rd rs1 s
  | .smul rd rs1 rs2 => Sys2Proof.Machine.execSmul rd rs1 rs2 s
  | .smulO rd rs1 rs2 => Sys2Proof.Machine.execSmulO rd rs1 rs2 s
  | .smulg rd rs2 => Sys2Proof.Machine.execSmulg rd rs2 s
  | .esign rd rs1 rs2 rs3 => Sys2Proof.Machine.execEsign rd rs1 rs2 rs3 s
  | .everify rs1 rs2 rs3 => Sys2Proof.Machine.execEverify rs1 rs2 rs3 s

end Sys2Proof.Machine
end

