-- ==== Sys2Proof/Machine/Window.lean ====
section
/-! DEFINITION. The register window: its map, and the host's reads and writes of it (20_memory.md). -/

namespace Sys2Proof.Machine

/-- What stands at a word of the window (R72). -/
inductive WindowPlace where
  | id | param | ctrl | status | cmd | mbl
  | vword (i : Reg) (j : Nat)          -- word j of V[i] (R73)
  | cword (c : Fin 10) (j : Nat)       -- word j of context register c (R74)
  | reserved                           -- R78
deriving DecidableEq, Repr

/-- The size of the window (R70). -/
def windowSize : Nat := 0x4000

/-- The map of R72 on aligned offsets. -/
def placeAt (off : Nat) : WindowPlace :=
  if off = 0x0000 then .id
  else if off = 0x0004 then .param
  else if off = 0x0008 then .ctrl
  else if off = 0x000C then .status
  else if off = 0x0010 then .cmd
  else if off = 0x0014 then .mbl
  else if off < 0x1000 then .reserved
  else if off < 0x2000 then .vword (Fin.ofNat 32 ((off - 0x1000) / 0x80)) (off % 0x80 / 4)
  else if off < 0x2500 then .cword (Fin.ofNat 10 ((off - 0x2000) / 0x80)) (off % 0x80 / 4)
  else .reserved

/-- The offset of word `j` of `V[i]` (R73). -/
def vOffset (i : Reg) (j : Nat) : Nat := 0x1000 + 0x80 * i.val + 4 * j

/-- The offset of word `j` of context register `c` (R74). -/
def cOffset (c : Fin 10) (j : Nat) : Nat := 0x2000 + 0x80 * c.val + 4 * j

/-- ID (R14, R34). -/
def idWord : Word := 0x45430100

/-- PARAM (R14, R35): W in [10:0], NREG = 32 in [21:16], the MONT_GRAN code in [23:22]. -/
def paramWord (p : Params) : Word :=
  BitVec.ofNat 32 (p.width + 32 * 2 ^ 16 + (if p.montGran = 64 then 1 else 0) * 2 ^ 22)

/-- The context register of R74's number. -/
def State.contextReg (s : State) (c : Fin 10) : Nat :=
  match c with
  | 0 => s.curve.p
  | 1 => s.curve.a
  | 2 => s.curve.b
  | 3 => s.curve.h
  | 4 => s.curve.gx
  | 5 => s.curve.gy
  | 6 => s.curve.n
  | 7 => s.mont.n
  | 8 => s.mont.r2
  | 9 => s.mont.rinv

/-- Word `j` of a W-bit register; words past `W/32` read 0 (R73, R74). -/
def registerWord (p : Params) (x j : Nat) : Word := if j < wordCount p then wordOf x j else 0

/-- The word at a place, with no command in flight (R72 to R74, R78). -/
def State.placeWord (s : State) : WindowPlace → Word
  | .id => idWord
  | .param => paramWord s.params
  | .ctrl => s.ctrl.word
  | .status => s.status.word
  | .cmd => s.cmd
  | .mbl => BitVec.ofNat 32 (s.mont.bl % 2 ^ 16)
  | .vword i j => registerWord s.params (s.reg i) j
  | .cword c j => registerWord s.params (s.contextReg c) j
  | .reserved => 0

/-- Byte `t` of the W-bit register: bits `[8t+7 : 8t]`, at byte offset `t` of the register (R75). -/
def registerByte (x t : Nat) : BitVec 8 := BitVec.ofNat 8 (x / 2 ^ (8 * t))

/-- Byte lane `k` of a bus word: bits `[8k+7 : 8k]` (R75). -/
def byteLane (w : Word) (k : Nat) : BitVec 8 := BitVec.ofNat 8 (w.toNat / 2 ^ (8 * k))

/-- Whether a read of the place is a draw while a command is in flight (R81, R82). -/
def State.readIsDrawn (s : State) (pl : WindowPlace) : Bool :=
  s.status.busy &&
    match pl with
    | .vword _ _ => true
    | .cword _ _ => true
    | .mbl => (Fields.ofWord s.cmd).op == Op.mctx.code
    | .id => false
    | .param => false
    | .ctrl => false
    | .status => false
    | .cmd => false
    | .reserved => false

/-- Whether a host access is refused by the bus (R76, R77, R82). -/
def badAccess (off size : Nat) : Bool := size != 4 || off % 4 != 0 || decide (off ≥ windowSize)

/-- `MemRead` (R82): the word read and the state after; none for a bus error. Only a draw changes the state, and then
only the count of free values taken. -/
def State.memRead (s : State) (off size : Nat) : Option (Word × State) :=
  if badAccess off size then none
  else if s.readIsDrawn (placeAt off) then some (BitVec.ofNat 32 (s.drawn 0), s.takeDraws 1)
  else some (s.placeWord (placeAt off), s)

/-- A write while a command is in flight that is ignored and noted (R81). -/
def State.overrun (s : State) : State := { s with status := { s.status with overrun := true } }

/-- The effect of a 32-bit write at a place (R83). -/
def State.writePlace (s : State) (pl : WindowPlace) (w : Word) : State :=
  match pl with
  | .ctrl => if w.getLsbD 0 then s.softReset else { s with ctrl := s.ctrl.hostWrite w }
  | .status => { s with status := s.status.hostWrite w }
  | .cmd => if s.status.busy then s.overrun else s.accept w
  | .vword i j =>
    if s.status.busy then s.overrun
    else if j < wordCount s.params then s.setRegWord i j w else s
  | .id => s
  | .param => s
  | .mbl => s
  | .cword _ _ => s
  | .reserved => s

/-- `MemWrite` (R83): the state after; none for a bus error. -/
def State.memWrite (s : State) (off size : Nat) (w : Word) : Option State :=
  if badAccess off size then none else some (s.writePlace (placeAt off) w)

/-- The window offset of a bus address (R71): none below BASE. -/
def windowOffset (p : Params) (addr : Nat) : Option Nat := if addr < p.base then none else some (addr - p.base)

end Sys2Proof.Machine
end

