-- ==== Sys2Proof/Machine/HostAgent.lean ====
section
/-! DEFINITION. The host agent: one 32-bit access per step (00_scope.md R4, R20), on a line of 30_encoding.md R116; and
one branch or jump per step: DESIGN CHOICE (log 3), since R4 counts accesses only. -/

namespace Sys2Proof.Machine

/-- A host read at a bus address, and what the host does with the word. -/
def State.busRead (s : State) (addr size : Nat) (use : Word → State → State) : Host.Outcome State Fault Refusal :=
  match windowOffset s.params addr with
  | none => .fault (.outsideWindow addr)
  | some off =>
    match s.memRead off size with
    | none => .fault (.accessFault off size)
    | some (w, t) => .next (use w t)

/-- A host write at a bus address, and what the host does next. -/
def State.busWrite (s : State) (addr size : Nat) (w : Word) (after : State → State) :
    Host.Outcome State Fault Refusal :=
  match windowOffset s.params addr with
  | none => .fault (.outsideWindow addr)
  | some off =>
    match s.memWrite off size w with
    | none => .fault (.accessFault off size)
    | some t => .next (after t)

/-- The host goes to a line of its program. -/
def HostAgent.goto (h : HostAgent) (line : Nat) : HostAgent := { h with pc := line, word := 0 }

/-- JIF's branch on the kept STATUS word (R116). -/
def HostAgent.branch (h : HostAgent) (f : StatusField) (value label : Nat) : HostAgent :=
  if f.get h.st = value then h.goto label else h.goto (h.pc + 1)

/-- The host goes to a line of its program. -/
def State.hostGoto (s : State) (line : Nat) : State := { s with host := s.host.goto line }

/-- The host goes to its next line. -/
def State.hostNext (s : State) : State := s.hostGoto (s.host.pc + 1)

/-- A line of many accesses has done one: go to its next word, or after word `W/32 - 1` to the next line. -/
def State.hostNextWord (s : State) : State :=
  if s.host.word + 1 < wordCount s.params then { s with host := { s.host with word := s.host.word + 1 } }
  else s.hostNext

/-- The host keeps the word a read returned. -/
def State.hostKeep (w : Word) (s : State) : State := { s with host := { s.host with rdata := w } }

/-- The host puts the word it read at its place of the value RDV or RDC assembles, little-endian (R116). -/
def State.hostAssemble (w : Word) (s : State) : State :=
  { s with host := { s.host with
      rdata := w
      value := (if s.host.word = 0 then 0 else s.host.value) + w.toNat * 2 ^ (32 * s.host.word) } }

/-- The host keeps the STATUS word of a poll and leaves WAIT when BUSY = 0 (R116). -/
def State.hostPoll (w : Word) (s : State) : State :=
  let t : State := { s with host := { s.host with rdata := w, st := w } }
  if StatusField.busy.get w = 0 then t.hostNext else t

/-- The bus address of a window offset: BASE + offset (R71). -/
def State.busAddr (s : State) (off : Nat) : Nat := s.params.base + off

/-- One host step on a line of its program (R116's expansions; R20). DESIGN CHOICE (log 3): JIF and JMP take one whole host
step each, without an access. R4 gives a host step one access and R116 gives these two none, so the spec does not say how many
steps they take. -/
def State.runLine (s : State) (line : HostLine) : Host.Outcome State Fault Refusal :=
  match line with
  | .memRead addr size => s.busRead addr size fun w t => (t.hostKeep w).hostNext
  | .memWrite addr size w => s.busWrite addr size w State.hostNext
  | .command i => s.busWrite (s.busAddr 0x0010) 4 (encode i) State.hostNext
  | .li n imm => s.busWrite (s.busAddr (vOffset n s.host.word)) 4 (wordOf imm s.host.word) State.hostNextWord
  | .rdv n => s.busRead (s.busAddr (vOffset n s.host.word)) 4 fun w t => (t.hostAssemble w).hostNextWord
  | .rdc c => s.busRead (s.busAddr (cOffset c s.host.word)) 4 fun w t => (t.hostAssemble w).hostNextWord
  | .wait => s.busRead (s.busAddr 0x000C) 4 fun w t => t.hostPoll w
  | .clr => s.busWrite (s.busAddr 0x000C) 4 0x0000000A State.hostNext
  | .srst => s.busWrite (s.busAddr 0x0008) 4 0x00000001 State.hostNext
  | .jif f value label => .next { s with host := s.host.branch f value label }
  | .jmp label => .next (s.hostGoto label)

/-- Whether a line performs accesses: every line but the two of R116's control flow. -/
def HostLine.accesses : HostLine → Bool
  | .jif _ _ _ => false
  | .jmp _ => false
  | .memRead _ _ => true
  | .memWrite _ _ _ => true
  | .command _ => true
  | .li _ _ => true
  | .rdv _ => true
  | .rdc _ => true
  | .wait => true
  | .clr => true
  | .srst => true

/-- Whether the host's next step is an access. -/
def HostAgent.atAccess (h : HostAgent) : Bool := (h.prog[h.pc]?).any HostLine.accesses

/-- The host agent after its next step, when that step is no access: a branch or a jump (R116), which takes a step of its own
(DESIGN CHOICE, log 3), or nothing at the program's end. -/
def HostAgent.control (h : HostAgent) : HostAgent :=
  match h.prog[h.pc]? with
  | some (.jif f value label) => h.branch f value label
  | some (.jmp label) => h.goto label
  | _ => h

/-- The host agent after `k` steps of its control flow alone. -/
def HostAgent.controlSteps (h : HostAgent) : Nat → HostAgent
  | 0 => h
  | k + 1 => h.control.controlSteps k

/-- A host step: the line at its place, or nothing when the program has ended (log 3). -/
def State.hostStep (s : State) : Host.Outcome State Fault Refusal :=
  match s.host.prog[s.host.pc]? with
  | none => .next s
  | some line => s.runLine line

end Sys2Proof.Machine
end

