-- ==== Sys2Proof/Machine/Agents.lean ====
section
/-! DEFINITION. Which agent moves, the core's step, and the placing of a command in flight (00_scope.md R4;
30_encoding.md R112, R113). -/

namespace Sys2Proof.Machine

/-- Whose turn it is: the schedule's head; when the schedule is used up, the core's if a command is in flight, else
the host's (R4, R412; log 3). -/
def State.nextTurn (s : State) : Turn :=
  match s.schedule with
  | t :: _ => t
  | [] => if s.status.busy then .core else .host

/-- The state with that turn taken off the schedule. -/
def State.popTurn (s : State) : State := { s with schedule := s.schedule.tail }

/-- The core's step (R113), enabled while BUSY = 1: decode CMD and complete the command; an illegal word completes
with ILLEGAL_COMMAND (R109). A turn given to an idle core changes nothing. -/
def State.coreStep (s : State) : Host.Outcome State Fault Refusal :=
  if s.status.busy then
    match decode s.cmd with
    | .ok i => exec i s
    | .error _ => .next (s.raise .illegalCommand)
  else .next s

/-- One step of the agent whose turn it is. -/
def State.stepOf (s : State) (t : Turn) : Host.Outcome State Fault Refusal :=
  match t with
  | .core => s.coreStep
  | .host => s.hostStep
  | .hardReset => .next s.hardReset

/-- The word `w` accepted as the command in flight (R112) and the next turn given to the core. -/
def State.placeCommand (s : State) (w : Word) : State :=
  { s.accept w with schedule := Turn.core :: s.schedule }

end Sys2Proof.Machine
end

