-- ==== Sys2Proof/Machine/Step.lean ====
section
/-! DEFINITION. One step of the machine, and the state in which a given command word runs next. -/

namespace Sys2Proof.Machine

/-- One step: the agent whose turn it is moves once (R4). -/
def step (s : State) : Host.Outcome State Fault Refusal := s.popTurn.stepOf s.nextTurn

/-- The state with a command word of `nbits` bits in flight and the core's step next (R112, R113). There is no fetch
and no instruction memory (R33, R87): a command reaches the core in the CMD write (log 12). -/
def State.withFetchWord (s : State) (nbits w : Nat) : State := s.placeCommand (BitVec.ofNat 32 (w % 2 ^ nbits))

end Sys2Proof.Machine
end

