-- ==== Sys2Proof/Machine/Assembler.lean ====
section
/-! DEFINITION. The command syntax of R115 (30_encoding.md section 5): its text and its reader. A text is a list of
characters; what separates its words is log 15. -/

namespace Sys2Proof.Machine

/-- The mnemonics of R104 and R115, in capitals. -/
def mnemonicChars (i : Instr) : List Char :=
  match i with
  | .inv _ _ _ => ['I', 'N', 'V']
  | .mctx _ => ['M', 'C', 'T', 'X']
  | .tomont _ _ => ['T', 'O', 'M', 'O', 'N', 'T']
  | .frommont _ _ => ['F', 'R', 'O', 'M', 'M', 'O', 'N', 'T']
  | .mmul _ _ _ => ['M', 'M', 'U', 'L']
  | .mpow _ _ _ => ['M', 'P', 'O', 'W']
  | .gfadd _ _ _ => ['G', 'F', 'A', 'D', 'D']
  | .gfmul _ _ _ => ['G', 'F', 'M', 'U', 'L']
  | .gfred _ _ _ => ['G', 'F', 'R', 'E', 'D']
  | .gfmulr _ _ _ _ => ['G', 'F', 'M', 'U', 'L', 'R']
  | .curve _ => ['C', 'U', 'R', 'V', 'E']
  | .padd _ _ _ => ['P', 'A', 'D', 'D']
  | .pdbl _ _ => ['P', 'D', 'B', 'L']
  | .peq _ _ => ['P', 'E', 'Q']
  | .j2a _ _ => ['J', '2', 'A']
  | .smul _ _ _ => ['S', 'M', 'U', 'L']
  | .smulO _ _ _ => ['S', 'M', 'U', 'L', '.', 'O']
  | .smulg _ _ => ['S', 'M', 'U', 'L', 'G']
  | .esign _ _ _ _ => ['E', 'S', 'I', 'G', 'N']
  | .everify _ _ _ => ['E', 'V', 'E', 'R', 'I', 'F', 'Y']

/-- The operands in the order RD, RS1, RS2, RS3, unused fields left out (R115). -/
def operandList (i : Instr) : List Reg :=
  match i with
  | .inv rd rs1 rs2 => [rd, rs1, rs2]
  | .mctx rs1 => [rs1]
  | .tomont rd rs1 => [rd, rs1]
  | .frommont rd rs1 => [rd, rs1]
  | .mmul rd rs1 rs2 => [rd, rs1, rs2]
  | .mpow rd rs1 rs2 => [rd, rs1, rs2]
  | .gfadd rd rs1 rs2 => [rd, rs1, rs2]
  | .gfmul rd rs1 rs2 => [rd, rs1, rs2]
  | .gfred rd rs1 rs2 => [rd, rs1, rs2]
  | .gfmulr rd rs1 rs2 rs3 => [rd, rs1, rs2, rs3]
  | .curve rs1 => [rs1]
  | .padd rd rs1 rs2 => [rd, rs1, rs2]
  | .pdbl rd rs1 => [rd, rs1]
  | .peq rs1 rs2 => [rs1, rs2]
  | .j2a rd rs1 => [rd, rs1]
  | .smul rd rs1 rs2 => [rd, rs1, rs2]
  | .smulO rd rs1 rs2 => [rd, rs1, rs2]
  | .smulg rd rs2 => [rd, rs2]
  | .esign rd rs1 rs2 rs3 => [rd, rs1, rs2, rs3]
  | .everify rs1 rs2 rs3 => [rs1, rs2, rs3]

/-- A command of each mnemonic, all operands V0, with the number of its operands. -/
def sampleInstrs : List Instr :=
  [.inv 0 0 0, .mctx 0, .tomont 0 0, .frommont 0 0, .mmul 0 0 0, .mpow 0 0 0, .gfadd 0 0 0, .gfmul 0 0 0, .gfred 0 0 0,
   .gfmulr 0 0 0 0, .curve 0, .padd 0 0 0, .pdbl 0 0, .peq 0 0, .j2a 0 0, .smul 0 0 0, .smulO 0 0 0, .smulg 0 0,
   .esign 0 0 0 0, .everify 0 0 0]

/-- The command with the given operands in the places of R115; none when there are too few or too many. -/
def withOperands (i : Instr) (ops : List Reg) : Option Instr :=
  match i, ops with
  | .inv _ _ _, [rd, rs1, rs2] => some (.inv rd rs1 rs2)
  | .mctx _, [rs1] => some (.mctx rs1)
  | .tomont _ _, [rd, rs1] => some (.tomont rd rs1)
  | .frommont _ _, [rd, rs1] => some (.frommont rd rs1)
  | .mmul _ _ _, [rd, rs1, rs2] => some (.mmul rd rs1 rs2)
  | .mpow _ _ _, [rd, rs1, rs2] => some (.mpow rd rs1 rs2)
  | .gfadd _ _ _, [rd, rs1, rs2] => some (.gfadd rd rs1 rs2)
  | .gfmul _ _ _, [rd, rs1, rs2] => some (.gfmul rd rs1 rs2)
  | .gfred _ _ _, [rd, rs1, rs2] => some (.gfred rd rs1 rs2)
  | .gfmulr _ _ _ _, [rd, rs1, rs2, rs3] => some (.gfmulr rd rs1 rs2 rs3)
  | .curve _, [rs1] => some (.curve rs1)
  | .padd _ _ _, [rd, rs1, rs2] => some (.padd rd rs1 rs2)
  | .pdbl _ _, [rd, rs1] => some (.pdbl rd rs1)
  | .peq _ _, [rs1, rs2] => some (.peq rs1 rs2)
  | .j2a _ _, [rd, rs1] => some (.j2a rd rs1)
  | .smul _ _ _, [rd, rs1, rs2] => some (.smul rd rs1 rs2)
  | .smulO _ _ _, [rd, rs1, rs2] => some (.smulO rd rs1 rs2)
  | .smulg _ _, [rd, rs2] => some (.smulg rd rs2)
  | .esign _ _ _ _, [rd, rs1, rs2, rs3] => some (.esign rd rs1 rs2 rs3)
  | .everify _ _ _, [rs1, rs2, rs3] => some (.everify rs1 rs2 rs3)
  | _, _ => none

/-- A register's text: `v0` to `v31` (R115). -/
def regChars (r : Reg) : List Char :=
  if r.val < 10 then ['v', Nat.digitChar r.val]
  else ['v', Nat.digitChar (r.val / 10), Nat.digitChar (r.val % 10)]

/-- The register a text names (R115). -/
def readReg (t : List Char) : Option Reg := (List.finRange 32).find? fun r => regChars r == t

/-- The operands' text: separated by a comma and a space (R115). -/
def operandChars : List Reg → List Char
  | [] => []
  | [r] => regChars r
  | r :: rest => regChars r ++ ',' :: ' ' :: operandChars rest

/-- A command's text: `MNEMONIC operands` (R115). -/
def asmText (i : Instr) : List Char := mnemonicChars i ++ ' ' :: operandChars (operandList i)

/-- Cut a text into words at spaces and commas; `cur` is the word read so far, backwards. -/
def wordsFrom : List Char → List Char → List (List Char)
  | cur, [] => if cur.isEmpty then [] else [cur.reverse]
  | cur, c :: rest =>
    if c == ' ' || c == ',' then (if cur.isEmpty then wordsFrom [] rest else cur.reverse :: wordsFrom [] rest)
    else wordsFrom (c :: cur) rest

/-- All registers of a list of texts. -/
def readRegs : List (List Char) → Option (List Reg)
  | [] => some []
  | t :: rest =>
    match readReg t, readRegs rest with
    | some r, some rs => some (r :: rs)
    | _, _ => none

/-- Read a command's text (R115): the mnemonic in any case, then its registers. -/
def assemble (text : List Char) : Option Instr :=
  match wordsFrom [] text with
  | [] => none
  | m :: ops =>
    match sampleInstrs.find? fun i => mnemonicChars i == m.map Char.toUpper with
    | none => none
    | some i =>
      match readRegs ops with
      | none => none
      | some rs => withOperands i rs

end Sys2Proof.Machine
end

