-- ==== Sys2Proof/Safety.lean ====
section
/-! DEFINITION. What counts as a safe run and what a run shows (70_reset_and_hazards.md R413, R414;
60_exceptions.md R356), and the invariant of the block's registers. -/

namespace Sys2Proof

open Machine

/-- A run as far as it has gone: the state and the fault recorded, if any (R356, R413; log 4). A fault ends the run in the
state that the step which met it started from. -/
structure Run where
  state : State
  fault : Option Fault
deriving DecidableEq, Repr

/-- A run that starts at a state: no fault is recorded (R414). -/
def Run.start (s : State) : Run := { state := s, fault := none }

/-- One step more of a run; none once a fault is recorded (R22, R356). -/
def Run.next (r : Run) : Run :=
  match r.fault with
  | some _ => r
  | none =>
    match step r.state with
    | .next t => { state := t, fault := none }
    | .fault f => { state := r.state, fault := some f }
    | .refused _ => r

/-- `k` steps more of a run. -/
def Run.steps : Nat → Run → Run
  | 0, r => r
  | k + 1, r => (r.next).steps k

/-- What a run shows at its end (R413): the V registers, the context registers, STATUS, CTRL and any fault recorded. -/
structure Observation where
  v      : List Nat
  curve  : CurveCtx
  mont   : MontCtx
  status : Word
  ctrl   : Word
  fault  : Option Fault
deriving DecidableEq, Repr

/-- The observation of a run (R413). -/
def observe (r : Run) : Observation :=
  { v := r.state.v.toList.map VReg.value, curve := r.state.curve, mont := r.state.mont, status := r.state.status.word,
    ctrl := r.state.ctrl.word, fault := r.fault }

/-- The host has performed its last access: however far its control flow goes on, to the program's end or round a loop
of jumps, it never stands at an access again (R413). -/
def LastAccessDone (h : HostAgent) : Prop := ∀ k, (h.controlSteps k).atAccess = false

/-- The host has performed its last access, BUSY = 0 and no fault is recorded (R413). -/
def Finished (r : Run) : Prop := LastAccessDone r.state.host ∧ r.state.status.busy = false ∧ r.fault = none

/-- The clean-entry premise (R414): no command in flight and no fault recorded; a state is given with its `written`
bits. -/
def CleanEntry (r : Run) : Prop := r.state.status.busy = false ∧ r.fault = none

/-- The host's duties on a curve descriptor, which CURVE does not check (R395): `p` an odd prime, `n` an odd prime and
the order of `G`, and a non-singular curve. No command's meaning assumes them. -/
def CurveDuties (c : CurveCtx) : Prop :=
  Nat.Prime c.p ∧ Nat.Prime c.n ∧ c.n % 2 = 1 ∧ (4 * c.a ^ 3 + 27 * c.b ^ 2) % c.p ≠ 0 ∧
    affMul c.p c.a c.n (.pt c.gx c.gy) = some .identity

/-- The host's duty on a public key given to EVERIFY: it lies in `<G>` (R395). -/
def KeyDuty (c : CurveCtx) (Q : Aff) : Prop := ∃ k, affMul c.p c.a k (.pt c.gx c.gy) = some Q

/-- `P` does not have even order (R295): no multiple of it is a point of order 2, one with `y = 0`, or an odd multiple of
it is the identity. -/
def OddOrder (p a : Nat) (P : Aff) : Prop :=
  (∀ bits x, multipleFrom (affAdd p a) p a P bits .identity ≠ some (.pt x 0)) ∨
    ∃ bits, multipleFrom (properAdd p a) p a P (bits ++ [true]) .identity = some .identity

/-- A reduced triple stands for an affine point with `y ≠ 0`, or is infinite for the identity or a point of order 2, which
the block reads as the identity (R245, R265). -/
def StandsFor (p : Nat) (T : Jac) : Aff → Prop
  | .identity => T.isInf = true
  | .pt x y => if y = 0 then T.isInf = true else
      T.isInf = false ∧ ∃ zi, invMod T.z p = some zi ∧ affineOf p T zi = (x, y)

/-- An affine point satisfies the curve equation, as the identity does (R224). -/
def AffOnCurve (p a b : Nat) : Aff → Prop
  | .identity => True
  | .pt x y => onCurve x y p a b = true

/-- A step is safe when it ends in a next state: a fault says nothing of the hardware (R356). -/
def SafeStep (s : State) : Prop := ∃ t, step s = .next t

/-- Every V register holds a value below `2^W`, and no `written` bit past word `W/32 - 1` is set (R30, R31, R73). -/
def RegsOk (s : State) : Prop :=
  ∀ i : Reg, s.reg i < 2 ^ s.params.width ∧ s.v[i].written.toNat < 2 ^ wordCount s.params

/-- CTRL.NAFW holds a legal window width (R37). -/
def CtrlOk (s : State) : Prop := 2 ≤ s.ctrl.nafw.toNat ∧ s.ctrl.nafw.toNat ≤ 8

/-- ECODE holds a code of R352 and ERR = 1 exactly when it is not 0 (R38); while a command is in flight DONE, ERR,
ECODE and the result flags are 0 (R112, R50). -/
def StatusOk (t : Status) : Prop :=
  legalEcode t.ecode = true ∧ (t.err = true ↔ t.ecode ≠ 0) ∧
    (t.busy = true → t.done = false ∧ t.err = false ∧ t.eq = false ∧ t.valid = false ∧ t.inf = false ∧ t.vrange = false)

/-- With MCTXV = 1 the Montgomery context is that of an odd modulus (R160, R161); with MCTXV = 0 it is 0 (R44). -/
def MontOk (s : State) : Prop :=
  (s.status.mctxv = false → s.mont = MontCtx.reset) ∧
    (s.status.mctxv = true →
      s.mont.n % 2 = 1 ∧ s.mont.n < 2 ^ s.params.width ∧ s.mont.bl ≤ s.params.width ∧ s.mont.n < 2 ^ s.mont.bl ∧
        s.mont.r2 = 2 ^ s.mont.bl * 2 ^ s.mont.bl % s.mont.n ∧ s.mont.rinv < s.mont.n ∧
        2 ^ s.mont.bl * s.mont.rinv % s.mont.n = 1 % s.mont.n)

/-- With CURVEV = 1 the curve context passed CURVE's checks and GTAB is its table (R221 to R223, R111); with
CURVEV = 0 it is 0 and GTAB empty (R41, R47). GTABV is CURVEV. -/
def CurveOk (s : State) : Prop :=
  s.status.gtabv = s.status.curvev ∧
    (s.status.curvev = false → s.curve = CurveCtx.reset ∧ s.gtab = []) ∧
    (s.status.curvev = true →
      s.curve.p % 2 = 1 ∧ 5 ≤ s.curve.p ∧ s.curve.p < 2 ^ s.params.width ∧ s.curve.a < s.curve.p ∧
        s.curve.b < s.curve.p ∧ s.curve.h < 2 ^ s.params.width ∧ s.curve.gx < s.curve.p ∧ s.curve.gy < s.curve.p ∧
        s.curve.gy ≠ 0 ∧ onCurve s.curve.gx s.curve.gy s.curve.p s.curve.a s.curve.b = true ∧
        2 ≤ s.curve.n ∧ s.curve.n < 2 ^ s.params.width ∧ s.gtab = buildTable s.curve.p s.curve.a s.curve.gx s.curve.gy s.curve.n)

/-- The conditions under which a command reaches its own rule (R113): its spans fit, its context is valid, and every word of
its source spans is written. -/
def Ready (s : State) (i : Instr) : Prop :=
  i.wf = true ∧ s.contextValid (contextOf i) = true ∧ s.sourcesWritten i = true

/-- STATUS after a completion that sets no flag (R113). -/
def doneStatus (s : State) : Status := { s.status with busy := false, done := true }

/-- From `s` to `t` nothing changed but STATUS, which became `st`, and the registers `rs`, whose every word is now
written. -/
def OnlyRegs (rs : List Reg) (st : Status) (s t : State) : Prop :=
  t = { s with v := t.v, status := st } ∧ (∀ r : Reg, r ∉ rs → t.v[r] = s.v[r]) ∧ ∀ r ∈ rs, t.regWritten r = true

/-- The command completes with the error code `c` and changes nothing else (R350, R351). -/
def ErrorsWith (i : Instr) (s : State) (c : BitVec 4) : Prop :=
  exec i s = .next { s with status := { s.status with busy := false, done := true, err := true, ecode := c } }

/-- STATUS carries no outcome: the flags, ERR and ECODE are 0, as acceptance leaves them (R112, R50). -/
def NoResult (t : Status) : Prop :=
  t.err = false ∧ t.ecode = 0 ∧ t.eq = false ∧ t.valid = false ∧ t.inf = false ∧ t.vrange = false

/-- The command completes in the way R244 leaves open (item 18 of file 93; log 8): with an error of one of the codes `cs`
and no register written, or with a write of the registers `rs` and nothing else but STATUS. -/
def OpenOutcome (i : Instr) (s : State) (cs : List (BitVec 4)) (rs : List Reg) : Prop :=
  ∃ t, exec i s = .next t ∧ t = { s with v := t.v, status := t.status, draws := t.draws } ∧
    ((∃ c ∈ cs, t.v = s.v ∧ t.status = { doneStatus s with err := true, ecode := c }) ∨
      ((∀ r : Reg, r ∉ rs → t.v[r] = s.v[r]) ∧ (∀ r ∈ rs, t.regWritten r = true ∧ t.reg r < 2 ^ s.params.width) ∧
        t.status = { doneStatus s with inf := t.status.inf }))

/-- The three registers of a point operand hold a triple's coordinates. -/
def HoldsPoint (t : State) (rd : Reg) (j : Jac) : Prop :=
  t.reg rd = j.x ∧ t.reg (spanReg rd 1) = j.y ∧ t.reg (spanReg rd 2) = j.z

/-- An outcome with its next state changed by `f`. -/
def mapNext (f : State → State) : Host.Outcome State Fault Refusal → Host.Outcome State Fault Refusal
  | .next t => .next (f t)
  | .fault x => .fault x
  | .refused r => .refused r

/-- The invariant every step keeps. -/
def Inv (s : State) : Prop :=
  s.params.legal = true ∧ RegsOk s ∧ CtrlOk s ∧ StatusOk s.status ∧ MontOk s ∧ CurveOk s

end Sys2Proof
end

