-- ==== Sys2Proof/Certificates/Slice0/Obligations.lean ====
section
/-! DEFINITION. The statements for the provers. Each docstring names the rules of spec/ it formalises. -/

open Sys2Proof Sys2Proof.Machine

/-! ### Encoding -/

/-- R101, R105, R110: decoding a well-formed command's word gives the command back. -/
def Obligations.DecodeEncodeRoundTrip : Prop :=
  ∀ i : Instr, i.wf = true → decode (encode i) = .ok i

/-- R106 to R108, R110: a word is legal exactly when it is the word of a well-formed command, the one it decodes to. -/
def Obligations.LegalWordsAreEncodings : Prop :=
  ∀ (w : Word) (i : Instr), decode w = .ok i ↔ i.wf = true ∧ encode i = w

/-- R107: every OP value outside R104's table is illegal. -/
def Obligations.UnassignedOpcodesRefused : Prop :=
  ∀ w : Word,
    w.toNat / 2 ^ 26 ∉ [0x01, 0x04, 0x05, 0x06, 0x07, 0x08, 0x0C, 0x0D, 0x0E, 0x0F, 0x10, 0x14, 0x15, 0x16, 0x18, 0x1C,
      0x1D, 0x20, 0x21] →
    decode w = .error .unassignedOpcode

/-- R115, R117 and the encodings of 95_test_vectors.md: one word of each family decodes to the command it stands for. -/
def Obligations.SpecWordsDecode : Prop :=
  decode 0x04400800 = .ok (.inv 2 0 1) ∧ decode 0x10000000 = .ok (.mctx 0) ∧ decode 0x1C611000 = .ok (.mmul 3 1 2) ∧
    decode 0x3C600880 = .ok (.gfmulr 3 0 1 2) ∧ decode 0x40140000 = .ok (.curve 20) ∧
    decode 0x50C01800 = .ok (.padd 6 0 3) ∧ decode 0x71A06001 = .ok (.smulO 13 0 12) ∧
    decode 0x814110C0 = .ok (.esign 10 1 2 3) ∧ decode 0x84041280 = .ok (.everify 4 2 10) ∧
    decode 0x53C01800 = .error .spanOverflow ∧ decode 0x10220000 = .error .reservedField

/-- R115: a command's text, with its mnemonic in capitals or in small letters, reads back as the command. -/
def Obligations.AssemblerReadsItsText : Prop :=
  ∀ i : Instr, assemble (asmText i) = some i ∧
    assemble ((mnemonicChars i).map Char.toLower ++ ' ' :: operandChars (operandList i)) = some i

/-! ### Issue, the agents, the window -/

/-- R112, R81: a CMD write is accepted when idle, and ignored with OVERRUN when a command is in flight. -/
def Obligations.CmdWriteIssuesOrOverruns : Prop :=
  ∀ (s : State) (w : Word),
    (s.status.busy = false → s.memWrite 0x0010 4 w = some
      { s with
        cmd := w
        status := { s.status with busy := true, done := false, err := false, ecode := 0, eq := false, valid := false,
                                  inf := false, vrange := false } }) ∧
    (s.status.busy = true → s.memWrite 0x0010 4 w = some { s with status := { s.status with overrun := true } })

/-- R113: on the core's turn with a legal command in flight, a step is the meaning of that command, with the turn
taken off the schedule. -/
def Obligations.StepRunsDecodedCommand : Prop :=
  ∀ (s : State) (i : Instr), s.nextTurn = .core → s.status.busy = true → decode s.cmd = .ok i →
    step s = exec i { s with schedule := s.schedule.tail }

/-- R109: an illegal word is accepted like any other; in flight it completes with error 1 and changes nothing else. -/
def Obligations.IllegalWordCompletesWithError : Prop :=
  ∀ s : State,
    (∀ (w : Word) (e : Illegal), s.status.busy = false → decode w = .error e →
      ∃ t, s.memWrite 0x0010 4 w = some t ∧ t.status.busy = true ∧ t.cmd = w) ∧
    ∀ e : Illegal, s.nextTurn = .core → s.status.busy = true → decode s.cmd = .error e →
      step s = .next
        { s with
          schedule := s.schedule.tail
          status := { s.status with busy := false, done := true, err := true, ecode := 1 } }

/-- R112, R113: a command word placed as in flight is what the next step runs. -/
def Obligations.PlacedWordRunsNext : Prop :=
  ∀ (s : State) (w : Word) (i : Instr), decode w = .ok i →
    step (s.withFetchWord 32 w.toNat) = exec i (s.accept w)

/-- R74, R43: with no command in flight, word `j` of a context register is read as bits `[32j+31 : 32j]`, and 0 past
word `W/32 - 1`, and MBL reads M.BL's low 16 bits; writes to both are ignored and set nothing, OVERRUN included, whether
or not a command is in flight (R81, R83). -/
def Obligations.ContextWindowReads : Prop :=
  ∀ (s : State) (j : Nat) (c : Fin 10) (w : Word), j < 32 →
    (s.status.busy = false →
      s.memRead (0x2000 + 0x80 * c.val + 4 * j) 4 =
        some (if j < s.params.width / 32 then BitVec.ofNat 32 (s.contextReg c / 2 ^ (32 * j)) else 0, s) ∧
      s.memRead 0x0014 4 = some (BitVec.ofNat 32 (s.mont.bl % 2 ^ 16), s)) ∧
    s.memWrite (0x2000 + 0x80 * c.val + 4 * j) 4 w = some s ∧ s.memWrite 0x0014 4 w = some s

/-- R34, R35, R81: ID, PARAM, CTRL, STATUS and CMD read as their current value whether or not a command is in flight;
PARAM holds W, NREG and the MONT_GRAN code at their places; writes to ID and PARAM are ignored. -/
def Obligations.FixedRegistersRead : Prop :=
  ∀ s : State,
    (∀ w : Word, s.memWrite 0x0000 4 w = some s ∧ s.memWrite 0x0004 4 w = some s) ∧
    s.memRead 0x0000 4 = some (0x45430100, s) ∧ s.memRead 0x0008 4 = some (s.ctrl.word, s) ∧
      s.memRead 0x000C 4 = some (s.status.word, s) ∧ s.memRead 0x0010 4 = some (s.cmd, s) ∧
      (s.params.legal = true → ∃ w : Word, s.memRead 0x0004 4 = some (w, s) ∧ w.toNat % 2 ^ 11 = s.params.width ∧
        w.toNat / 2 ^ 11 % 2 ^ 5 = 0 ∧ w.toNat / 2 ^ 16 % 2 ^ 6 = 32 ∧
        w.toNat / 2 ^ 22 % 2 ^ 2 = (if s.params.montGran = 64 then 1 else 0) ∧ w.toNat / 2 ^ 24 = 0)

/-- R78: an aligned 32-bit access to a reserved offset reads 0 and writes nothing. -/
def Obligations.ReservedOffsetsInert : Prop :=
  ∀ (s : State) (off : Nat) (w : Word), off % 4 = 0 →
    (0x0018 ≤ off ∧ off < 0x1000) ∨ (0x2500 ≤ off ∧ off < 0x4000) →
    s.memRead off 4 = some (0, s) ∧ s.memWrite off 4 w = some s

/-- R76, R77, R82, R83: a host access of another width than 32 bits, misaligned, or outside the window stops with
AccessFault. -/
def Obligations.BadAccessStops : Prop :=
  ∀ (s : State) (off size : Nat) (w : Word), size ≠ 4 ∨ off % 4 ≠ 0 ∨ 0x4000 ≤ off →
    s.runLine (.memRead (s.params.base + off) size) = .fault (.accessFault off size) ∧
      s.runLine (.memWrite (s.params.base + off) size w) = .fault (.accessFault off size)

/-- R81: while a command is in flight a read of the V or context window is a draw that changes nothing else, and so is
MBL while that command is MCTX, else its current value; a write to the V window or to CMD is ignored and sets OVERRUN.
(The words past `W/32 - 1` are in the window: log 9.) -/
def Obligations.BusyAccessDrawsAndOverruns : Prop :=
  ∀ (s : State) (off : Nat) (w : Word), s.status.busy = true → off % 4 = 0 →
    (0x1000 ≤ off ∧ off < 0x2500 →
      s.memRead off 4 = some (BitVec.ofNat 32 (Config.draw s.draws), { s with draws := s.draws + 1 })) ∧
    (s.memRead 0x0014 4 =
      if s.cmd.toNat / 2 ^ 26 = 0x04 then
        some (BitVec.ofNat 32 (Config.draw s.draws), { s with draws := s.draws + 1 })
      else some (BitVec.ofNat 32 (s.mont.bl % 2 ^ 16), s)) ∧
    ((0x1000 ≤ off ∧ off < 0x2000) ∨ off = 0x0010 →
      s.memWrite off 4 w = some { s with status := { s.status with overrun := true } })

/-- R73: with no command in flight, word `j` of a V register is read as bits `[32j+31 : 32j]`. A word written reads
back, becomes written, and every other word of every register stays as it was. Words past `W/32 - 1` read 0 and ignore
writes. -/
def Obligations.RegisterWindowWords : Prop :=
  ∀ (s : State) (i : Reg) (j : Nat) (w : Word), Inv s → s.status.busy = false → j < 32 →
    s.memRead (0x1000 + 0x80 * i.val + 4 * j) 4 =
      some (if j < s.params.width / 32 then BitVec.ofNat 32 (s.reg i / 2 ^ (32 * j)) else 0, s) ∧
    (j < s.params.width / 32 → ∃ t, s.memWrite (0x1000 + 0x80 * i.val + 4 * j) 4 w = some t ∧
      t.memRead (0x1000 + 0x80 * i.val + 4 * j) 4 = some (w, t) ∧ t = { s with v := t.v } ∧
      t.v[i].written.getLsbD j = true ∧
      (∀ k : Nat, k ≠ j → wordOf (t.reg i) k = wordOf (s.reg i) k ∧ t.v[i].written.getLsbD k = s.v[i].written.getLsbD k) ∧
      ∀ r : Reg, r ≠ i → t.v[r] = s.v[r]) ∧
    (s.params.width / 32 ≤ j → s.memWrite (0x1000 + 0x80 * i.val + 4 * j) 4 w = some s)

/-- R75: byte `t` of a register is byte lane `t mod 4` of its word `t div 4`. -/
def Obligations.RegisterBytesLittleEndian : Prop :=
  ∀ x t : Nat, registerByte x t = byteLane (wordOf x (t / 4)) (t % 4)

/-- R38: STATUS's fields stand at their bits and bits [31:15] read 0. -/
def Obligations.StatusWordLayout : Prop :=
  ∀ t : Status,
    t.word.getLsbD 0 = t.busy ∧ t.word.getLsbD 1 = t.done ∧ t.word.getLsbD 2 = t.err ∧ t.word.getLsbD 3 = t.overrun ∧
      t.word.toNat / 2 ^ 4 % 2 ^ 4 = t.ecode.toNat ∧ t.word.getLsbD 8 = t.eq ∧ t.word.getLsbD 9 = t.valid ∧
      t.word.getLsbD 10 = t.inf ∧ t.word.getLsbD 11 = t.vrange ∧ t.word.getLsbD 12 = t.mctxv ∧
      t.word.getLsbD 13 = t.curvev ∧ t.word.getLsbD 14 = t.gtabv ∧ t.word.toNat / 2 ^ 15 = 0

/-- R36, R37, R39: a STATUS write clears DONE by bit 1 and OVERRUN by bit 3 and nothing else; a CTRL write with
SRST = 0 stores IE, stores NAFW when it is 2 to 8 and else leaves it; both whether or not a command is in flight. -/
def Obligations.StatusAndCtrlWrites : Prop :=
  ∀ (s : State) (w : Word),
    (s.memWrite 0x000C 4 w = some
      { s with status :=
          { s.status with
            done := if w.getLsbD 1 then false else s.status.done
            overrun := if w.getLsbD 3 then false else s.status.overrun } }) ∧
    (w.getLsbD 0 = false → ∃ c : Ctrl, s.memWrite 0x0008 4 w = some { s with ctrl := c } ∧ c.ie = w.getLsbD 1 ∧
      (2 ≤ w.toNat / 2 ^ 4 % 16 ∧ w.toNat / 2 ^ 4 % 16 ≤ 8 → c.nafw.toNat = w.toNat / 2 ^ 4 % 16) ∧
      (w.toNat / 2 ^ 4 % 16 < 2 ∨ 8 < w.toNat / 2 ^ 4 % 16 → c.nafw = s.ctrl.nafw))

/-! ### Reset and the interrupt -/

/-- R391, R392: a CTRL write with SRST = 1 resets everything but the V registers and their `written` bits; a command in
flight then is as if it had never been accepted. -/
def Obligations.SoftResetKeepsOperands : Prop :=
  ∀ (s : State) (w : Word), w.getLsbD 0 = true →
    s.memWrite 0x0008 4 w = some
      { s with
        ctrl := { ie := false, nafw := 4 }
        status := Status.reset
        cmd := 0
        curve := CurveCtx.reset
        mont := MontCtx.reset
        gtab := [] } ∧
    ∀ c : Word, (s.accept c).memWrite 0x0008 4 w = s.memWrite 0x0008 4 w

/-- R390: hard reset leaves every register word unwritten with a W-bit value, every control and context register at its
reset value, GTAB empty and IRQ low, whatever was in flight. -/
def Obligations.HardResetClears : Prop :=
  ∀ s : State, s.nextTurn = .hardReset → ∃ t, step s = .next t ∧
    (∀ i : Reg, t.v[i].written = 0 ∧ t.reg i < 2 ^ s.params.width) ∧ t.ctrl.word = 0x40 ∧ t.status.word = 0 ∧
    t.cmd = 0 ∧ t.curve = ⟨0, 0, 0, 0, 0, 0, 0⟩ ∧ t.mont = ⟨0, 0, 0, 0⟩ ∧ t.gtab = [] ∧ t.irq = false ∧
    t.params = s.params ∧ t.host = s.host ∧ t.schedule = s.schedule.tail

/-- R51: the reset values the spec gives (the values of V0 to V31 are the model's choice, log 1, and not stated). -/
def Obligations.ResetStateValues : Prop :=
  (∀ i : Reg, State.reset.v[i].written = 0) ∧ State.reset.ctrl.word = 0x40 ∧ State.reset.status.word = 0 ∧
    State.reset.cmd = 0 ∧ State.reset.curve = ⟨0, 0, 0, 0, 0, 0, 0⟩ ∧ State.reset.mont = ⟨0, 0, 0, 0⟩ ∧
    State.reset.gtab = [] ∧ State.reset.irq = false ∧ (State.reset.memRead 0x0000 4).map Prod.fst = some 0x45430100 ∧
    (State.reset.memRead 0x0004 4).map Prod.fst = some 0x00600240 ∧ State.reset.params.width = 576 ∧
    State.reset.params.montGran = 64 ∧ State.reset.params.jacRepr = .exact

/-- R360, R49: IRQ is DONE AND IE: every completion raises it exactly when IE = 1; acceptance, a DONE clear and both
resets lower it; it goes to the line IRQ_LINE. -/
def Obligations.IrqFollowsDoneAndIe : Prop :=
  ∀ s : State,
    s.irqOutput = (s.params.irqLine, s.status.done && s.ctrl.ie) ∧ s.softReset.irq = false ∧ s.hardReset.irq = false ∧
    (∀ (i : Instr) (t : State), exec i s = .next t → t.irq = s.ctrl.ie) ∧ (∀ w : Word, (s.accept w).irq = false) ∧
    (∀ (w : Word) (t : State), w.getLsbD 1 = true → s.memWrite 0x000C 4 w = some t → t.irq = false) ∧
    (∀ (w : Word) (t : State), w.getLsbD 0 = false → s.memWrite 0x0008 4 w = some t →
      t.irq = (s.status.done && w.getLsbD 1))

/-- R116, R80: the host pseudo-instruction LI writes the W-bit value in `W/32` host steps and leaves every other
register as it was. -/
def Obligations.LiLoadsRegister : Prop :=
  ∀ (s : State) (n : Reg) (imm : Nat), Inv s → s.status.busy = false → s.schedule = [] →
    s.host.prog[s.host.pc]? = some (.li n imm) → s.host.word = 0 → imm < 2 ^ s.params.width →
    ∃ t : State, Host.Core.run Sys2Proof.core (s.params.width / 32) s = .next t ∧ t.reg n = imm ∧ t.regWritten n = true ∧
      (∀ r : Reg, r ≠ n → t.v[r] = s.v[r]) ∧ t = { s with v := t.v, host := { s.host with pc := s.host.pc + 1 } }

/-- R412, R11: a command in flight ends after finitely many steps: after the `k` host steps its latency is, the core's step
completes it, or it reads an unwritten word and the model stops there (R113). -/
def Obligations.CompletionAfterLatency : Prop :=
  ∀ (k : Nat) (s : State), s.status.busy = true → s.schedule = List.replicate k .host →
    s.host.prog.length ≤ s.host.pc →
    ((∃ t : State, Host.Core.run Sys2Proof.core (k + 1) s = .next t ∧ t.status.busy = false ∧ t.status.done = true) ↔
      ∀ i : Instr, decode s.cmd = .ok i → s.readsUnwritten i = false) ∧
    ∀ i : Instr, decode s.cmd = .ok i → s.readsUnwritten i = true →
      Host.Core.run Sys2Proof.core (k + 1) s = .fault Fault.unwrittenOperand

/-! ### Every command -/

/-- R111: a Montgomery command without MCTXV, and a point, scalar or ECDSA command without CURVEV, completes with
error 10 whatever its operands hold. -/
def Obligations.MissingContextErrors : Prop :=
  ∀ (i : Instr) (s : State), i.wf = true →
    (i.op ∈ [.tomont, .frommont, .mmul, .mpow] → s.status.mctxv = false → ErrorsWith i s 10) ∧
    (i.op ∈ [.padd, .pdbl, .peq, .j2a, .smul, .smulg, .esign, .everify] → s.status.curvev = false → ErrorsWith i s 10)

/-- R22, R31, R113, R353, R396: a command stops the model with UnwrittenOperand exactly when it is legal, has its context and
some word of one of its source spans was never written, before any check of its own. No other fault and no refusal comes from a
command, and the run that meets the fault records it and moves no more (R356, R413; the run's record: log 4). -/
def Obligations.UnwrittenReadFaults : Prop :=
  (∀ (i : Instr) (s : State),
    (exec i s = .fault .unwrittenOperand ↔
      i.wf = true ∧ s.contextValid (contextOf i) = true ∧
        ∃ x ∈ sourceSpans i, ∃ k < x.2, s.regWritten (spanReg x.1 k) = false) ∧
    (∀ f : Fault, exec i s = .fault f → f = .unwrittenOperand) ∧ ∀ r : Refusal, exec i s ≠ .refused r) ∧
  ∀ (s : State) (f : Fault) (k : Nat), step s = .fault f → (Run.start s).steps (k + 1) = { state := s, fault := some f }

/-- R350: every command on every state ends in exactly one of three outcomes. A command that reads an unwritten word, legal and
with its context, stops with the model fault; every other one completes (BUSY = 0, DONE = 1): with success, ERR and ECODE as
they were, or with an error and a code of R352. -/
def Obligations.CommandOutcomes : Prop :=
  ∀ (i : Instr) (s : State),
    (s.readsUnwritten i = true → exec i s = .fault .unwrittenOperand) ∧
    (s.readsUnwritten i = false →
      ∃ t, exec i s = .next t ∧ t.status.busy = false ∧ t.status.done = true ∧
        ((t.status.err = s.status.err ∧ t.status.ecode = s.status.ecode) ∨
          (t.status.err = true ∧ t.status.ecode ∈ [(1 : BitVec 4), 2, 4, 5, 8, 9, 10])))

/-- R350, R352: an error is precise: nothing but STATUS (and the model's count of draws) changes, no
result flag is set, and the code is one of R352's. -/
def Obligations.ErrorsArePrecise : Prop :=
  ∀ (i : Instr) (s t : State), exec i s = .next t → s.status.err = false → t.status.err = true →
    t = { s with
          status := { s.status with busy := false, done := true, err := true, ecode := t.status.ecode }
          draws := t.draws } ∧
      t.status.ecode ∈ [(1 : BitVec 4), 2, 4, 5, 8, 9, 10]

/-- R105, R113: a command that completes leaves every V register outside its destination span as it was, and the
parameters, CTRL, CMD, OVERRUN, the host and the schedule. -/
def Obligations.CommandRegisterFrame : Prop :=
  ∀ (i : Instr) (s t : State), exec i s = .next t →
    (∀ r : Reg, (∀ rd n, destSpan i = some (rd, n) → r ∉ spanRegs rd n) → t.v[r] = s.v[r]) ∧
      t.params = s.params ∧ t.ctrl = s.ctrl ∧ t.cmd = s.cmd ∧ t.status.overrun = s.status.overrun ∧ t.host = s.host ∧
      t.schedule = s.schedule

/-- R38, R50: only PEQ changes EQ, only EVERIFY changes VALID and VRANGE, only the point-writing commands change INF. -/
def Obligations.CommandFlagFrame : Prop :=
  ∀ (i : Instr) (s t : State), exec i s = .next t →
    (i.op ≠ .peq → t.status.eq = s.status.eq) ∧
    (i.op ≠ .everify → t.status.valid = s.status.valid ∧ t.status.vrange = s.status.vrange) ∧
    (i.op ∉ [.padd, .pdbl, .j2a, .smul, .smulg] → t.status.inf = s.status.inf)

/-- R41, R44, R47: among the commands only MCTX writes the Montgomery context, and only CURVE the curve context and
the generator table. -/
def Obligations.ContextWriters : Prop :=
  ∀ (i : Instr) (s t : State), exec i s = .next t →
    (i.op ≠ .mctx → t.mont = s.mont ∧ t.status.mctxv = s.status.mctxv) ∧
    (i.op ≠ .curve →
      t.curve = s.curve ∧ t.gtab = s.gtab ∧ t.status.curvev = s.status.curvev ∧ t.status.gtabv = s.status.gtabv)

/-- R37: no value any command writes depends on NAFW: another window width changes nothing but its own read-back. -/
def Obligations.NafWidthNeverMatters : Prop :=
  ∀ (i : Instr) (s : State) (w : BitVec 4),
    exec i { s with ctrl := { s.ctrl with nafw := w } } =
      mapNext (fun t => { t with ctrl := { t.ctrl with nafw := w } }) (exec i s)

/-- R50, R47, R221, R223: no command reads CTRL, a flag or another STATUS field but the context bits, CMD, the
generator table or the cofactor: with all of these changed it writes the same V registers, Montgomery context, curve
context but the cofactor, and context bits. Where the flags and the error of both states are cleared, as acceptance leaves
them (R112), ERR, ECODE and every flag come out the same too, and a successful CURVE leaves the same cofactor and table. -/
def Obligations.UnreadStateNeverMatters : Prop :=
  ∀ (i : Instr) (s t : State) (c : Ctrl) (st : Status) (w : Word) (g : List (Option Aff)) (h : Nat),
    exec i s = .next t → st.mctxv = s.status.mctxv → st.curvev = s.status.curvev →
    ∃ u, exec i { s with ctrl := c, status := st, cmd := w, gtab := g, curve := { s.curve with h := h } } = .next u ∧
      u.v = t.v ∧ u.mont = t.mont ∧ u.draws = t.draws ∧ { u.curve with h := 0 } = { t.curve with h := 0 } ∧
      u.status.mctxv = t.status.mctxv ∧ u.status.curvev = t.status.curvev ∧
      (NoResult s.status → NoResult st →
        u.status.err = t.status.err ∧ u.status.ecode = t.status.ecode ∧ u.status.eq = t.status.eq ∧
        u.status.valid = t.status.valid ∧ u.status.inf = t.status.inf ∧ u.status.vrange = t.status.vrange ∧
        (i.op = .curve → t.status.err = false →
          u.curve = t.curve ∧ u.gtab = t.gtab ∧ u.status.gtabv = t.status.gtabv))

/-! ### Invariants -/

/-- R51, R38: the invariant holds right after reset. -/
def Obligations.InvariantAtReset : Prop := Inv State.reset

/-- R30, R31, R37, R38, R352, R44, R41, R47: every step of every agent keeps the invariant: W-bit registers, a legal
NAFW, a legal STATUS, a Montgomery context of an odd modulus, a checked curve context with its table. -/
def Obligations.StepKeepsInvariant : Prop := ∀ s t : State, Inv s → step s = .next t → Inv t

/-! ### The modular inverse -/

/-- R140, R142: `InvMod` is the unique inverse in `[0, m)`, 0 for `a = 0`, and NotInvertible when there is none. -/
def Obligations.InvModIsInverse : Prop :=
  ∀ a m : Nat, 1 ≤ m →
    (a = 0 → invMod a m = some 0) ∧ (a ≠ 0 → Nat.gcd (a % m) m ≠ 1 → invMod a m = none) ∧
    (a ≠ 0 → Nat.gcd (a % m) m = 1 → ∃ x, invMod a m = some x ∧ x < m ∧ a % m * x % m = 1 % m ∧
      ∀ y, y < m → a % m * y % m = 1 % m → y = x)

/-- R141: INV writes the inverse, 0 for `a = 0`; error 2 for `m = 0`; error 9 where there is no inverse. -/
def Obligations.InvResult : Prop :=
  ∀ (s : State) (rd a m : Reg), RegsOk s → Ready s (.inv rd a m) →
    (s.reg m = 0 → ErrorsWith (.inv rd a m) s 2) ∧
    (s.reg m ≠ 0 → s.reg a ≠ 0 → Nat.gcd (s.reg a % s.reg m) (s.reg m) ≠ 1 → ErrorsWith (.inv rd a m) s 9) ∧
    (s.reg m ≠ 0 → s.reg a = 0 ∨ Nat.gcd (s.reg a % s.reg m) (s.reg m) = 1 →
      ∃ t, exec (.inv rd a m) s = .next t ∧ OnlyRegs [rd] (doneStatus s) s t ∧ (s.reg a = 0 → t.reg rd = 0) ∧
        (s.reg a ≠ 0 → t.reg rd < s.reg m ∧ s.reg a % s.reg m * t.reg rd % s.reg m = 1 % s.reg m))

/-! ### Montgomery arithmetic -/

/-- R160, R161: MCTX builds the context of an odd modulus and refuses an even one with error 2. -/
def Obligations.MctxResult : Prop :=
  ∀ (s : State) (n : Reg), Inv s → Ready s (.mctx n) →
    (s.reg n % 2 = 0 → ErrorsWith (.mctx n) s 2) ∧
    (s.reg n % 2 = 1 → ∃ t, exec (.mctx n) s = .next t ∧
      t = { s with mont := t.mont, status := { doneStatus s with mctxv := true } } ∧ t.mont.n = s.reg n ∧
      t.mont.bl % s.params.montGran = 0 ∧ bitlen (s.reg n) ≤ t.mont.bl ∧
      t.mont.bl < bitlen (s.reg n) + s.params.montGran ∧ t.mont.bl ≤ s.params.width ∧
      t.mont.r2 = 2 ^ t.mont.bl * 2 ^ t.mont.bl % s.reg n ∧ t.mont.rinv < s.reg n ∧
      t.mont.r2 * t.mont.rinv % s.reg n = 2 ^ t.mont.bl % s.reg n ∧
      2 ^ t.mont.bl % s.reg n * t.mont.rinv % s.reg n = 1 % s.reg n)

/-- R162 to R164: TOMONT writes `a·R mod N`, FROMMONT `a·R^-1 mod N`, MMUL `a·b·R^-1 mod N`, and nothing else; all
three need MCTXV. -/
def Obligations.MontgomeryResults : Prop :=
  ∀ (s : State) (rd a b : Reg), Inv s →
    (s.status.mctxv = false →
      ErrorsWith (.tomont rd a) s 10 ∧ ErrorsWith (.frommont rd a) s 10 ∧ ErrorsWith (.mmul rd a b) s 10) ∧
    (Ready s (.tomont rd a) → ∃ t, exec (.tomont rd a) s = .next t ∧ OnlyRegs [rd] (doneStatus s) s t ∧
      t.reg rd = s.reg a * 2 ^ s.mont.bl % s.mont.n) ∧
    (Ready s (.frommont rd a) → ∃ t, exec (.frommont rd a) s = .next t ∧ OnlyRegs [rd] (doneStatus s) s t ∧
      t.reg rd = s.reg a * s.mont.rinv % s.mont.n) ∧
    (Ready s (.mmul rd a b) → ∃ t, exec (.mmul rd a b) s = .next t ∧ OnlyRegs [rd] (doneStatus s) s t ∧
      t.reg rd = s.reg a * s.reg b * s.mont.rinv % s.mont.n)

/-- R165: MPOW writes the Montgomery form of the base's plain value to the plain exponent; it needs MCTXV. -/
def Obligations.MpowResult : Prop :=
  ∀ (s : State) (rd x e : Reg), Inv s →
    (s.status.mctxv = false → ErrorsWith (.mpow rd x e) s 10) ∧
    (Ready s (.mpow rd x e) → ∃ t, exec (.mpow rd x e) s = .next t ∧ OnlyRegs [rd] (doneStatus s) s t ∧
      t.reg rd = (s.reg x * s.mont.rinv % s.mont.n) ^ s.reg e % s.mont.n * 2 ^ s.mont.bl % s.mont.n)

/-- R166: converting in, multiplying or raising to a power, and converting out is plain modular arithmetic. -/
def Obligations.MontgomeryLaws : Prop :=
  ∀ s : State, Inv s → s.status.mctxv = true → ∀ a b e : Nat,
    montOut s.mont (montIn s.mont a) = a % s.mont.n ∧
      montOut s.mont (montMul s.mont (montIn s.mont a) (montIn s.mont b)) = a * b % s.mont.n ∧
      montOut s.mont (montPow s.mont (montIn s.mont a) e) = a ^ e % s.mont.n

/-! ### Binary fields -/

/-- R19, R191: bit `k` of the carry-less product is the parity of the pairs of set bits whose places add to `k`, and
the product of two `n`-bit polynomials has at most `2n - 1` bits. -/
def Obligations.ClmulIsCarrylessProduct : Prop :=
  ∀ u v : Nat,
    (∀ k, (clmul u v).testBit k =
      ((List.range (k + 1)).countP (fun i => u.testBit i && v.testBit (k - i)) % 2 == 1)) ∧
    ∀ n, 0 < n → u < 2 ^ n → v < 2 ^ n → clmul u v < 2 ^ (2 * n - 1)

/-- R19: `polymod(t, f)` is the unique polynomial of degree below `deg f` that differs from `t` by a multiple of
`f`. -/
def Obligations.PolymodIsRemainder : Prop :=
  ∀ t f : Nat, f ≠ 0 →
    bitlen (polymod t f) < bitlen f ∧ (∃ q, clmul q f = t ^^^ polymod t f) ∧
      ∀ r q, bitlen r < bitlen f → clmul q f = t ^^^ r → r = polymod t f

/-- R190, R191: GFADD writes the XOR; GFMUL writes the low and high halves of the untruncated product, whose bit
`2W - 1` is 0. -/
def Obligations.GfaddGfmulResults : Prop :=
  ∀ (s : State) (rd a b : Reg), RegsOk s →
    (Ready s (.gfadd rd a b) → ∃ t, exec (.gfadd rd a b) s = .next t ∧ OnlyRegs [rd] (doneStatus s) s t ∧
      t.reg rd = s.reg a ^^^ s.reg b) ∧
    (Ready s (.gfmul rd a b) → ∃ t, exec (.gfmul rd a b) s = .next t ∧
      OnlyRegs [rd, spanReg rd 1] (doneStatus s) s t ∧
      t.reg rd + t.reg (spanReg rd 1) * 2 ^ s.params.width = clmul (s.reg a) (s.reg b) ∧
      t.reg (spanReg rd 1) < 2 ^ (s.params.width - 1))

/-- R192 to R194: GFRED and GFMULR write the remainder by a polynomial whose bit 0 is 1, and complete with error 4 for
any other. -/
def Obligations.ReductionResults : Prop :=
  ∀ (s : State) (rd a b f : Reg), RegsOk s →
    (Ready s (.gfred rd a f) →
      (s.reg f % 2 = 0 → ErrorsWith (.gfred rd a f) s 4) ∧
      (s.reg f % 2 = 1 → ∃ t, exec (.gfred rd a f) s = .next t ∧ OnlyRegs [rd] (doneStatus s) s t ∧
        t.reg rd = polymod (s.reg a + s.reg (spanReg a 1) * 2 ^ s.params.width) (s.reg f))) ∧
    (Ready s (.gfmulr rd a b f) →
      (s.reg f % 2 = 0 → ErrorsWith (.gfmulr rd a b f) s 4) ∧
      (s.reg f % 2 = 1 → ∃ t, exec (.gfmulr rd a b f) s = .next t ∧ OnlyRegs [rd] (doneStatus s) s t ∧
        t.reg rd = polymod (clmul (s.reg a) (s.reg b)) (s.reg f)))

/-- R194: GFMULR's result is that of GFMUL into a pair followed by GFRED of the pair. -/
def Obligations.GfmulrIsGfmulThenGfred : Prop :=
  ∀ (s : State) (rd a b f p : Reg), RegsOk s → f ≠ p → f ≠ spanReg p 1 → s.reg f % 2 = 1 →
    Ready s (.gfmul p a b) → Ready s (.gfmulr rd a b f) →
    ∃ t₁ t₂ t₃, exec (.gfmul p a b) s = .next t₁ ∧ exec (.gfred rd p f) t₁ = .next t₂ ∧
      exec (.gfmulr rd a b f) s = .next t₃ ∧ t₂.reg rd = t₃.reg rd

/-! ### The curve context -/

/-- R220 to R222: CURVE's checks in their order, and on success the context, the table and the two valid bits. -/
def Obligations.CurveResult : Prop :=
  ∀ (s : State) (c : Reg) (p a b h gx gy n : Nat), Ready s (.curve c) → p = s.reg c → a = s.reg (spanReg c 1) →
    b = s.reg (spanReg c 2) → h = s.reg (spanReg c 3) → gx = s.reg (spanReg c 4) → gy = s.reg (spanReg c 5) →
    n = s.reg (spanReg c 6) →
    (p % 2 = 0 ∨ p < 5 → ErrorsWith (.curve c) s 2) ∧
    (p % 2 = 1 → 5 ≤ p → n < 2 → ErrorsWith (.curve c) s 2) ∧
    (p % 2 = 1 → 5 ≤ p → 2 ≤ n →
      p ≤ gx ∨ p ≤ gy ∨ gy = 0 ∨ ((gy : Int) ^ 2 - (gx ^ 3 + (a % p : Nat) * gx + (b % p : Nat))) % p ≠ 0 →
      ErrorsWith (.curve c) s 8) ∧
    (p % 2 = 1 → 5 ≤ p → 2 ≤ n → gx < p → gy < p → gy ≠ 0 →
      ((gy : Int) ^ 2 - (gx ^ 3 + (a % p : Nat) * gx + (b % p : Nat))) % p = 0 →
      exec (.curve c) s = .next
        { s with
          curve := ⟨p, a % p, b % p, h, gx, gy, n⟩
          gtab := buildTable p (a % p) gx gy n
          status := { s.status with busy := false, done := true, curvev := true, gtabv := true } })

/-- R223: the table has `bitlen(2n) + 1` entries, the first is `G`, and each next one is the double of the one
before. -/
def Obligations.GeneratorTableDoubles : Prop :=
  ∀ p a gx gy n : Nat,
    (buildTable p a gx gy n).length = bitlen (2 * n) + 1 ∧
      (buildTable p a gx gy n)[0]? = some (some (.pt gx gy)) ∧
      ∀ (k : Nat) (e : Option Aff), k < bitlen (2 * n) → (buildTable p a gx gy n)[k]? = some e →
        (buildTable p a gx gy n)[k + 1]? = some (e.bind (affDbl p a))

/-! ### Points -/

/-- R255, R258, with JAC_REPR = exact: PADD and PDBL write the canonical form of the formulas' triple and set INF
exactly for an infinite one; both need CURVEV. -/
def Obligations.PointSumAndDoubleResults : Prop :=
  ∀ (s : State) (rd a b : Reg), Inv s → s.params.jacRepr = .exact →
    (s.status.curvev = false → ((Instr.padd rd a b).wf = true → ErrorsWith (.padd rd a b) s 10) ∧
      ((Instr.pdbl rd a).wf = true → ErrorsWith (.pdbl rd a) s 10)) ∧
    (Ready s (.padd rd a b) → ∃ t, exec (.padd rd a b) s = .next t ∧
      OnlyRegs (spanRegs rd 3)
        { doneStatus s with inf := (jadd s.curve.p s.curve.a (s.point a) (s.point b)).isInf } s t ∧
      HoldsPoint t rd (jadd s.curve.p s.curve.a (s.point a) (s.point b)).canon) ∧
    (Ready s (.pdbl rd a) → ∃ t, exec (.pdbl rd a) s = .next t ∧
      OnlyRegs (spanRegs rd 3) { doneStatus s with inf := (jdbl s.curve.p s.curve.a (s.point a)).isInf } s t ∧
      HoldsPoint t rd (jdbl s.curve.p s.curve.a (s.point a)).canon)

/-- R12, R246, with JAC_REPR = class: PADD and PDBL write a triple of W-bit values of the projective class of the exact
result (its coordinates may be `p` or more: R245 reduces them), or CANON_INF, with the same INF. The class is read as the
multiples by a unit of Z/p (log 6, DEDUCED; unsafe for composite `p` with a `Z` that is no unit). And where the exact `Z` is
invertible, every triple of W-bit values with an invertible `Z` that stands for the same affine point is one that the draws
can give. -/
def Obligations.JacobianClassResults : Prop :=
  ∀ (s : State) (i : Instr) (rd a b : Reg) (J : Jac), Inv s → s.params.jacRepr = .projClass →
    (i = .padd rd a b ∧ J = jadd s.curve.p s.curve.a (s.point a) (s.point b)) ∨
      (i = .pdbl rd a ∧ J = jdbl s.curve.p s.curve.a (s.point a)) →
    Ready s i →
    ∃ t T, exec i s = .next t ∧ HoldsPoint t rd T ∧
      t = { s with v := t.v, status := { doneStatus s with inf := J.isInf }, draws := t.draws } ∧
      (∀ r : Reg, r ∉ spanRegs rd 3 → t.v[r] = s.v[r]) ∧ (J.isInf = true → T = ⟨0, 0, 0⟩) ∧
      (J.isInf = false → T.isInf = false ∧ jacEq s.curve.p T J = true ∧ T.x < 2 ^ s.params.width ∧
        T.y < 2 ^ s.params.width ∧ T.z < 2 ^ s.params.width ∧
        ∃ d0 d1 d2 d3, T = classTriple s.params.width s.curve.p d0 d1 d2 d3 J) ∧
      ∀ T' : Jac, T'.x < 2 ^ s.params.width → T'.y < 2 ^ s.params.width → T'.z < 2 ^ s.params.width →
        Nat.Coprime J.z s.curve.p → Nat.Coprime T'.z s.curve.p → jacEq s.curve.p T' J = true →
        T'.isInf = false → J.isInf = false → ∃ d0 d1 d2 d3, classTriple s.params.width s.curve.p d0 d1 d2 d3 J = T'

/-- R257: `P + identity` and `identity + P` equal `P`, `P + (-P)` is the identity and so is the double of the identity,
for every reduced triple, on the curve or not. R254: for prime `p`, the Jacobian sum and double of triples that stand for
points on the curve stand for the affine reference's sum and double, whichever of MMADD, ZADD, MADD, ADDG, MDBL and DBL
computes them. -/
def Obligations.PointLawsAndAgreement : Prop :=
  (∀ (p a : Nat) (P O : Jac), p % 2 = 1 → 5 ≤ p → P.x < p → P.y < p → P.z < p → O.x < p → O.y < p → O.z < p →
    O.isInf = true →
    jacEq p (jadd p a P O).canon P = true ∧ jacEq p (jadd p a O P).canon P = true ∧
      (jadd p a P ⟨P.x, (p - P.y) % p, P.z⟩).isInf = true ∧ (jdbl p a O).isInf = true) ∧
  ∀ (p a b : Nat) (P Q : Jac) (A B : Aff), p.Prime → 5 ≤ p → P.x < p → P.y < p → P.z < p → Q.x < p → Q.y < p →
    Q.z < p → AffOnCurve p a b A → AffOnCurve p a b B → (∀ x, A ≠ .pt x 0) → (∀ x, B ≠ .pt x 0) →
    StandsFor p P A → StandsFor p Q B →
    (∃ R, affAdd p a A B = some R ∧ StandsFor p (jadd p a P Q).canon R) ∧
      ∃ R, affDbl p a A = some R ∧ StandsFor p (jdbl p a P).canon R

/-- R262: PEQ sets EQ exactly when both triples are infinite, or both finite and equal by cross-multiplication, and
changes nothing else; it needs CURVEV. -/
def Obligations.PeqResult : Prop :=
  ∀ (s : State) (a b : Reg) (P Q : Jac), P = s.point a → Q = s.point b →
    ((Instr.peq a b).wf = true → s.status.curvev = false → ErrorsWith (.peq a b) s 10) ∧
    (Ready s (.peq a b) → 5 ≤ s.curve.p → ∃ t, exec (.peq a b) s = .next t ∧ 
      t = { s with status := { doneStatus s with eq := t.status.eq } } ∧
      (t.status.eq = true ↔
        ((P.y = 0 ∨ P.z = 0) ∧ (Q.y = 0 ∨ Q.z = 0)) ∨
          (¬(P.y = 0 ∨ P.z = 0) ∧ ¬(Q.y = 0 ∨ Q.z = 0) ∧
            (s.curve.p : Int) ∣ P.x * Q.z ^ 2 - Q.x * P.z ^ 2 ∧
            (s.curve.p : Int) ∣ P.y * Q.z ^ 3 - Q.y * P.z ^ 3)))

/-- R265: J2A writes the affine coordinates with `Z = 1`, `CANON_INF` with INF for an infinite triple, and completes with
error 9 when `Z` has no inverse; it needs CURVEV. -/
def Obligations.J2aResult : Prop :=
  ∀ (s : State) (rd a : Reg) (P : Jac), Inv s → P = s.point a →
    ((Instr.j2a rd a).wf = true → s.status.curvev = false → ErrorsWith (.j2a rd a) s 10) ∧
    (Ready s (.j2a rd a) → P.y = 0 ∨ P.z = 0 → ∃ t, exec (.j2a rd a) s = .next t ∧
      OnlyRegs (spanRegs rd 3) { doneStatus s with inf := true } s t ∧ HoldsPoint t rd ⟨0, 0, 0⟩) ∧
    (Ready s (.j2a rd a) → ¬(P.y = 0 ∨ P.z = 0) → Nat.gcd P.z s.curve.p ≠ 1 → ErrorsWith (.j2a rd a) s 9) ∧
    (Ready s (.j2a rd a) → ¬(P.y = 0 ∨ P.z = 0) → Nat.gcd P.z s.curve.p = 1 → ∃ t x y, exec (.j2a rd a) s = .next t ∧
      OnlyRegs (spanRegs rd 3) { doneStatus s with inf := false } s t ∧ HoldsPoint t rd ⟨x, y, 1⟩ ∧ x < s.curve.p ∧
      y < s.curve.p ∧ x * P.z ^ 2 % s.curve.p = P.x ∧ y * P.z ^ 3 % s.curve.p = P.y)

/-! ### Scalar multiplication -/

/-- R290 to R292, R295: both forms of SMUL: the identity for an infinite point, error 9 without an inverse of `Z`,
error 8 off the curve, else the affine `k1·P`, with `k1 = k mod 2n` for SMUL.O; for a point of even order some point (the
model's detection of it: log 7). An affine result with `y = 0` is written as CANON_INF with INF = 1: R246's `Canon`, the
model's reading where R290 writes `(R.x, R.y, 1)` (log 13). Where an inverse inside `AffMul` does not exist, one of the
rule's error codes or a write of the destinations (R244; the model's form of it: log 8). -/
def Obligations.SmulResult : Prop :=
  ∀ (s : State) (o : Bool) (rd a b : Reg) (i : Instr) (P : Jac) (k : Nat), Inv s →
    i = (if o then .smulO rd a b else .smul rd a b) → P = s.point a →
    k = (if o then s.reg b % (2 * s.curve.n) else s.reg b) → Ready s i →
    (P.isInf = true → ∃ t, exec i s = .next t ∧
      OnlyRegs (spanRegs rd 3) { doneStatus s with inf := true } s t ∧ HoldsPoint t rd ⟨0, 0, 0⟩) ∧
    (P.isInf = false → invMod P.z s.curve.p = none → ErrorsWith i s 9) ∧
    (∀ zi x y, P.isInf = false → invMod P.z s.curve.p = some zi → (x, y) = affineOf s.curve.p P zi →
      (onCurve x y s.curve.p s.curve.a s.curve.b = false → ErrorsWith i s 8) ∧
      (∀ R, onCurve x y s.curve.p s.curve.a s.curve.b = true → affMul s.curve.p s.curve.a k (.pt x y) = some R →
        ∃ t R', exec i s = .next t ∧ HoldsPoint t rd R'.triple.canon ∧
          t = { s with v := t.v, status := { doneStatus s with inf := R'.triple.isInf }, draws := t.draws } ∧
          (∀ r : Reg, r ∉ spanRegs rd 3 → t.v[r] = s.v[r]) ∧
          (OddOrder s.curve.p s.curve.a (.pt x y) ∨
            orderOpen s.curve.p s.curve.a s.curve.n (.pt x y) = false → R' = R ∧ t.draws = s.draws)) ∧
      (onCurve x y s.curve.p s.curve.a s.curve.b = true → affMul s.curve.p s.curve.a k (.pt x y) = none →
        OpenOutcome i s [8, 9, 10] (spanRegs rd 3)))

/-- R296, R295: SMULG writes the affine `(k mod 2n)·G`, or `CANON_INF` with INF; for a generator of even order some
point (log 7). An affine result with `y = 0` is written as CANON_INF with INF = 1: R246's `Canon`, the model's reading
where R296 writes `(R.x, R.y, 1)` (log 13). Where an inverse inside `AffMul` does not exist, error 10 or a write of the
destinations (R244; the model's form of it: log 8). -/
def Obligations.SmulgResult : Prop :=
  ∀ (s : State) (rd b : Reg) (k : Nat) (R : Aff), Inv s → Ready s (.smulg rd b) → k = s.reg b % (2 * s.curve.n) →
    (affMul s.curve.p s.curve.a k (.pt s.curve.gx s.curve.gy) = some R →
      ∃ t R', exec (.smulg rd b) s = .next t ∧ HoldsPoint t rd R'.triple.canon ∧
        t = { s with v := t.v, status := { doneStatus s with inf := R'.triple.isInf }, draws := t.draws } ∧
        (∀ r : Reg, r ∉ spanRegs rd 3 → t.v[r] = s.v[r]) ∧
        (OddOrder s.curve.p s.curve.a (.pt s.curve.gx s.curve.gy) ∨
          orderOpen s.curve.p s.curve.a s.curve.n (.pt s.curve.gx s.curve.gy) = false →
          R' = R ∧ t.draws = s.draws)) ∧
    (affMul s.curve.p s.curve.a k (.pt s.curve.gx s.curve.gy) = none →
      OpenOutcome (.smulg rd b) s [10] (spanRegs rd 3))

/-- R243: `AffMul` is double-and-add: `0·P` is the identity, `2k·P` doubles `k·P`, `(2k+1)·P` then adds `P`. -/
def Obligations.AffMulIsDoubleAndAdd : Prop :=
  ∀ (p a k : Nat) (P : Aff),
    affMul p a 0 P = some .identity ∧ affMul p a (2 * k) P = (affMul p a k P).bind (affDbl p a) ∧
      affMul p a (2 * k + 1) P = ((affMul p a k P).bind (affDbl p a)).bind fun d => affAdd p a d P

/-- R293: the width-`w` recoding stands for `k`; its digits are 0 or odd and below `2^(w-1)`; no two nonzero digits are
neighbours. -/
def Obligations.NafRecodesScalar : Prop :=
  ∀ w k : Nat, 2 ≤ w → w ≤ 8 →
    digitsValue (naf w k) = k ∧ (∀ d ∈ naf w k, d = 0 ∨ (d % 2 = 1 ∧ d.natAbs < 2 ^ (w - 1))) ∧
      ∀ (j : Nat) (d e : Int), (naf w k)[j]? = some d → (naf w k)[j + 1]? = some e → d = 0 ∨ e = 0

/-! ### ECDSA -/

/-- R320, R322, R323: ESIGN on a generator of odd order: error 5 for `R = O`, `r = 0` or `s = 0`, error 9 without an
inverse of `k`, else `r = R.x mod n` and `s = k^-1·(e + d·r) mod n`, both in `[1, n)`. -/
def Obligations.EsignResult : Prop :=
  ∀ (s : State) (rd d e k : Reg) (n kc : Nat) (R : Aff), Inv s → Ready s (.esign rd d e k) → n = s.curve.n →
    kc = blind (s.reg k) n % (2 * n) → affMul s.curve.p s.curve.a kc (.pt s.curve.gx s.curve.gy) = some R →
    OddOrder s.curve.p s.curve.a (.pt s.curve.gx s.curve.gy) ∨
      orderOpen s.curve.p s.curve.a n (.pt s.curve.gx s.curve.gy) = false →
    (R = .identity → ErrorsWith (.esign rd d e k) s 5) ∧
    (∀ x y, R = .pt x y → x % n = 0 → ErrorsWith (.esign rd d e k) s 5) ∧
    (∀ x y, R = .pt x y → x % n ≠ 0 → invMod (s.reg k % n) n = none → ErrorsWith (.esign rd d e k) s 9) ∧
    (∀ x y ki, R = .pt x y → x % n ≠ 0 → invMod (s.reg k % n) n = some ki →
      (ki * (s.reg e % n + s.reg d * (x % n)) % n = 0 → ErrorsWith (.esign rd d e k) s 5) ∧
      (ki * (s.reg e % n + s.reg d * (x % n)) % n ≠ 0 → ∃ t, exec (.esign rd d e k) s = .next t ∧
        OnlyRegs [rd, spanReg rd 1] (doneStatus s) s t ∧ t.reg rd = x % n ∧
        t.reg (spanReg rd 1) = ki * (s.reg e % n + s.reg d * (x % n)) % n ∧ 1 ≤ t.reg rd ∧ t.reg rd < n ∧
        1 ≤ t.reg (spanReg rd 1) ∧ t.reg (spanReg rd 1) < n))

/-- R326 to R331: EVERIFY: the range reject before any check; error 8 for an infinite or off-curve key, error 9 without
an inverse of `Z`; VALID = 0 without an inverse of `s`; else VALID is the verdict on `u1·G + u2·Q`, for `G` and `Q` of
odd order. -/
def Obligations.EverifyResult : Prop :=
  ∀ (s : State) (a e rs : Reg) (i : Instr) (Q : Jac) (r sg p n : Nat), Ready s i → i = .everify a e rs → Q = s.point a →
    r = s.reg rs → sg = s.reg (spanReg rs 1) → p = s.curve.p → n = s.curve.n →
    (¬(1 ≤ r ∧ r < n ∧ 1 ≤ sg ∧ sg < n) →
      exec i s = .next { s with status := { doneStatus s with valid := false, vrange := true } }) ∧
    (1 ≤ r → r < n → 1 ≤ sg → sg < n →
      (Q.isInf = true → ErrorsWith i s 8) ∧ (Q.isInf = false → invMod Q.z p = none → ErrorsWith i s 9) ∧
      ∀ zi x y, Q.isInf = false → invMod Q.z p = some zi → (x, y) = affineOf p Q zi →
        (onCurve x y p s.curve.a s.curve.b = false → ErrorsWith i s 8) ∧
        (onCurve x y p s.curve.a s.curve.b = true → invMod sg n = none →
          exec i s = .next { s with status := { doneStatus s with valid := false } }) ∧
        ∀ c A B R, onCurve x y p s.curve.a s.curve.b = true → invMod sg n = some c →
          affMul p s.curve.a (s.reg e % n * c % n) (.pt s.curve.gx s.curve.gy) = some A →
          affMul p s.curve.a (r * c % n) (.pt x y) = some B → affAdd p s.curve.a A B = some R →
          (Inv s ∧ OddOrder p s.curve.a (.pt s.curve.gx s.curve.gy)) ∨
            orderOpen p s.curve.a n (.pt s.curve.gx s.curve.gy) = false →
          (Inv s ∧ OddOrder p s.curve.a (.pt x y)) ∨ orderOpen p s.curve.a n (.pt x y) = false →
          ∃ v : Bool, exec i s = .next { s with status := { doneStatus s with valid := v } } ∧
            (v = true ↔ ∃ rx ry, R = .pt rx ry ∧ rx % n = r))

/-- R321: `Blind` takes `k mod n + n` exactly when that has the bit length of `n`, which is when it is below
`2^bitlen(n)`, else `k mod n + 2n`, which is always longer; modulo `2n` it is `k mod n + n` or `k mod n`. -/
def Obligations.BlindSelection : Prop :=
  ∀ k n : Nat, 0 < n →
    (k % n + n < 2 ^ bitlen n → blind k n = k % n + n ∧ bitlen (blind k n) = bitlen n) ∧
    (2 ^ bitlen n ≤ k % n + n → blind k n = k % n + 2 * n ∧ bitlen (k % n + n) ≠ bitlen n) ∧
    bitlen n < bitlen (k % n + 2 * n) ∧ (blind k n % (2 * n) = k % n + n ∨ blind k n % (2 * n) = k % n)
end

