-- ==== Sys2Proof/Laws/Arith.lean ====
section
/-! SUPPORT. The arithmetic primitives' ranges (00_scope.md R16, R17; 41_montgomery.md R160): what a later proof needs
of `zmod`, `bitlen` and `montExp` without unfolding them. -/

namespace Sys2Proof.Machine

/-- A remainder of a signed integer is in `[0, p)` (R16). -/
theorem zmod_lt (a : Int) {p : Nat} (hp : 0 < p) : zmod a p < p := by
  have := Int.emod_lt_of_pos a (Int.natCast_pos.mpr hp)
  unfold zmod
  omega

/-- The remainder as an integer (R16). -/
theorem zmod_cast (a : Int) {p : Nat} (hp : 0 < p) : (zmod a p : Int) = a % p :=
  Int.toNat_of_nonneg (Int.emod_nonneg _ (Int.natCast_ne_zero.mpr hp.ne'))

/-- The remainder is 0 exactly for a multiple of `p`. -/
theorem zmod_eq_zero_iff (a : Int) {p : Nat} (hp : 0 < p) : zmod a p = 0 ↔ (p : Int) ∣ a := by
  rw [← Int.natCast_eq_zero, zmod_cast a hp, Int.dvd_iff_emod_eq_zero]

/-- A remainder in `ZMod p` is the integer itself. -/
theorem zmod_toZMod (k : Int) {p : Nat} (hp : 0 < p) : ((zmod k p : Nat) : ZMod p) = (k : ZMod p) := by
  have h : ((zmod k p : Nat) : Int) = k % p := zmod_cast k hp
  have h2 := congrArg (Int.cast : Int → ZMod p) h
  simpa using h2

/-- `zmod` of a natural number is its remainder. -/
@[simp] theorem zmod_natCast (a p : Nat) : zmod (a : Int) p = a % p := by
  unfold zmod
  rw [← Int.natCast_mod, Int.toNat_natCast]

@[simp] theorem bitlen_zero : bitlen 0 = 0 := rfl

/-- `bitlen` is at most `k` exactly below `2^k` (R17). -/
theorem bitlen_le_iff (n k : Nat) : bitlen n ≤ k ↔ n < 2 ^ k := by
  unfold bitlen
  split
  · subst_vars; simp
  · rename_i h
    rw [Nat.add_one_le_iff, Nat.log2_lt h]

/-- Every number is below 2 to its bit length (R17). -/
theorem lt_two_pow_bitlen (n : Nat) : n < 2 ^ bitlen n := (bitlen_le_iff n _).mp le_rfl

/-- The top bit of a nonzero number stands at `bitlen - 1` (R17). -/
theorem two_pow_le_of_bitlen {n : Nat} (h : n ≠ 0) : 2 ^ (bitlen n - 1) ≤ n := by
  rw [← Nat.not_lt, ← bitlen_le_iff]
  have : bitlen n = Nat.log2 n + 1 := by simp [bitlen, h]
  omega

/-- Doubling and adding a bit lengthens by one. -/
theorem bitlen_two_mul_add {k b : Nat} (hb : b < 2) (h : 2 * k + b ≠ 0) : bitlen (2 * k + b) = bitlen k + 1 := by
  refine le_antisymm ?_ ?_
  · rw [bitlen_le_iff, pow_succ]
    have := lt_two_pow_bitlen k
    omega
  · by_contra hlt
    have h1 : 2 * k + b < 2 ^ bitlen k := (bitlen_le_iff _ _).mp (by omega)
    by_cases hk : k = 0
    · subst hk; simp at h1; omega
    · have h2 := two_pow_le_of_bitlen hk
      have h3 : bitlen k = bitlen k - 1 + 1 := by
        have : bitlen k ≠ 0 := by simp [bitlen, hk]
        omega
      rw [h3, pow_succ] at h1
      omega

/-- The radix exponent is a multiple of the granularity (R160). -/
theorem montExp_mod (g n : Nat) : montExp g n % g = 0 := Nat.mul_mod_right _ _

/-- The radix exponent covers the modulus, by less than one granule more (R160). -/
theorem montExp_bounds {g : Nat} (hg : 0 < g) (n : Nat) :
    bitlen n ≤ montExp g n ∧ montExp g n < bitlen n + g := by
  have h1 := Nat.div_add_mod (bitlen n + (g - 1)) g
  have h2 := Nat.mod_lt (bitlen n + (g - 1)) hg
  unfold montExp
  omega

/-- The radix exponent never passes a register width that is a multiple of the granularity (R7, R9, R160). -/
theorem montExp_le {g n W : Nat} (hg : 0 < g) (hd : g ∣ W) (hn : n < 2 ^ W) : montExp g n ≤ W := by
  obtain ⟨q, rfl⟩ := hd
  have hb := (bitlen_le_iff n _).mpr hn
  unfold montExp
  refine Nat.mul_le_mul_left g ?_
  rw [← Nat.lt_succ_iff, Nat.div_lt_iff_lt_mul hg]
  have : q.succ * g = g * q + g := by rw [Nat.succ_mul, Nat.mul_comm]
  omega

/-- `InvMod` reports NotInvertible only for a nonzero number that shares a factor with the modulus (R140). -/
theorem invMod_none {a m : Nat} (h : invMod a m = none) : a ≠ 0 ∧ Nat.gcd (a % m) m ≠ 1 := by
  unfold invMod at h
  split at h
  · cases h
  · split at h
    · exact ⟨‹_›, ‹_›⟩
    · cases h

/-- The extended Euclidean loop stays below its modulus. -/
theorem euclid_lt {m : Nat} (hm : 0 < m) (fuel r0 r1 t0 t1 : Nat) (h0 : t0 < m) (h1 : t1 < m) :
    euclid m fuel r0 r1 t0 t1 < m := by
  induction fuel generalizing r0 r1 t0 t1 with
  | zero => exact h0
  | succ k ih =>
    unfold euclid
    split
    · exact h0
    · exact ih _ _ _ _ h1 (Nat.mod_lt _ hm)

/-- An inverse is below its modulus (R140). -/
theorem invMod_lt {a m x : Nat} (hm : 0 < m) (h : invMod a m = some x) : x < m := by
  unfold invMod at h
  split at h
  · simp only [Option.some.injEq] at h; omega
  · split at h
    · cases h
    · simp only [Option.some.injEq] at h
      exact h ▸ euclid_lt hm _ _ _ _ _ hm (Nat.mod_lt _ hm)

end Sys2Proof.Machine
end

