-- ==== Sys2Proof/Laws/Class.lean ====
section
/-! SUPPORT. What JAC_REPR = class can write: `classTriple` gives W-bit triples of the exact triple's projective class, and
every one of them (00_scope.md R12, R23; 44_point_arith.md R245; log 6). -/

namespace Sys2Proof.Machine

/-- A lifted residue is a W-bit value congruent to it. -/
theorem liftCoord_spec {W p x : Nat} (hx : x < 2 ^ W) (d : Nat) :
    liftCoord W p x d < 2 ^ W ∧ liftCoord W p x d % p = x % p := by
  refine ⟨?_, by simp [liftCoord]⟩
  have h1 : d % ((2 ^ W - 1 - x) / p + 1) ≤ (2 ^ W - 1 - x) / p := Nat.le_of_lt_succ (Nat.mod_lt _ (Nat.succ_pos _))
  have h2 : p * (d % ((2 ^ W - 1 - x) / p + 1)) ≤ 2 ^ W - 1 - x :=
    (Nat.mul_le_mul_left p h1).trans (Nat.mul_div_le _ p)
  unfold liftCoord
  omega

/-- Every W-bit value is a lift of its residue. -/
theorem liftCoord_covers {W p y : Nat} (hp : 0 < p) (hy : y < 2 ^ W) : liftCoord W p (y % p) (y / p) = y := by
  have h : y / p ≤ (2 ^ W - 1 - y % p) / p := by
    rw [Nat.le_div_iff_mul_le hp]
    have := Nat.div_add_mod' y p
    omega
  rw [liftCoord, Nat.mod_eq_of_lt (Nat.lt_succ_of_le h), Nat.mod_add_div]

/-- Every factor is a unit. -/
theorem scaleFactor_coprime (p d : Nat) : Nat.gcd (scaleFactor p d) p = 1 := by
  unfold scaleFactor
  split
  · assumption
  · simp

/-- The class is complete, for every modulus: whatever W-bit triple stands for the same affine point as a triple with an
invertible `Z` (both cross-products agree), some draws give it (R12, R23). -/
theorem class_covers {W p : Nat} {J T : Jac} (hp : 1 < p) (hTx : T.x < 2 ^ W) (hTy : T.y < 2 ^ W) (hTz : T.z < 2 ^ W)
    (hJ : Nat.Coprime J.z p) (hT : Nat.Coprime T.z p) (hx : T.x * J.z ^ 2 ≡ J.x * T.z ^ 2 [MOD p])
    (hy : T.y * J.z ^ 3 ≡ J.y * T.z ^ 3 [MOD p]) : ∃ d0 d1 d2 d3, classTriple W p d0 d1 d2 d3 J = T := by
  obtain ⟨zi, hzi⟩ : ∃ zi, J.z * zi ≡ 1 [MOD p] := Nat.exists_mul_mod_eq_one_of_coprime hJ hp |>.imp fun m hm => by
    rw [Nat.ModEq, hm.2, Nat.mod_eq_of_lt hp]
  have hzc : Nat.Coprime zi p := by
    have h : Nat.gcd (J.z * zi) p = 1 := by rw [hzi.gcd_eq]; simp
    exact Nat.Coprime.coprime_dvd_left (Dvd.intro_left J.z rfl) h
  have hl : Nat.gcd (T.z * zi % p) p = 1 := by
    rw [← Nat.gcd_rec, Nat.gcd_comm]
    exact Nat.Coprime.mul_left hT hzc
  have hf : scaleFactor p (T.z * zi) = T.z * zi % p := by simp [scaleFactor, hl]
  have hm : T.z * zi % p ≡ T.z * zi [MOD p] := Nat.mod_modEq _ _
  have ez : T.z * zi % p * J.z % p = T.z % p := by
    have := (hm.mul_right J.z).trans ((by ring_nf; rfl : T.z * zi * J.z ≡ T.z * (J.z * zi) [MOD p]).trans (hzi.mul_left T.z))
    simpa [Nat.ModEq] using this
  have ex : T.z * zi % p * (T.z * zi % p) * J.x % p = T.x % p := by
    have h1 := ((hm.mul hm).mul_right J.x).trans
      ((by ring_nf; rfl : T.z * zi * (T.z * zi) * J.x ≡ J.x * T.z ^ 2 * zi ^ 2 [MOD p]).trans (hx.symm.mul_right (zi ^ 2)))
    have h2 := h1.trans ((by ring_nf; rfl : T.x * J.z ^ 2 * zi ^ 2 ≡ T.x * (J.z * zi) ^ 2 [MOD p]).trans
      ((hzi.pow 2).mul_left T.x))
    simpa [Nat.ModEq] using h2
  have ey : T.z * zi % p * (T.z * zi % p) * (T.z * zi % p) * J.y % p = T.y % p := by
    have h1 := (((hm.mul hm).mul hm).mul_right J.y).trans
      ((by ring_nf; rfl : T.z * zi * (T.z * zi) * (T.z * zi) * J.y ≡ J.y * T.z ^ 3 * zi ^ 3 [MOD p]).trans
        (hy.symm.mul_right (zi ^ 3)))
    have h2 := h1.trans ((by ring_nf; rfl : T.y * J.z ^ 3 * zi ^ 3 ≡ T.y * (J.z * zi) ^ 3 [MOD p]).trans
      ((hzi.pow 3).mul_left T.y))
    simpa [Nat.ModEq] using h2
  have hp0 : 0 < p := Nat.zero_lt_of_lt hp
  refine ⟨T.z * zi, T.x / p, T.y / p, T.z / p, ?_⟩
  simp only [classTriple, Jac.lift, Jac.scaled, hf, ex, ey, ez, liftCoord_covers hp0 hTx, liftCoord_covers hp0 hTy,
    liftCoord_covers hp0 hTz]

end Sys2Proof.Machine
end

