-- ==== Sys2Proof/Laws/State.lean ====
section
/-! SUPPORT. The small lemmas of the state's updates: one per field per update, so that no later proof unfolds one. -/

namespace Sys2Proof.Machine

/-! ### `setReg` -/

@[simp] theorem setReg_params (s : State) (i : Reg) (x : Nat) : (s.setReg i x).params = s.params := rfl
@[simp] theorem setReg_v (s : State) (i : Reg) (x : Nat) :
    (s.setReg i x).v = s.v.set i { value := x % 2 ^ s.params.width, written := allWritten s.params } := rfl
@[simp] theorem setReg_ctrl (s : State) (i : Reg) (x : Nat) : (s.setReg i x).ctrl = s.ctrl := rfl
@[simp] theorem setReg_status (s : State) (i : Reg) (x : Nat) : (s.setReg i x).status = s.status := rfl
@[simp] theorem setReg_cmd (s : State) (i : Reg) (x : Nat) : (s.setReg i x).cmd = s.cmd := rfl
@[simp] theorem setReg_curve (s : State) (i : Reg) (x : Nat) : (s.setReg i x).curve = s.curve := rfl
@[simp] theorem setReg_mont (s : State) (i : Reg) (x : Nat) : (s.setReg i x).mont = s.mont := rfl
@[simp] theorem setReg_gtab (s : State) (i : Reg) (x : Nat) : (s.setReg i x).gtab = s.gtab := rfl
@[simp] theorem setReg_draws (s : State) (i : Reg) (x : Nat) : (s.setReg i x).draws = s.draws := rfl
@[simp] theorem setReg_host (s : State) (i : Reg) (x : Nat) : (s.setReg i x).host = s.host := rfl
@[simp] theorem setReg_schedule (s : State) (i : Reg) (x : Nat) : (s.setReg i x).schedule = s.schedule := rfl

/-! ### `setRegWord` -/

@[simp] theorem setRegWord_params (s : State) (i : Reg) (j : Nat) (w : Word) :
    (s.setRegWord i j w).params = s.params := rfl
@[simp] theorem setRegWord_v (s : State) (i : Reg) (j : Nat) (w : Word) :
    (s.setRegWord i j w).v = s.v.set i { value := setWord s.v[i].value j w, written := s.v[i].written ||| BitVec.ofNat 32 (2 ^ j) } := rfl
@[simp] theorem setRegWord_ctrl (s : State) (i : Reg) (j : Nat) (w : Word) : (s.setRegWord i j w).ctrl = s.ctrl := rfl
@[simp] theorem setRegWord_status (s : State) (i : Reg) (j : Nat) (w : Word) :
    (s.setRegWord i j w).status = s.status := rfl
@[simp] theorem setRegWord_cmd (s : State) (i : Reg) (j : Nat) (w : Word) : (s.setRegWord i j w).cmd = s.cmd := rfl
@[simp] theorem setRegWord_curve (s : State) (i : Reg) (j : Nat) (w : Word) :
    (s.setRegWord i j w).curve = s.curve := rfl
@[simp] theorem setRegWord_mont (s : State) (i : Reg) (j : Nat) (w : Word) : (s.setRegWord i j w).mont = s.mont := rfl
@[simp] theorem setRegWord_gtab (s : State) (i : Reg) (j : Nat) (w : Word) : (s.setRegWord i j w).gtab = s.gtab := rfl
@[simp] theorem setRegWord_draws (s : State) (i : Reg) (j : Nat) (w : Word) :
    (s.setRegWord i j w).draws = s.draws := rfl
@[simp] theorem setRegWord_host (s : State) (i : Reg) (j : Nat) (w : Word) : (s.setRegWord i j w).host = s.host := rfl
@[simp] theorem setRegWord_schedule (s : State) (i : Reg) (j : Nat) (w : Word) :
    (s.setRegWord i j w).schedule = s.schedule := rfl

/-! ### `takeDraws` -/

@[simp] theorem takeDraws_params (s : State) (k : Nat) : (s.takeDraws k).params = s.params := rfl
@[simp] theorem takeDraws_v (s : State) (k : Nat) : (s.takeDraws k).v = s.v := rfl
@[simp] theorem takeDraws_ctrl (s : State) (k : Nat) : (s.takeDraws k).ctrl = s.ctrl := rfl
@[simp] theorem takeDraws_status (s : State) (k : Nat) : (s.takeDraws k).status = s.status := rfl
@[simp] theorem takeDraws_cmd (s : State) (k : Nat) : (s.takeDraws k).cmd = s.cmd := rfl
@[simp] theorem takeDraws_curve (s : State) (k : Nat) : (s.takeDraws k).curve = s.curve := rfl
@[simp] theorem takeDraws_mont (s : State) (k : Nat) : (s.takeDraws k).mont = s.mont := rfl
@[simp] theorem takeDraws_gtab (s : State) (k : Nat) : (s.takeDraws k).gtab = s.gtab := rfl
@[simp] theorem takeDraws_draws (s : State) (k : Nat) : (s.takeDraws k).draws = s.draws + k := rfl
@[simp] theorem takeDraws_host (s : State) (k : Nat) : (s.takeDraws k).host = s.host := rfl
@[simp] theorem takeDraws_schedule (s : State) (k : Nat) : (s.takeDraws k).schedule = s.schedule := rfl

/-! ### `accept` -/

@[simp] theorem accept_params (s : State) (w : Word) : (s.accept w).params = s.params := rfl
@[simp] theorem accept_v (s : State) (w : Word) : (s.accept w).v = s.v := rfl
@[simp] theorem accept_ctrl (s : State) (w : Word) : (s.accept w).ctrl = s.ctrl := rfl
@[simp] theorem accept_status (s : State) (w : Word) : (s.accept w).status = s.status.accept := rfl
@[simp] theorem accept_cmd (s : State) (w : Word) : (s.accept w).cmd = w := rfl
@[simp] theorem accept_curve (s : State) (w : Word) : (s.accept w).curve = s.curve := rfl
@[simp] theorem accept_mont (s : State) (w : Word) : (s.accept w).mont = s.mont := rfl
@[simp] theorem accept_gtab (s : State) (w : Word) : (s.accept w).gtab = s.gtab := rfl
@[simp] theorem accept_draws (s : State) (w : Word) : (s.accept w).draws = s.draws := rfl
@[simp] theorem accept_host (s : State) (w : Word) : (s.accept w).host = s.host := rfl
@[simp] theorem accept_schedule (s : State) (w : Word) : (s.accept w).schedule = s.schedule := rfl

/-! ### `raise` -/

@[simp] theorem raise_params (s : State) (e : ErrorCode) : (s.raise e).params = s.params := rfl
@[simp] theorem raise_v (s : State) (e : ErrorCode) : (s.raise e).v = s.v := rfl
@[simp] theorem raise_ctrl (s : State) (e : ErrorCode) : (s.raise e).ctrl = s.ctrl := rfl
@[simp] theorem raise_status (s : State) (e : ErrorCode) : (s.raise e).status = s.status.fail e := rfl
@[simp] theorem raise_cmd (s : State) (e : ErrorCode) : (s.raise e).cmd = s.cmd := rfl
@[simp] theorem raise_curve (s : State) (e : ErrorCode) : (s.raise e).curve = s.curve := rfl
@[simp] theorem raise_mont (s : State) (e : ErrorCode) : (s.raise e).mont = s.mont := rfl
@[simp] theorem raise_gtab (s : State) (e : ErrorCode) : (s.raise e).gtab = s.gtab := rfl
@[simp] theorem raise_draws (s : State) (e : ErrorCode) : (s.raise e).draws = s.draws := rfl
@[simp] theorem raise_host (s : State) (e : ErrorCode) : (s.raise e).host = s.host := rfl
@[simp] theorem raise_schedule (s : State) (e : ErrorCode) : (s.raise e).schedule = s.schedule := rfl

/-! ### `commit` -/

@[simp] theorem commit_params (s : State) (w : Writes) : (s.commit w).params = s.params := rfl
@[simp] theorem commit_v (s : State) (w : Writes) : (s.commit w).v = (s.setRegs w.regs).v := rfl
@[simp] theorem commit_ctrl (s : State) (w : Writes) : (s.commit w).ctrl = s.ctrl := rfl
@[simp] theorem commit_status (s : State) (w : Writes) : (s.commit w).status = (s.status.setFlags w).complete := rfl
@[simp] theorem commit_cmd (s : State) (w : Writes) : (s.commit w).cmd = s.cmd := rfl
@[simp] theorem commit_curve (s : State) (w : Writes) :
    (s.commit w).curve = (w.curve.map Prod.fst).getD s.curve := rfl
@[simp] theorem commit_mont (s : State) (w : Writes) : (s.commit w).mont = w.mont.getD s.mont := rfl
@[simp] theorem commit_gtab (s : State) (w : Writes) : (s.commit w).gtab = (w.curve.map Prod.snd).getD s.gtab := rfl
@[simp] theorem commit_draws (s : State) (w : Writes) : (s.commit w).draws = s.draws + w.draws := rfl
@[simp] theorem commit_host (s : State) (w : Writes) : (s.commit w).host = s.host := rfl
@[simp] theorem commit_schedule (s : State) (w : Writes) : (s.commit w).schedule = s.schedule := rfl

/-! ### `softReset` -/

@[simp] theorem softReset_params (s : State) : (s.softReset).params = s.params := rfl
@[simp] theorem softReset_v (s : State) : (s.softReset).v = s.v := rfl
@[simp] theorem softReset_ctrl (s : State) : (s.softReset).ctrl = Ctrl.reset := rfl
@[simp] theorem softReset_status (s : State) : (s.softReset).status = Status.reset := rfl
@[simp] theorem softReset_cmd (s : State) : (s.softReset).cmd = 0 := rfl
@[simp] theorem softReset_curve (s : State) : (s.softReset).curve = CurveCtx.reset := rfl
@[simp] theorem softReset_mont (s : State) : (s.softReset).mont = MontCtx.reset := rfl
@[simp] theorem softReset_gtab (s : State) : (s.softReset).gtab = [] := rfl
@[simp] theorem softReset_draws (s : State) : (s.softReset).draws = s.draws := rfl
@[simp] theorem softReset_host (s : State) : (s.softReset).host = s.host := rfl
@[simp] theorem softReset_schedule (s : State) : (s.softReset).schedule = s.schedule := rfl

/-! ### `hardReset` -/

@[simp] theorem hardReset_params (s : State) : (s.hardReset).params = s.params := rfl
@[simp] theorem hardReset_v (s : State) : (s.hardReset).v = s.drawnRegs := rfl
@[simp] theorem hardReset_ctrl (s : State) : (s.hardReset).ctrl = Ctrl.reset := rfl
@[simp] theorem hardReset_status (s : State) : (s.hardReset).status = Status.reset := rfl
@[simp] theorem hardReset_cmd (s : State) : (s.hardReset).cmd = 0 := rfl
@[simp] theorem hardReset_curve (s : State) : (s.hardReset).curve = CurveCtx.reset := rfl
@[simp] theorem hardReset_mont (s : State) : (s.hardReset).mont = MontCtx.reset := rfl
@[simp] theorem hardReset_gtab (s : State) : (s.hardReset).gtab = [] := rfl
@[simp] theorem hardReset_draws (s : State) : (s.hardReset).draws = s.draws + 32 := rfl
@[simp] theorem hardReset_host (s : State) : (s.hardReset).host = s.host := rfl
@[simp] theorem hardReset_schedule (s : State) : (s.hardReset).schedule = s.schedule := rfl

/-! ### `overrun` -/

@[simp] theorem overrun_params (s : State) : (s.overrun).params = s.params := rfl
@[simp] theorem overrun_v (s : State) : (s.overrun).v = s.v := rfl
@[simp] theorem overrun_ctrl (s : State) : (s.overrun).ctrl = s.ctrl := rfl
@[simp] theorem overrun_status (s : State) : (s.overrun).status = { s.status with overrun := true } := rfl
@[simp] theorem overrun_cmd (s : State) : (s.overrun).cmd = s.cmd := rfl
@[simp] theorem overrun_curve (s : State) : (s.overrun).curve = s.curve := rfl
@[simp] theorem overrun_mont (s : State) : (s.overrun).mont = s.mont := rfl
@[simp] theorem overrun_gtab (s : State) : (s.overrun).gtab = s.gtab := rfl
@[simp] theorem overrun_draws (s : State) : (s.overrun).draws = s.draws := rfl
@[simp] theorem overrun_host (s : State) : (s.overrun).host = s.host := rfl
@[simp] theorem overrun_schedule (s : State) : (s.overrun).schedule = s.schedule := rfl

/-! ### `hostGoto` -/

@[simp] theorem hostGoto_params (s : State) (n : Nat) : (s.hostGoto n).params = s.params := rfl
@[simp] theorem hostGoto_v (s : State) (n : Nat) : (s.hostGoto n).v = s.v := rfl
@[simp] theorem hostGoto_ctrl (s : State) (n : Nat) : (s.hostGoto n).ctrl = s.ctrl := rfl
@[simp] theorem hostGoto_status (s : State) (n : Nat) : (s.hostGoto n).status = s.status := rfl
@[simp] theorem hostGoto_cmd (s : State) (n : Nat) : (s.hostGoto n).cmd = s.cmd := rfl
@[simp] theorem hostGoto_curve (s : State) (n : Nat) : (s.hostGoto n).curve = s.curve := rfl
@[simp] theorem hostGoto_mont (s : State) (n : Nat) : (s.hostGoto n).mont = s.mont := rfl
@[simp] theorem hostGoto_gtab (s : State) (n : Nat) : (s.hostGoto n).gtab = s.gtab := rfl
@[simp] theorem hostGoto_draws (s : State) (n : Nat) : (s.hostGoto n).draws = s.draws := rfl
@[simp] theorem hostGoto_host (s : State) (n : Nat) : (s.hostGoto n).host = { s.host with pc := n, word := 0 } := rfl
@[simp] theorem hostGoto_schedule (s : State) (n : Nat) : (s.hostGoto n).schedule = s.schedule := rfl

/-! ### `hostNext` -/

@[simp] theorem hostNext_params (s : State) : (s.hostNext).params = s.params := rfl
@[simp] theorem hostNext_v (s : State) : (s.hostNext).v = s.v := rfl
@[simp] theorem hostNext_ctrl (s : State) : (s.hostNext).ctrl = s.ctrl := rfl
@[simp] theorem hostNext_status (s : State) : (s.hostNext).status = s.status := rfl
@[simp] theorem hostNext_cmd (s : State) : (s.hostNext).cmd = s.cmd := rfl
@[simp] theorem hostNext_curve (s : State) : (s.hostNext).curve = s.curve := rfl
@[simp] theorem hostNext_mont (s : State) : (s.hostNext).mont = s.mont := rfl
@[simp] theorem hostNext_gtab (s : State) : (s.hostNext).gtab = s.gtab := rfl
@[simp] theorem hostNext_draws (s : State) : (s.hostNext).draws = s.draws := rfl
@[simp] theorem hostNext_host (s : State) : (s.hostNext).host = { s.host with pc := s.host.pc + 1, word := 0 } := rfl
@[simp] theorem hostNext_schedule (s : State) : (s.hostNext).schedule = s.schedule := rfl

/-! ### `popTurn` -/

@[simp] theorem popTurn_params (s : State) : (s.popTurn).params = s.params := rfl
@[simp] theorem popTurn_v (s : State) : (s.popTurn).v = s.v := rfl
@[simp] theorem popTurn_ctrl (s : State) : (s.popTurn).ctrl = s.ctrl := rfl
@[simp] theorem popTurn_status (s : State) : (s.popTurn).status = s.status := rfl
@[simp] theorem popTurn_cmd (s : State) : (s.popTurn).cmd = s.cmd := rfl
@[simp] theorem popTurn_curve (s : State) : (s.popTurn).curve = s.curve := rfl
@[simp] theorem popTurn_mont (s : State) : (s.popTurn).mont = s.mont := rfl
@[simp] theorem popTurn_gtab (s : State) : (s.popTurn).gtab = s.gtab := rfl
@[simp] theorem popTurn_draws (s : State) : (s.popTurn).draws = s.draws := rfl
@[simp] theorem popTurn_host (s : State) : (s.popTurn).host = s.host := rfl
@[simp] theorem popTurn_schedule (s : State) : (s.popTurn).schedule = s.schedule.tail := rfl

/-! ### `placeCommand` -/

@[simp] theorem placeCommand_params (s : State) (w : Word) : (s.placeCommand w).params = s.params := rfl
@[simp] theorem placeCommand_v (s : State) (w : Word) : (s.placeCommand w).v = s.v := rfl
@[simp] theorem placeCommand_ctrl (s : State) (w : Word) : (s.placeCommand w).ctrl = s.ctrl := rfl
@[simp] theorem placeCommand_status (s : State) (w : Word) : (s.placeCommand w).status = s.status.accept := rfl
@[simp] theorem placeCommand_cmd (s : State) (w : Word) : (s.placeCommand w).cmd = w := rfl
@[simp] theorem placeCommand_curve (s : State) (w : Word) : (s.placeCommand w).curve = s.curve := rfl
@[simp] theorem placeCommand_mont (s : State) (w : Word) : (s.placeCommand w).mont = s.mont := rfl
@[simp] theorem placeCommand_gtab (s : State) (w : Word) : (s.placeCommand w).gtab = s.gtab := rfl
@[simp] theorem placeCommand_draws (s : State) (w : Word) : (s.placeCommand w).draws = s.draws := rfl
@[simp] theorem placeCommand_host (s : State) (w : Word) : (s.placeCommand w).host = s.host := rfl
@[simp] theorem placeCommand_schedule (s : State) (w : Word) :
    (s.placeCommand w).schedule = Turn.core :: s.schedule := rfl

/-! ### `Status.accept` -/

@[simp] theorem status_accept_busy (t : Status) : (t.accept).busy = true := rfl
@[simp] theorem status_accept_done (t : Status) : (t.accept).done = false := rfl
@[simp] theorem status_accept_err (t : Status) : (t.accept).err = false := rfl
@[simp] theorem status_accept_overrun (t : Status) : (t.accept).overrun = t.overrun := rfl
@[simp] theorem status_accept_ecode (t : Status) : (t.accept).ecode = 0 := rfl
@[simp] theorem status_accept_eq (t : Status) : (t.accept).eq = false := rfl
@[simp] theorem status_accept_valid (t : Status) : (t.accept).valid = false := rfl
@[simp] theorem status_accept_inf (t : Status) : (t.accept).inf = false := rfl
@[simp] theorem status_accept_vrange (t : Status) : (t.accept).vrange = false := rfl
@[simp] theorem status_accept_mctxv (t : Status) : (t.accept).mctxv = t.mctxv := rfl
@[simp] theorem status_accept_curvev (t : Status) : (t.accept).curvev = t.curvev := rfl
@[simp] theorem status_accept_gtabv (t : Status) : (t.accept).gtabv = t.gtabv := rfl

/-! ### `Status.complete` -/

@[simp] theorem status_complete_busy (t : Status) : (t.complete).busy = false := rfl
@[simp] theorem status_complete_done (t : Status) : (t.complete).done = true := rfl
@[simp] theorem status_complete_err (t : Status) : (t.complete).err = t.err := rfl
@[simp] theorem status_complete_overrun (t : Status) : (t.complete).overrun = t.overrun := rfl
@[simp] theorem status_complete_ecode (t : Status) : (t.complete).ecode = t.ecode := rfl
@[simp] theorem status_complete_eq (t : Status) : (t.complete).eq = t.eq := rfl
@[simp] theorem status_complete_valid (t : Status) : (t.complete).valid = t.valid := rfl
@[simp] theorem status_complete_inf (t : Status) : (t.complete).inf = t.inf := rfl
@[simp] theorem status_complete_vrange (t : Status) : (t.complete).vrange = t.vrange := rfl
@[simp] theorem status_complete_mctxv (t : Status) : (t.complete).mctxv = t.mctxv := rfl
@[simp] theorem status_complete_curvev (t : Status) : (t.complete).curvev = t.curvev := rfl
@[simp] theorem status_complete_gtabv (t : Status) : (t.complete).gtabv = t.gtabv := rfl

/-! ### `Status.fail` -/

@[simp] theorem status_fail_busy (t : Status) (e : ErrorCode) : (t.fail e).busy = false := rfl
@[simp] theorem status_fail_done (t : Status) (e : ErrorCode) : (t.fail e).done = true := rfl
@[simp] theorem status_fail_err (t : Status) (e : ErrorCode) : (t.fail e).err = true := rfl
@[simp] theorem status_fail_overrun (t : Status) (e : ErrorCode) : (t.fail e).overrun = t.overrun := rfl
@[simp] theorem status_fail_ecode (t : Status) (e : ErrorCode) : (t.fail e).ecode = e.code := rfl
@[simp] theorem status_fail_eq (t : Status) (e : ErrorCode) : (t.fail e).eq = t.eq := rfl
@[simp] theorem status_fail_valid (t : Status) (e : ErrorCode) : (t.fail e).valid = t.valid := rfl
@[simp] theorem status_fail_inf (t : Status) (e : ErrorCode) : (t.fail e).inf = t.inf := rfl
@[simp] theorem status_fail_vrange (t : Status) (e : ErrorCode) : (t.fail e).vrange = t.vrange := rfl
@[simp] theorem status_fail_mctxv (t : Status) (e : ErrorCode) : (t.fail e).mctxv = t.mctxv := rfl
@[simp] theorem status_fail_curvev (t : Status) (e : ErrorCode) : (t.fail e).curvev = t.curvev := rfl
@[simp] theorem status_fail_gtabv (t : Status) (e : ErrorCode) : (t.fail e).gtabv = t.gtabv := rfl

/-! ### `Status.setFlags` -/

@[simp] theorem status_setFlags_busy (t : Status) (w : Writes) : (t.setFlags w).busy = t.busy := rfl
@[simp] theorem status_setFlags_done (t : Status) (w : Writes) : (t.setFlags w).done = t.done := rfl
@[simp] theorem status_setFlags_err (t : Status) (w : Writes) : (t.setFlags w).err = t.err := rfl
@[simp] theorem status_setFlags_overrun (t : Status) (w : Writes) : (t.setFlags w).overrun = t.overrun := rfl
@[simp] theorem status_setFlags_ecode (t : Status) (w : Writes) : (t.setFlags w).ecode = t.ecode := rfl
@[simp] theorem status_setFlags_eq (t : Status) (w : Writes) : (t.setFlags w).eq = w.eq.getD t.eq := rfl
@[simp] theorem status_setFlags_valid (t : Status) (w : Writes) : (t.setFlags w).valid = w.valid.getD t.valid := rfl
@[simp] theorem status_setFlags_inf (t : Status) (w : Writes) : (t.setFlags w).inf = w.inf.getD t.inf := rfl
@[simp] theorem status_setFlags_vrange (t : Status) (w : Writes) : (t.setFlags w).vrange = w.vrange.getD t.vrange := rfl
@[simp] theorem status_setFlags_mctxv (t : Status) (w : Writes) : (t.setFlags w).mctxv = (w.mont.isSome || t.mctxv) := rfl
@[simp] theorem status_setFlags_curvev (t : Status) (w : Writes) : (t.setFlags w).curvev = (w.curve.isSome || t.curvev) := rfl
@[simp] theorem status_setFlags_gtabv (t : Status) (w : Writes) : (t.setFlags w).gtabv = (w.curve.isSome || t.gtabv) := rfl

/-! ### `Status.hostWrite` -/

@[simp] theorem status_hostWrite_busy (t : Status) (w : Word) : (t.hostWrite w).busy = t.busy := rfl
@[simp] theorem status_hostWrite_done (t : Status) (w : Word) : (t.hostWrite w).done = (t.done && !w.getLsbD 1) := rfl
@[simp] theorem status_hostWrite_err (t : Status) (w : Word) : (t.hostWrite w).err = t.err := rfl
@[simp] theorem status_hostWrite_overrun (t : Status) (w : Word) : (t.hostWrite w).overrun = (t.overrun && !w.getLsbD 3) := rfl
@[simp] theorem status_hostWrite_ecode (t : Status) (w : Word) : (t.hostWrite w).ecode = t.ecode := rfl
@[simp] theorem status_hostWrite_eq (t : Status) (w : Word) : (t.hostWrite w).eq = t.eq := rfl
@[simp] theorem status_hostWrite_valid (t : Status) (w : Word) : (t.hostWrite w).valid = t.valid := rfl
@[simp] theorem status_hostWrite_inf (t : Status) (w : Word) : (t.hostWrite w).inf = t.inf := rfl
@[simp] theorem status_hostWrite_vrange (t : Status) (w : Word) : (t.hostWrite w).vrange = t.vrange := rfl
@[simp] theorem status_hostWrite_mctxv (t : Status) (w : Word) : (t.hostWrite w).mctxv = t.mctxv := rfl
@[simp] theorem status_hostWrite_curvev (t : Status) (w : Word) : (t.hostWrite w).curvev = t.curvev := rfl
@[simp] theorem status_hostWrite_gtabv (t : Status) (w : Word) : (t.hostWrite w).gtabv = t.gtabv := rfl

/-! ### Registers after the updates -/

@[simp] theorem reg_setReg_same (s : State) (i : Reg) (x : Nat) : (s.setReg i x).reg i = x % 2 ^ s.params.width := by
  simp [State.reg]

theorem v_setReg_ne (s : State) {i j : Reg} (x : Nat) (h : j ≠ i) : (s.setReg i x).v[j] = s.v[j] := by
  have h' : i.val ≠ j.val := fun e => h (Fin.ext e.symm)
  simp only [setReg_v, Fin.getElem_fin, Vector.getElem_set, h', if_false]

theorem reg_setReg_ne (s : State) {i j : Reg} (x : Nat) (h : j ≠ i) : (s.setReg i x).reg j = s.reg j := by
  simp only [State.reg, v_setReg_ne s x h]

theorem v_setRegWord_ne (s : State) {i k : Reg} (j : Nat) (w : Word) (h : k ≠ i) :
    (s.setRegWord i j w).v[k] = s.v[k] := by
  have h' : i.val ≠ k.val := fun e => h (Fin.ext e.symm)
  simp only [setRegWord_v, Fin.getElem_fin, Vector.getElem_set, h', if_false]

@[simp] theorem reg_setRegWord_same (s : State) (i : Reg) (j : Nat) (w : Word) :
    (s.setRegWord i j w).reg i = setWord (s.reg i) j w := by
  simp [State.reg]

/-- Each register's content right after hard reset. -/
theorem drawnRegs_get (s : State) (i : Reg) :
    s.drawnRegs[i] = { value := s.drawn i.val % 2 ^ s.params.width, written := 0 } := by
  unfold State.drawnRegs; simp

/-! ### A list of register writes -/

@[simp] theorem setRegs_nil (s : State) : s.setRegs [] = s := rfl

@[simp] theorem setRegs_cons (s : State) (i : Reg) (x : Nat) (rest : List (Reg × Nat)) :
    s.setRegs ((i, x) :: rest) = (s.setReg i x).setRegs rest := rfl

/-- Register writes change `v` alone. -/
theorem setRegs_eq (l : List (Reg × Nat)) (s : State) : s.setRegs l = { s with v := (s.setRegs l).v } := by
  induction l generalizing s with
  | nil => rfl
  | cons x rest ih => rw [setRegs_cons, ih]; rfl

/-- What register writes leave depends on the parameters and the registers alone. -/
theorem v_setRegs_congr {s u : State} (hp : u.params = s.params) (hv : u.v = s.v) (l : List (Reg × Nat)) :
    (u.setRegs l).v = (s.setRegs l).v := by
  induction l generalizing s u with
  | nil => exact hv
  | cons x l ih => exact ih (s := s.setReg x.1 x.2) (u := u.setReg x.1 x.2) hp (by simp [State.setReg, hp, hv])

@[simp] theorem setRegs_params (s : State) (l : List (Reg × Nat)) : (s.setRegs l).params = s.params := by
  rw [setRegs_eq]

/-- A register that no write of the list names keeps its value and its `written` bits. -/
theorem v_setRegs_ne (l : List (Reg × Nat)) (s : State) (j : Reg) (h : ∀ x ∈ l, x.1 ≠ j) :
    (s.setRegs l).v[j] = s.v[j] := by
  induction l generalizing s with
  | nil => rfl
  | cons x rest ih =>
    rw [setRegs_cons, ih _ fun y hy => h y (List.mem_cons_of_mem _ hy)]
    exact v_setReg_ne s x.2 (h x (List.mem_cons_self ..)).symm

/-- The register values after a commit are those after its register writes. -/
@[simp] theorem commit_reg (s : State) (w : Writes) (i : Reg) : (s.commit w).reg i = (s.setRegs w.regs).reg i := rfl

/-- The first register of a span. -/
theorem spanReg_zero (r : Reg) : spanReg r 0 = r := by
  ext; simp [spanReg]

end Sys2Proof.Machine
end

