-- ==== Sys2Proof/Laws/Exec.lean ====
section
/-! SUPPORT. What a command's completion can be, said once: `exec` is `runCommand` around the command's own rule, and
`runCommand` ends in success, an error or the fault UnwrittenOperand (30_encoding.md R113, 60_exceptions.md R350, R353). -/

namespace Sys2Proof.Machine

/-- The rule of each command (R104). -/
def ruleOf (i : Instr) : State → CmdResult :=
  match i with
  | .inv rd rs1 rs2 => ruleInv rd rs1 rs2
  | .mctx rs1 => ruleMctx rs1
  | .tomont rd rs1 => ruleTomont rd rs1
  | .frommont rd rs1 => ruleFrommont rd rs1
  | .mmul rd rs1 rs2 => ruleMmul rd rs1 rs2
  | .mpow rd rs1 rs2 => ruleMpow rd rs1 rs2
  | .gfadd rd rs1 rs2 => ruleGfadd rd rs1 rs2
  | .gfmul rd rs1 rs2 => ruleGfmul rd rs1 rs2
  | .gfred rd rs1 rs2 => ruleGfred rd rs1 rs2
  | .gfmulr rd rs1 rs2 rs3 => ruleGfmulr rd rs1 rs2 rs3
  | .curve rs1 => ruleCurve rs1
  | .padd rd rs1 rs2 => rulePadd rd rs1 rs2
  | .pdbl rd rs1 => rulePdbl rd rs1
  | .peq rs1 rs2 => rulePeq rs1 rs2
  | .j2a rd rs1 => ruleJ2a rd rs1
  | .smul rd rs1 rs2 => smulRule false rd rs1 rs2
  | .smulO rd rs1 rs2 => smulRule true rd rs1 rs2
  | .smulg rd rs2 => ruleSmulg rd rs2
  | .esign rd rs1 rs2 rs3 => ruleEsign rd rs1 rs2 rs3
  | .everify rs1 rs2 rs3 => ruleEverify rs1 rs2 rs3

/-- Every command's meaning is the shared execution around its rule. -/
theorem exec_eq_runCommand (i : Instr) (s : State) : exec i s = s.runCommand i (ruleOf i) := by
  cases i <;> rfl

/-- A command whose span passes V31 completes with ILLEGAL_COMMAND (R106; log 11). -/
theorem runCommand_illformed {s : State} {i : Instr} (rule : State → CmdResult) (h : i.wf = false) :
    s.runCommand i rule = .next (s.raise .illegalCommand) := by
  simp [State.runCommand, h]

/-- A command whose context is not valid completes with NO_CONTEXT (R111). -/
theorem runCommand_noContext {s : State} {i : Instr} (rule : State → CmdResult) (hw : i.wf = true)
    (h : s.contextValid (contextOf i) = false) : s.runCommand i rule = .next (s.raise .noContext) := by
  simp [State.runCommand, hw, h]

/-- A legal command with its context that reads an unwritten word stops the model (R22, R113). -/
theorem runCommand_stops {s : State} {i : Instr} (rule : State → CmdResult) (h : s.readsUnwritten i = true) :
    s.runCommand i rule = .fault .unwrittenOperand := by
  simp only [State.readsUnwritten, Bool.and_eq_true, Bool.not_eq_true'] at h
  simp [State.runCommand, h]

/-- A command whose checks pass completes by its rule (R113). -/
theorem runCommand_ready {s : State} {i : Instr} (rule : State → CmdResult) (hw : i.wf = true)
    (hc : s.contextValid (contextOf i) = true) (hs : s.sourcesWritten i = true) :
    s.runCommand i rule = .next (s.finish (rule s)) := by
  simp [State.runCommand, hw, hc, hs]

/-- What the execution of a command can be (R350, R353): an illegal command, a missing context, the fault, or the rule. -/
theorem runCommand_cases (s : State) (i : Instr) (rule : State → CmdResult) :
    (i.wf = false ∧ s.runCommand i rule = .next (s.raise .illegalCommand)) ∨
      (i.wf = true ∧ s.contextValid (contextOf i) = false ∧ s.runCommand i rule = .next (s.raise .noContext)) ∨
      (s.readsUnwritten i = true ∧ s.runCommand i rule = .fault .unwrittenOperand) ∨
      (i.wf = true ∧ s.contextValid (contextOf i) = true ∧ s.sourcesWritten i = true ∧
        s.runCommand i rule = .next (s.finish (rule s))) := by
  cases hw : i.wf <;> cases hc : s.contextValid (contextOf i) <;> cases hs : s.sourcesWritten i <;>
    simp [State.runCommand, State.readsUnwritten, hw, hc, hs]

/-- What a completed command's next state can be. -/
theorem runCommand_next {s t : State} {i : Instr} {rule : State → CmdResult} (h : s.runCommand i rule = .next t) :
    t = s.raise .illegalCommand ∨ t = s.raise .noContext ∨
      (i.wf = true ∧ s.contextValid (contextOf i) = true ∧ s.sourcesWritten i = true ∧ t = s.finish (rule s)) := by
  rcases runCommand_cases s i rule with ⟨-, e⟩ | ⟨-, -, e⟩ | ⟨-, e⟩ | ⟨hw, hc, hs, e⟩ <;> rw [e] at h
  · exact .inl (by simpa using h.symm)
  · exact .inr (.inl (by simpa using h.symm))
  · cases h
  · exact .inr (.inr ⟨hw, hc, hs, by simpa using h.symm⟩)

/-- The inversion of `exec`: an illegal command, a missing context, or the command's own rule. -/
theorem exec_next {s t : State} {i : Instr} (h : exec i s = .next t) :
    t = s.raise .illegalCommand ∨ t = s.raise .noContext ∨
      (i.wf = true ∧ s.contextValid (contextOf i) = true ∧ s.sourcesWritten i = true ∧ t = s.finish (ruleOf i s)) :=
  runCommand_next (exec_eq_runCommand i s ▸ h)

/-- `exec` of a command that reads an unwritten word stops the model (R22, R113). -/
theorem exec_stops {i : Instr} {s : State} (h : s.readsUnwritten i = true) : exec i s = .fault .unwrittenOperand := by
  rw [exec_eq_runCommand, runCommand_stops _ h]

/-- The two results of a rule, committed (R113). -/
@[simp] theorem finish_ok (s : State) (w : Writes) : s.finish (.ok w) = s.commit w := rfl

@[simp] theorem finish_error (s : State) (e : ErrorCode) (k : Nat) :
    s.finish (.error e k) = (s.takeDraws k).raise e := rfl

/-- Whatever a rule's result, completion leaves the parameters, CTRL, CMD, the host, the schedule and OVERRUN alone,
clears BUSY and sets DONE. -/
theorem finish_frame (s : State) (r : CmdResult) :
    (s.finish r).params = s.params ∧ (s.finish r).ctrl = s.ctrl ∧ (s.finish r).cmd = s.cmd ∧
      (s.finish r).host = s.host ∧ (s.finish r).schedule = s.schedule ∧
      (s.finish r).status.overrun = s.status.overrun ∧ (s.finish r).status.busy = false ∧
      (s.finish r).status.done = true := by
  cases r <;> simp

end Sys2Proof.Machine
end

