-- ==== Sys2Proof/Laws/Group.lean ====
section
/-! SUPPORT. What the group operations can answer: every result's coordinates are residues mod `p`, and the scalar
multiplication and the open outcome each in one inversion lemma (44_point_arith.md R244 to R253, 45_scalar_mul.md
R295). -/

namespace Sys2Proof.Machine

/-- A triple of residues mod `p` (R245). -/
def Jac.reduced (p : Nat) (t : Jac) : Prop := t.x < p ∧ t.y < p ∧ t.z < p

/-- An affine point of residues mod `p`, or the identity (R240). -/
def Aff.reduced (p : Nat) : Aff → Prop
  | .identity => True
  | .pt x y => x < p ∧ y < p

/-- `reduce` gives residues (R245). -/
theorem point_reduced (s : State) (r : Reg) (hp : 0 < s.curve.p) : (s.point r).reduced s.curve.p :=
  ⟨Nat.mod_lt _ hp, Nat.mod_lt _ hp, Nat.mod_lt _ hp⟩

/-- `Canon` keeps residues (R246). -/
theorem canon_reduced {p : Nat} {t : Jac} (hp : 0 < p) (h : t.reduced p) : t.canon.reduced p := by
  unfold Jac.canon
  split
  · exact ⟨hp, hp, hp⟩
  · exact h

/-- `MDBL` gives residues (R252). -/
theorem mdbl_reduced {p : Nat} (hp : 1 < p) (a : Nat) (x y : Int) : (mdbl p a x y).reduced p := by
  have h : ∀ k : Int, zmod k p < p := fun k => zmod_lt k (by omega)
  unfold mdbl
  dsimp only
  split
  · exact ⟨Nat.zero_lt_of_lt hp, Nat.zero_lt_of_lt hp, hp⟩
  · exact ⟨h _, h _, h _⟩

/-- `DBL` gives residues (R253). -/
theorem dbl_reduced {p : Nat} (hp : 1 < p) (a : Nat) (x y z : Int) : (dbl p a x y z).reduced p := by
  have h : ∀ k : Int, zmod k p < p := fun k => zmod_lt k (by omega)
  have h0 : (⟨0, 0, 1⟩ : Jac).reduced p := ⟨Nat.zero_lt_of_lt hp, Nat.zero_lt_of_lt hp, hp⟩
  unfold dbl
  dsimp only
  split
  · exact mdbl_reduced hp _ _ _
  · split
    · exact h0
    · split
      · exact h0
      · exact ⟨h _, h _, h _⟩

/-- `JAdd` of residues gives residues (R247 to R251). -/
theorem jadd_reduced {p : Nat} (hp : 1 < p) (a : Nat) {P Q : Jac} (hP : P.reduced p) (hQ : Q.reduced p) :
    (jadd p a P Q).reduced p := by
  have h : ∀ k : Int, zmod k p < p := fun k => zmod_lt k (by omega)
  unfold jadd
  split
  · exact hQ
  · split
    · exact hP
    · split
      · split
        · unfold mmadd; dsimp only
          split
          · exact mdbl_reduced hp _ _ _
          · exact ⟨h _, h _, h _⟩
        · unfold zadd; dsimp only
          split
          · exact dbl_reduced hp _ _ _ _
          · exact ⟨h _, h _, h _⟩
      · have hm : ∀ x1 y1 z1 x2 y2 : Int, (madd p a x1 y1 z1 x2 y2).reduced p := by
          intro x1 y1 z1 x2 y2
          unfold madd; dsimp only
          split
          · exact mdbl_reduced hp _ _ _
          · exact ⟨h _, h _, h _⟩
        split
        · exact hm _ _ _ _ _
        · split
          · exact hm _ _ _ _ _
          · unfold addg; dsimp only
            split
            · exact dbl_reduced hp _ _ _ _
            · exact ⟨h _, h _, h _⟩

/-- A chord or tangent point is of residues (R241, R242). -/
theorem affLine_reduced {p : Nat} (hp : 0 < p) (lam x1 y1 x2 : Nat) : (affLine p lam x1 y1 x2).reduced p :=
  ⟨zmod_lt _ hp, zmod_lt _ hp⟩

/-- `AffDbl` gives residues (R241). -/
theorem affDbl_reduced {p a : Nat} (hp : 0 < p) {P R : Aff} (h : affDbl p a P = some R) : R.reduced p := by
  unfold affDbl at h
  split at h
  · cases h; trivial
  · split at h
    · cases h; trivial
    · split at h
      · cases h
      · cases h; exact affLine_reduced hp _ _ _ _

/-- `AffAdd` of residues gives residues (R242). -/
theorem affAdd_reduced {p a : Nat} (hp : 0 < p) {P Q R : Aff} (hP : P.reduced p) (hQ : Q.reduced p)
    (h : affAdd p a P Q = some R) : R.reduced p := by
  unfold affAdd at h
  split at h
  · cases h; exact hQ
  · cases h; exact hP
  · split at h
    · cases h; trivial
    · split at h
      · exact affDbl_reduced hp h
      · split at h
        · cases h
        · cases h; exact affLine_reduced hp _ _ _ _

/-- The double-and-add loop keeps residues (R243). -/
theorem affMulLoop_reduced {p a k : Nat} (hp : 0 < p) {P : Aff} (hP : P.reduced p) (i : Nat) {acc R : Aff}
    (hacc : acc.reduced p) (h : affMulLoop p a P k i acc = some R) : R.reduced p := by
  induction i generalizing acc with
  | zero => cases h; exact hacc
  | succ i ih =>
    unfold affMulLoop at h
    split at h
    · cases h
    · rename_i acc' hr
      refine ih ?_ h
      unfold affRound at hr
      split at hr
      · cases hr
      · rename_i d hd
        split at hr
        · exact affAdd_reduced hp (affDbl_reduced hp hd) hP hr
        · cases hr; exact affDbl_reduced hp hd

/-- `AffMul` of a reduced point is reduced (R243). -/
theorem affMul_reduced {p a k : Nat} (hp : 0 < p) {P R : Aff} (hP : P.reduced p) (h : affMul p a k P = some R) :
    R.reduced p :=
  affMulLoop_reduced (acc := .identity) hp hP _ trivial h

/-- A drawn point is of residues (R295; log 7). -/
theorem drawnPoint_reduced {p : Nat} (hp : 0 < p) (d0 d1 d2 : Nat) : (drawnPoint p d0 d1 d2).reduced p := by
  unfold drawnPoint
  split
  · trivial
  · exact ⟨Nat.mod_lt _ hp, Nat.mod_lt _ hp⟩

/-- The triple of a reduced affine point is reduced. -/
theorem triple_reduced {p : Nat} (hp : 1 < p) {P : Aff} (h : P.reduced p) : P.triple.reduced p := by
  cases P with
  | identity => exact ⟨Nat.zero_lt_of_lt hp, Nat.zero_lt_of_lt hp, Nat.zero_lt_of_lt hp⟩
  | pt x y => exact ⟨h.1, h.2, hp⟩

/-- What a scalar multiplication can answer: `AffMul`'s point with no draw, or, for a point of even order, a drawn point
(R295; log 7). -/
theorem scalarMul_some {s : State} {d k : Nat} {P : Aff} {r : Aff × Nat} (h : s.scalarMul d k P = some r) :
    (affMul s.curve.p s.curve.a k P = some r.1 ∧ r.2 = d) ∨
      (orderOpen s.curve.p s.curve.a s.curve.n P = true ∧ r.2 = d + 3 ∧
        r.1 = drawnPoint s.curve.p (s.drawn d) (s.drawn (d + 1)) (s.drawn (d + 2))) := by
  unfold State.scalarMul at h
  split at h
  · cases h
  · rename_i R hR
    split at h
    · rename_i ho
      cases h; exact .inr ⟨ho, rfl, rfl⟩
    · cases h; exact .inl ⟨hR, rfl⟩

/-- A scalar multiplication of a settled point is `AffMul` (R243). -/
theorem scalarMul_closed {s : State} {d k : Nat} {P R : Aff} (h : affMul s.curve.p s.curve.a k P = some R)
    (ho : orderOpen s.curve.p s.curve.a s.curve.n P = false) :
    s.scalarMul d k P = some (R, d) := by
  unfold State.scalarMul
  simp [h, ho]

/-- What an open outcome can be: one of the rule's errors, or a success that writes the given destinations
(R244; log 8). -/
theorem openOutcome_cases (s : State) (d : Nat) (errs : List ErrorCode) (dst : List Reg) (inf valid : Bool) :
    (∃ e ∈ errs, s.openOutcome d errs dst inf valid = .error e (d + 1)) ∨
      ∃ w : Writes, s.openOutcome d errs dst inf valid = .ok w ∧ w.regs.map Prod.fst = dst ∧ w.mont = none ∧
        w.curve = none ∧ w.eq = none ∧ w.inf.isSome = inf ∧ w.valid.isSome = valid ∧ w.vrange.isSome = valid := by
  unfold State.openOutcome
  split
  · rename_i e he
    exact .inl ⟨e, List.mem_of_getElem? he, rfl⟩
  · refine .inr ⟨_, rfl, ?_, rfl, rfl, rfl, ?_, ?_, ?_⟩
    · apply List.ext_getElem <;> simp
    · cases inf <;> rfl
    · cases valid <;> rfl
    · cases valid <;> rfl

/-- EVERIFY's computation writes no register, whatever it meets (R326, R244). -/
theorem verifySum_cases (s : State) (u1 u2 r : Nat) (Q : Aff) :
    (∃ d, verifySum s u1 u2 r Q = s.openVerify d) ∨
      ∃ v d, verifySum s u1 u2 r Q = .ok { valid := some v, draws := d } := by
  unfold verifySum
  split
  · exact .inl ⟨_, rfl⟩
  · split
    · exact .inl ⟨_, rfl⟩
    · split
      · exact .inl ⟨_, rfl⟩
      · exact .inr ⟨_, _, rfl⟩

end Sys2Proof.Machine
end

