-- ==== Sys2Proof/Laws/Order.lean ====
section
/-! SUPPORT. The search through the multiples of a point is right and complete (45_scalar_mul.md R295; log 7). -/

namespace Sys2Proof.Machine

/-- Two runs of double-and-add, one after the other. -/
theorem multipleFrom_append (add : Aff → Aff → Option Aff) (p a : Nat) (P : Aff) (l m : List Bool) (Q : Aff) :
    multipleFrom add p a P (l ++ m) Q = (multipleFrom add p a P l Q).bind (multipleFrom add p a P m) := by
  induction l generalizing Q with
  | nil => rfl
  | cons b l ih =>
    simp only [List.cons_append, multipleFrom]
    cases multipleStep add p a P Q b with
    | none => rfl
    | some R => exact ih R

/-- What follows a multiple in the search. -/
theorem mem_nextMultiples {add : Aff → Aff → Option Aff} {p a : Nat} {P Q R : Aff} :
    R ∈ nextMultiples add p a P Q ↔ ∃ b, multipleStep add p a P Q b = some R := by
  simp [nextMultiples]

/-- A search that succeeds has found a point with the goal, among those with any property that `next` keeps. -/
theorem searchFrom_found {next : Aff → List Aff} {goal : Aff → Bool} {S : Aff → Prop}
    (hn : ∀ Q, S Q → ∀ R ∈ next Q, S R) (fuel : Nat) {todo seen : List Aff} (ht : ∀ Q ∈ todo, S Q)
    (h : searchFrom next goal fuel todo seen = true) : ∃ Q, S Q ∧ goal Q = true := by
  induction fuel generalizing todo seen with
  | zero => cases h
  | succ fuel ih =>
    cases todo with
    | nil => cases h
    | cons Q todo =>
      have hQ := ht Q (List.mem_cons_self ..)
      have ht' : ∀ R ∈ todo, S R := fun R hR => ht R (List.mem_cons_of_mem _ hR)
      unfold searchFrom at h
      split at h
      · exact ⟨Q, hQ, ‹_›⟩
      · split at h
        · exact ih ht' h
        · refine ih (fun R hR => ?_) h
          rcases List.mem_append.mp hR with hR | hR
          · exact hn Q hQ R hR
          · exact ht' R hR

/-- A search that fails, with fuel for every point of a finite set that `next` keeps, has looked at everything: nothing
that `next` leads to from `todo` has the goal. -/
theorem searchFrom_complete {next : Aff → List Aff} {goal : Aff → Bool} {U : Finset Aff}
    (hn : ∀ Q ∈ U, ∀ R ∈ next Q, R ∈ U) (h2 : ∀ Q, (next Q).length ≤ 2) (fuel : Nat) {todo seen : List Aff}
    (ht : ∀ Q ∈ todo, Q ∈ U) (hs : ∀ Q ∈ seen, Q ∈ U) (hf : todo.length + 2 * (U \ seen.toFinset).card < fuel)
    (hc : ∀ Q ∈ seen, goal Q = false ∧ ∀ R ∈ next Q, R ∈ todo ∨ R ∈ seen)
    (h : searchFrom next goal fuel todo seen = false) :
    ∃ all : List Aff, (∀ Q ∈ todo, Q ∈ all) ∧ (∀ Q ∈ seen, Q ∈ all) ∧
      ∀ Q ∈ all, goal Q = false ∧ ∀ R ∈ next Q, R ∈ all := by
  induction fuel generalizing todo seen with
  | zero => omega
  | succ fuel ih =>
    cases todo with
    | nil => exact ⟨seen, by simp, fun _ hQ => hQ, fun Q hQ => ⟨(hc Q hQ).1, fun R hR => by simpa using (hc Q hQ).2 R hR⟩⟩
    | cons Q todo =>
      unfold searchFrom at h
      have hQU := ht Q (List.mem_cons_self ..)
      have ht' : ∀ R ∈ todo, R ∈ U := fun R hR => ht R (List.mem_cons_of_mem _ hR)
      rw [List.length_cons] at hf
      split at h
      · cases h
      · rename_i hg
        split at h
        · rename_i hQs
          obtain ⟨all, a1, a2, a3⟩ := ih ht' hs (by omega) (fun R hR => ⟨(hc R hR).1, fun T hT => by
            rcases (hc R hR).2 T hT with hT | hT
            · rcases List.mem_cons.mp hT with rfl | hT
              · exact .inr hQs
              · exact .inl hT
            · exact .inr hT⟩) h
          refine ⟨all, fun R hR => ?_, a2, a3⟩
          rcases List.mem_cons.mp hR with rfl | hR
          · exact a2 _ hQs
          · exact a1 R hR
        · rename_i hQs
          have hcard : (U \ (Q :: seen).toFinset).card + 1 = (U \ seen.toFinset).card := by
            have he : U \ (Q :: seen).toFinset = (U \ seen.toFinset).erase Q := by
              ext x; simp only [Finset.mem_sdiff, List.mem_toFinset, List.mem_cons, Finset.mem_erase]; tauto
            rw [he, Finset.card_erase_add_one]
            simp [hQU, hQs]
          obtain ⟨all, a1, a2, a3⟩ := ih (todo := next Q ++ todo) (seen := Q :: seen)
            (fun R hR => (List.mem_append.mp hR).elim (hn Q hQU R) (ht' R))
            (fun R hR => (List.mem_cons.mp hR).elim (fun e => e ▸ hQU) (hs R))
            (by rw [List.length_append]; have := h2 Q; omega)
            (fun R hR => by
              rcases List.mem_cons.mp hR with rfl | hR
              · exact ⟨by simpa using hg, fun T hT => .inl (List.mem_append_left _ hT)⟩
              · refine ⟨(hc R hR).1, fun T hT => ?_⟩
                rcases (hc R hR).2 T hT with hT | hT
                · rcases List.mem_cons.mp hT with rfl | hT
                  · exact .inr (List.mem_cons_self ..)
                  · exact .inl (List.mem_append_right _ hT)
                · exact .inr (List.mem_cons_of_mem _ hT)) h
          exact ⟨all, fun R hR => (List.mem_cons.mp hR).elim (fun e => e ▸ a2 Q (List.mem_cons_self ..))
            fun hR => a1 R (List.mem_append_right _ hR), fun R hR => a2 R (List.mem_cons_of_mem _ hR), a3⟩

/-- The reduced affine points and the identity, a finite set. -/
def affPoints (p : Nat) : Finset Aff :=
  insert .identity ((Finset.range p ×ˢ Finset.range p).image fun c => .pt c.1 c.2)

/-- A point is among them exactly when it is reduced (R240). -/
theorem mem_affPoints {p : Nat} {Q : Aff} : Q ∈ affPoints p ↔ Q.reduced p := by
  cases Q <;> simp [affPoints, Aff.reduced]

/-- There are at most `p^2 + 1` of them. -/
theorem card_affPoints_le (p : Nat) : (affPoints p).card ≤ p * p + 1 := by
  refine (Finset.card_insert_le _ _).trans (Nat.add_le_add_right (Finset.card_image_le.trans ?_) 1)
  simp

/-- `properAdd` of residues gives residues. -/
theorem properAdd_reduced {p a : Nat} (hp : 0 < p) {P Q R : Aff} (hP : P.reduced p) (hQ : Q.reduced p)
    (h : properAdd p a P Q = some R) : R.reduced p := by
  unfold properAdd at h
  split at h
  · cases h; exact hQ
  · cases h; exact hP
  · split at h
    · cases h
    · exact affAdd_reduced hp hP hQ h

/-- The search through the multiples is exact: it succeeds exactly when some multiple has the goal. -/
theorem searchMultiples_iff {add : Aff → Aff → Option Aff} {p a : Nat} {P : Aff} {goal : Aff → Bool} (hp : 0 < p)
    (hadd : ∀ Q R, Q.reduced p → add Q P = some R → R.reduced p) :
    searchMultiples add p a P goal = true ↔
      ∃ bits Q, multipleFrom add p a P bits .identity = some Q ∧ goal Q = true := by
  constructor
  · intro h
    obtain ⟨Q, ⟨bits, hb⟩, hg⟩ := searchFrom_found (S := fun Q => ∃ bits, multipleFrom add p a P bits .identity = some Q)
      (fun Q ⟨bits, hb⟩ R hR => by
        obtain ⟨b, hR⟩ := mem_nextMultiples.mp hR
        exact ⟨bits ++ [b], by simp [multipleFrom_append, hb, multipleFrom, hR]⟩)
      _ (fun Q hQ => ⟨[], by simp_all [multipleFrom]⟩) h
    exact ⟨bits, Q, hb, hg⟩
  · rintro ⟨bits, Q, hb, hg⟩
    by_contra h
    obtain ⟨all, h1, -, h3⟩ := searchFrom_complete (U := affPoints p) (next := nextMultiples add p a P) (goal := goal)
      (todo := [.identity]) (seen := [])
      (fun Q hQ R hR => by
        obtain ⟨b, hR⟩ := mem_nextMultiples.mp hR
        rw [mem_affPoints]
        unfold multipleStep at hR
        obtain ⟨d, hd, hR⟩ := Option.bind_eq_some_iff.mp hR
        have hdr := affDbl_reduced hp hd
        split at hR
        · exact hadd d R hdr hR
        · cases hR; exact hdr)
      (fun Q => (List.length_filterMap_le ..).trans (by simp)) (2 * (p * p + 1) + 2)
      (fun Q hQ => mem_affPoints.mpr (by rw [List.mem_singleton] at hQ; subst hQ; trivial)) (by simp)
      (by have := card_affPoints_le p; simp; omega) (by simp) (by simpa [searchMultiples] using h)
    have hall : ∀ (bits : List Bool) (T : Aff), T ∈ all → multipleFrom add p a P bits T = some Q → Q ∈ all := by
      intro bits
      induction bits with
      | nil => intro T hT h; cases h; exact hT
      | cons b bits ih =>
        intro T hT h
        obtain ⟨R, hR, h⟩ := Option.bind_eq_some_iff.mp h
        exact ih R ((h3 T hT).2 R (mem_nextMultiples.mpr ⟨b, hR⟩)) h
    have := (h3 Q (hall bits _ (h1 _ (List.mem_singleton_self _)) hb)).1
    simp [hg] at this

/-- The last bit of a scalar is its parity. -/
theorem scalarBits_eq (k : Nat) (h : k % 2 = 1) : ∃ bits, scalarBits k = bits ++ [true] := by
  have hk : bitlen k ≠ 0 := by
    have : k ≠ 0 := by omega
    simp [bitlen, this]
  obtain ⟨m, hm⟩ := Nat.exists_eq_succ_of_ne_zero hk
  refine ⟨((List.range m).map Nat.succ).reverse.map k.testBit, ?_⟩
  have h0 : k.testBit 0 = true := by simp [h]
  rw [scalarBits, hm, Nat.succ_eq_add_one, List.range_succ_eq_map]
  simp [h0]

/-- `orderOpen` is exact: the result of a scalar multiplication of `P` is settled exactly when `P` has no multiple of
order 2 or has odd order (R294, R295; log 7), whatever `C.N` holds. -/
theorem orderOpen_eq_false_iff {p a : Nat} (n : Nat) {P : Aff} (hp : 0 < p) (hP : P.reduced p) :
    orderOpen p a n P = false ↔ OddOrder p a P := by
  have h1 := searchMultiples_iff (a := a) (P := P) (goal := Aff.orderTwo) (add := affAdd p a) hp
    fun Q R hQ h => affAdd_reduced hp hQ hP h
  have h2 := searchMultiples_iff (a := a) (P := P) (add := properAdd p a)
    (goal := fun Q => multipleStep (properAdd p a) p a P Q true == some .identity) hp
    fun Q R hQ h => properAdd_reduced hp hQ hP h
  have hodd : hasOddOrder p a P = true ↔
      ∃ bits, multipleFrom (properAdd p a) p a P (bits ++ [true]) .identity = some .identity := by
    unfold hasOddOrder
    rw [h2]
    constructor
    · rintro ⟨bits, Q, hb, hg⟩
      exact ⟨bits, by simpa [multipleFrom_append, hb, multipleFrom] using hg⟩
    · rintro ⟨bits, hb⟩
      rw [multipleFrom_append] at hb
      obtain ⟨Q, hQ, hb⟩ := Option.bind_eq_some_iff.mp hb
      exact ⟨bits, Q, hQ, by simpa [multipleFrom] using hb⟩
  have htwo : searchMultiples (affAdd p a) p a P Aff.orderTwo = true ↔
      ∃ bits x, multipleFrom (affAdd p a) p a P bits .identity = some (.pt x 0) := by
    rw [h1]
    constructor
    · rintro ⟨bits, Q, hb, hg⟩
      cases Q with
      | identity => cases hg
      | pt x y => exact ⟨bits, x, by rw [hb, show y = 0 by simpa [Aff.orderTwo] using hg]⟩
    · rintro ⟨bits, x, hb⟩
      exact ⟨bits, _, hb, rfl⟩
  unfold orderOpen OddOrder
  split
  · rename_i hn
    obtain ⟨bits, hb⟩ := scalarBits_eq n hn.1
    exact ⟨fun _ => .inr ⟨bits, hb ▸ hn.2⟩, fun _ => rfl⟩
  · rw [← hodd]
    cases ho : hasOddOrder p a P with
    | true => simp
    | false =>
      cases ht : searchMultiples (affAdd p a) p a P Aff.orderTwo with
      | false =>
        have := mt htwo.mpr (by simp [ht])
        push Not at this
        simpa using this
      | true =>
        obtain ⟨bits, x, hb⟩ := htwo.mp ht
        simpa using ⟨bits, x, hb⟩

end Sys2Proof.Machine
end

