-- ==== Sys2Proof/Laws/PerInstr.lean ====
section
/-! SUPPORT. Statements made per instruction. `OpcodePlace`: the OP field of a command's word is its opcode (R101,
R104). -/

namespace Sys2Proof.Laws.OpcodePlace

/-- Bits [31:26] of the command's word are its opcode. -/
def Statement (i : Instr) : Prop := (encode i).toNat / 2 ^ 26 = i.op.code.val

/-- The sum of R101 keeps the opcode in its top six bits. -/
theorem toWord_op (f : Fields) : f.toWord.toNat / 2 ^ 26 = f.op.val := by
  have h0 := f.op.isLt; have h1 := f.rd.isLt; have h2 := f.rs1.isLt
  have h3 := f.rs2.isLt; have h4 := f.rs3.isLt; have h5 := f.fn.isLt
  simp only [Fields.toWord, BitVec.toNat_ofNat]
  omega

theorem inv (rd rs1 rs2 : Reg) : Statement (.inv rd rs1 rs2) := toWord_op _
theorem mctx (rs1 : Reg) : Statement (.mctx rs1) := toWord_op _
theorem tomont (rd rs1 : Reg) : Statement (.tomont rd rs1) := toWord_op _
theorem frommont (rd rs1 : Reg) : Statement (.frommont rd rs1) := toWord_op _
theorem mmul (rd rs1 rs2 : Reg) : Statement (.mmul rd rs1 rs2) := toWord_op _
theorem mpow (rd rs1 rs2 : Reg) : Statement (.mpow rd rs1 rs2) := toWord_op _
theorem gfadd (rd rs1 rs2 : Reg) : Statement (.gfadd rd rs1 rs2) := toWord_op _
theorem gfmul (rd rs1 rs2 : Reg) : Statement (.gfmul rd rs1 rs2) := toWord_op _
theorem gfred (rd rs1 rs2 : Reg) : Statement (.gfred rd rs1 rs2) := toWord_op _
theorem gfmulr (rd rs1 rs2 rs3 : Reg) : Statement (.gfmulr rd rs1 rs2 rs3) := toWord_op _
theorem curve (rs1 : Reg) : Statement (.curve rs1) := toWord_op _
theorem padd (rd rs1 rs2 : Reg) : Statement (.padd rd rs1 rs2) := toWord_op _
theorem pdbl (rd rs1 : Reg) : Statement (.pdbl rd rs1) := toWord_op _
theorem peq (rs1 rs2 : Reg) : Statement (.peq rs1 rs2) := toWord_op _
theorem j2a (rd rs1 : Reg) : Statement (.j2a rd rs1) := toWord_op _
theorem smul (rd rs1 rs2 : Reg) : Statement (.smul rd rs1 rs2) := toWord_op _
theorem smulO (rd rs1 rs2 : Reg) : Statement (.smulO rd rs1 rs2) := toWord_op _
theorem smulg (rd rs2 : Reg) : Statement (.smulg rd rs2) := toWord_op _
theorem esign (rd rs1 rs2 rs3 : Reg) : Statement (.esign rd rs1 rs2 rs3) := toWord_op _
theorem everify (rs1 rs2 rs3 : Reg) : Statement (.everify rs1 rs2 rs3) := toWord_op _

end Sys2Proof.Laws.OpcodePlace
end

