-- ==== Sys2Proof/Laws/Ready.lean ====
section
/-! SUPPORT. From a command's rule to its completion: what `exec` answers once the shared checks pass, and what a commit
of one, two or three register writes leaves (30_encoding.md R113, R114). -/

namespace Sys2Proof

open Machine

/-- A ready command whose rule succeeds commits its writes. -/
theorem exec_of_ok {s : State} {i : Instr} {w : Writes} (h : Ready s i) (hr : ruleOf i s = .ok w) :
    exec i s = .next (s.commit w) := by
  rw [exec_eq_runCommand, runCommand_ready _ h.1 h.2.1 h.2.2, hr, finish_ok]

/-- A ready command whose rule raises, before any free value is taken, completes with that code. -/
theorem exec_of_error {s : State} {i : Instr} {e : ErrorCode} (h : Ready s i) (hr : ruleOf i s = .error e 0) :
    ErrorsWith i s e.code := by
  unfold ErrorsWith
  rw [exec_eq_runCommand, runCommand_ready _ h.1 h.2.1 h.2.2, hr]
  rfl

/-- A command without its context completes with NO_CONTEXT. -/
theorem exec_noContext {s : State} {i : Instr} (hw : i.wf = true) (h : s.contextValid (contextOf i) = false) :
    ErrorsWith i s 10 := by
  unfold ErrorsWith
  rw [exec_eq_runCommand, runCommand_noContext _ hw h]
  rfl

/-- A register just written has all its words written (R31). -/
theorem regWritten_setReg_same (s : State) (i : Reg) (x : Nat) : (s.setReg i x).regWritten i = true := by
  simp [State.regWritten]

/-- Writing another register keeps a register's written bits. -/
theorem regWritten_setReg_ne (s : State) {i j : Reg} (x : Nat) (h : j ≠ i) :
    (s.setReg i x).regWritten j = s.regWritten j := by
  simp only [State.regWritten, v_setReg_ne s x h, setReg_params]

/-- The next register of a span that fits is another one (R102). -/
theorem spanReg_ne {r : Reg} {j k : Nat} (h : r.val + j < 32) (h' : r.val + k < 32) (hjk : j ≠ k) :
    spanReg r j ≠ spanReg r k := by
  intro he
  have := congrArg Fin.val he
  simp only [spanReg, Fin.ofNat] at this
  omega

/-- A commit that only writes registers. -/
theorem commit_regs_eq (s : State) (l : List (Reg × Nat)) :
    s.commit { regs := l } = { s with v := (s.setRegs l).v, status := doneStatus s } := rfl

/-- One register write: only that register and STATUS change, and the register holds the value (R113). -/
theorem commit_one {s : State} {rd : Reg} {x : Nat} (hx : x < 2 ^ s.params.width) :
    OnlyRegs [rd] (doneStatus s) s (s.commit (oneWrite rd x)) ∧ (s.commit (oneWrite rd x)).reg rd = x := by
  refine ⟨⟨rfl, ?_, ?_⟩, ?_⟩
  · intro r hr
    exact v_setReg_ne s x (by simpa using hr)
  · intro r hr
    rw [List.mem_singleton] at hr
    subst hr
    exact regWritten_setReg_same s r x
  · simp [oneWrite, Nat.mod_eq_of_lt hx]

/-- Two writes to a pair that fits (R113). -/
theorem commit_two {s : State} {rd : Reg} {x y : Nat} (hf : rd.val + 1 < 32) (hx : x < 2 ^ s.params.width)
    (hy : y < 2 ^ s.params.width) :
    OnlyRegs [rd, spanReg rd 1] (doneStatus s) s (s.commit { regs := [(rd, x), (spanReg rd 1, y)] }) ∧
      (s.commit { regs := [(rd, x), (spanReg rd 1, y)] }).reg rd = x ∧
      (s.commit { regs := [(rd, x), (spanReg rd 1, y)] }).reg (spanReg rd 1) = y := by
  have hne : rd ≠ spanReg rd 1 := by
    have := spanReg_ne (r := rd) (j := 0) (k := 1) (by omega) hf (by omega)
    rwa [spanReg_zero] at this
  refine ⟨⟨rfl, ?_, ?_⟩, ?_, ?_⟩
  · intro r hr
    simp only [List.mem_cons, List.not_mem_nil, or_false, not_or] at hr
    change ((s.setReg rd x).setReg (spanReg rd 1) y).v[r] = s.v[r]
    rw [v_setReg_ne _ y hr.2, v_setReg_ne _ x hr.1]
  · intro r hr
    simp only [List.mem_cons, List.not_mem_nil, or_false] at hr
    change ((s.setReg rd x).setReg (spanReg rd 1) y).regWritten r = true
    rcases hr with rfl | rfl
    · rw [regWritten_setReg_ne _ y hne, regWritten_setReg_same]
    · rw [regWritten_setReg_same]
  · change ((s.setReg rd x).setReg (spanReg rd 1) y).reg rd = x
    rw [reg_setReg_ne _ y hne, reg_setReg_same, Nat.mod_eq_of_lt hx]
  · change ((s.setReg rd x).setReg (spanReg rd 1) y).reg (spanReg rd 1) = y
    rw [reg_setReg_same, setReg_params, Nat.mod_eq_of_lt hy]

/-- The three writes of a point result that fits and is of residues below `2^W` (R246, R113): the triple's canonical form
is written, INF is set exactly for an infinite one, and `k` free values are counted. -/
theorem commit_point {s : State} {rd : Reg} {t : Jac} {p k : Nat} (hf : rd.val + 2 < 32) (hp : 0 < p)
    (hW : p ≤ 2 ^ s.params.width) (ht : t.reduced p) :
    (s.commit { pointWrites rd t with draws := k } =
      { s with v := (s.commit { pointWrites rd t with draws := k }).v,
               status := { doneStatus s with inf := t.isInf }, draws := s.draws + k }) ∧
      (∀ r : Reg, r ∉ spanRegs rd 3 → (s.commit { pointWrites rd t with draws := k }).v[r] = s.v[r]) ∧
      (∀ r ∈ spanRegs rd 3, (s.commit { pointWrites rd t with draws := k }).regWritten r = true) ∧
      HoldsPoint (s.commit { pointWrites rd t with draws := k }) rd t.canon := by
  obtain ⟨hx, hy, hz⟩ := canon_reduced hp ht
  have h01 : rd ≠ spanReg rd 1 := by
    have := spanReg_ne (r := rd) (j := 0) (k := 1) (by omega) (by omega) (by omega)
    rwa [spanReg_zero] at this
  have h02 : rd ≠ spanReg rd 2 := by
    have := spanReg_ne (r := rd) (j := 0) (k := 2) (by omega) (by omega) (by omega)
    rwa [spanReg_zero] at this
  have h12 : spanReg rd 1 ≠ spanReg rd 2 := spanReg_ne (by omega) (by omega) (by omega)
  have hspan : spanRegs rd 3 = [rd, spanReg rd 1, spanReg rd 2] := by
    simp [spanRegs, List.range_succ, spanReg_zero]
  refine ⟨rfl, ?_, ?_, ?_, ?_, ?_⟩
  · intro r hr
    rw [hspan] at hr
    simp only [List.mem_cons, List.not_mem_nil, or_false, not_or] at hr
    change (((s.setReg rd t.canon.x).setReg (spanReg rd 1) t.canon.y).setReg (spanReg rd 2) t.canon.z).v[r] = s.v[r]
    rw [v_setReg_ne _ _ hr.2.2, v_setReg_ne _ _ hr.2.1, v_setReg_ne _ _ hr.1]
  · intro r hr
    rw [hspan] at hr
    simp only [List.mem_cons, List.not_mem_nil, or_false] at hr
    change (((s.setReg rd t.canon.x).setReg (spanReg rd 1) t.canon.y).setReg (spanReg rd 2) t.canon.z).regWritten r = true
    rcases hr with rfl | rfl | rfl
    · rw [regWritten_setReg_ne _ _ h02, regWritten_setReg_ne _ _ h01, regWritten_setReg_same]
    · rw [regWritten_setReg_ne _ _ h12, regWritten_setReg_same]
    · rw [regWritten_setReg_same]
  · change (((s.setReg rd t.canon.x).setReg (spanReg rd 1) t.canon.y).setReg (spanReg rd 2) t.canon.z).reg rd = _
    rw [reg_setReg_ne _ _ h02, reg_setReg_ne _ _ h01, reg_setReg_same, Nat.mod_eq_of_lt (hx.trans_le hW)]
  · change (((s.setReg rd t.canon.x).setReg (spanReg rd 1) t.canon.y).setReg (spanReg rd 2) t.canon.z).reg (spanReg rd 1) = _
    rw [reg_setReg_ne _ _ h12, reg_setReg_same, setReg_params, Nat.mod_eq_of_lt (hy.trans_le hW)]
  · change (((s.setReg rd t.canon.x).setReg (spanReg rd 1) t.canon.y).setReg (spanReg rd 2) t.canon.z).reg (spanReg rd 2) = _
    rw [reg_setReg_same, setReg_params, setReg_params, Nat.mod_eq_of_lt (hz.trans_le hW)]

/-- A register that a list of writes names holds a W-bit value with every word written (R31, R113). -/
theorem setRegs_written (l : List (Reg × Nat)) (s : State) {r : Reg} (h : r ∈ l.map Prod.fst) :
    (s.setRegs l).regWritten r = true ∧ (s.setRegs l).reg r < 2 ^ s.params.width := by
  induction l generalizing s with
  | nil => simp at h
  | cons x l ih =>
    by_cases hm : r ∈ l.map Prod.fst
    · exact ih (s.setReg x.1 x.2) hm
    · have hx : r = x.1 := by simpa [hm] using h
      subst hx
      have hne : ((s.setReg x.1 x.2).setRegs l).v[x.1] = (s.setReg x.1 x.2).v[x.1] :=
        v_setRegs_ne l _ x.1 fun y hy he => hm (he ▸ List.mem_map_of_mem hy)
      constructor
      · change ((s.setReg x.1 x.2).setRegs l).regWritten x.1 = true
        have h0 := regWritten_setReg_same s x.1 x.2
        simp only [State.regWritten, hne, setRegs_params] at h0 ⊢
        exact h0
      · change ((s.setReg x.1 x.2).setRegs l).v[x.1].value < _
        rw [hne]
        simp [State.setReg, Nat.mod_lt]

/-- A ready point-writing command whose rule answers with an open outcome completes in the way R244 leaves open. -/
theorem exec_of_openOutcome {s : State} {i : Instr} {errs : List ErrorCode} {cs : List (BitVec 4)} {rs : List Reg}
    (hR : Ready s i) (hcs : ∀ e ∈ errs, e.code ∈ cs) (hr : ruleOf i s = s.openOutcome 0 errs rs true false) :
    OpenOutcome i s cs rs := by
  rcases openOutcome_cases s 0 errs rs true false with ⟨e, he, h⟩ | ⟨w, h, h1, h2, h3, h4, h5, h6, h7⟩
  · refine ⟨(s.takeDraws 1).raise e, ?_, rfl, .inl ⟨e.code, hcs e he, rfl, rfl⟩⟩
    rw [exec_eq_runCommand, runCommand_ready _ hR.1 hR.2.1 hR.2.2, hr, h]
    rfl
  · refine ⟨_, exec_of_ok hR (hr.trans h), ?_, .inr ⟨?_, ?_, ?_⟩⟩
    · simp [State.commit, h2, h3]
    · exact fun r hr => v_setRegs_ne _ s r fun x hx he => hr (h1 ▸ he ▸ List.mem_map_of_mem hx)
    · intro r hr
      have hw := setRegs_written w.regs s (h1 ▸ hr)
      simp only [State.regWritten, setRegs_params] at hw
      exact hw
    · have h6 : w.valid = none := by simpa using h6
      have h7 : w.vrange = none := by simpa using h7
      simp [State.commit, Status.setFlags, Status.complete, h2, h3, h4, h6, h7, doneStatus]

end Sys2Proof
end

