-- ==== Sys2Proof/Laws/Run.lean ====
section
/-! SUPPORT. What a run does next, said once: it takes the step's next state, or records the step's fault and stays
(60_exceptions.md R356, 70_reset_and_hazards.md R413). -/

namespace Sys2Proof

open Machine

@[simp] theorem start_state (s : State) : (Run.start s).state = s := rfl
@[simp] theorem start_fault (s : State) : (Run.start s).fault = none := rfl

/-- A run starts clean where no command is in flight (R414). -/
theorem cleanEntry_start {s : State} (h : s.status.busy = false) : CleanEntry (Run.start s) := ⟨h, rfl⟩

/-- A step that answers a next state takes the run there. -/
theorem run_next_of_next {s t : State} (h : step s = .next t) : (Run.start s).next = Run.start t := by
  simp [Run.next, Run.start, h]

/-- A step that faults ends the run where it was, the fault recorded. -/
theorem run_next_of_fault {s : State} {f : Fault} (h : step s = .fault f) :
    (Run.start s).next = { state := s, fault := some f } := by
  simp [Run.next, Run.start, h]

/-- A run with a fault recorded moves no more (R22, R356). -/
theorem run_steps_of_fault (s : State) (f : Fault) (k : Nat) :
    Run.steps k { state := s, fault := some f } = { state := s, fault := some f } := by
  induction k with
  | zero => rfl
  | succ k ih => exact ih

end Sys2Proof
end

