-- ==== Sys2Proof/Laws/Step.lean ====
section
/-! SUPPORT. What one step can be, said once: the core's, the host's or the platform's (00_scope.md R4, 20_memory.md
R82, R83). -/

namespace Sys2Proof.Machine

/-- The three agents' steps. -/
theorem step_eq (s : State) : step s = s.popTurn.stepOf s.nextTurn := rfl

/-- The core's step with a legal command in flight is that command's meaning. -/
theorem coreStep_legal {s : State} {i : Instr} (hb : s.status.busy = true) (hd : decode s.cmd = .ok i) :
    s.coreStep = exec i s := by
  simp [State.coreStep, hb, hd]

/-- The core's step with an illegal word in flight is ILLEGAL_COMMAND (R109). -/
theorem coreStep_illegal {s : State} {e : Illegal} (hb : s.status.busy = true) (hd : decode s.cmd = .error e) :
    s.coreStep = .next (s.raise .illegalCommand) := by
  simp [State.coreStep, hb, hd]

/-- An idle core's turn changes nothing. -/
theorem coreStep_idle {s : State} (hb : s.status.busy = false) : s.coreStep = .next s := by
  simp [State.coreStep, hb]

/-- What the core's step can leave. -/
theorem coreStep_next {s t : State} (h : s.coreStep = .next t) :
    t = s ∨ t = s.raise .illegalCommand ∨ ∃ i, decode s.cmd = .ok i ∧ exec i s = .next t := by
  unfold State.coreStep at h
  split at h
  · split at h
    · rename_i i hd; exact .inr (.inr ⟨i, hd, h⟩)
    · exact .inr (.inl (by simpa using h.symm))
  · exact .inl (by simpa using h.symm)

/-- A host read that answers: the address is in the window, and only the count of draws may have moved. -/
theorem memRead_some {s t : State} {off size : Nat} {w : Word} (h : s.memRead off size = some (w, t)) :
    badAccess off size = false ∧ (t = s ∨ t = s.takeDraws 1) := by
  unfold State.memRead at h
  split at h
  · cases h
  · rename_i hb
    refine ⟨by simpa using hb, ?_⟩
    split at h
    · right; simp only [Option.some.injEq, Prod.mk.injEq] at h; exact h.2.symm
    · left; simp only [Option.some.injEq, Prod.mk.injEq] at h; exact h.2.symm

/-- A host write that answers is the write at its place (R83). -/
theorem memWrite_some {s t : State} {off size : Nat} {w : Word} (h : s.memWrite off size w = some t) :
    badAccess off size = false ∧ t = s.writePlace (placeAt off) w := by
  unfold State.memWrite at h
  split at h
  · cases h
  · rename_i hb
    exact ⟨by simpa using hb, by simpa using h.symm⟩

/-- What a write at a place can leave. -/
theorem writePlace_cases (s : State) (pl : WindowPlace) (w : Word) :
    s.writePlace pl w = s ∨ s.writePlace pl w = s.softReset ∨
      s.writePlace pl w = { s with ctrl := s.ctrl.hostWrite w } ∨
      s.writePlace pl w = { s with status := s.status.hostWrite w } ∨
      s.writePlace pl w = s.overrun ∨ (s.status.busy = false ∧ s.writePlace pl w = s.accept w) ∨
      ∃ i j, j < wordCount s.params ∧ s.status.busy = false ∧ s.writePlace pl w = s.setRegWord i j w := by
  cases pl with
  | ctrl => unfold State.writePlace; dsimp only; split <;> simp
  | status => simp [State.writePlace]
  | cmd => unfold State.writePlace; dsimp only; split <;> simp_all
  | vword i j =>
    unfold State.writePlace; dsimp only
    split
    · simp
    · split
      · rename_i hb hj
        exact .inr (.inr (.inr (.inr (.inr (.inr ⟨i, j, hj, by simpa using hb, rfl⟩)))))
      · simp
  | id => simp [State.writePlace]
  | param => simp [State.writePlace]
  | mbl => simp [State.writePlace]
  | cword c j => simp [State.writePlace]
  | reserved => simp [State.writePlace]

/-- A bus read that goes on: some window read answered. -/
theorem busRead_next {s t : State} {addr size : Nat} {use : Word → State → State}
    (h : s.busRead addr size use = .next t) :
    ∃ off w u, s.memRead off size = some (w, u) ∧ t = use w u := by
  unfold State.busRead at h
  split at h
  · cases h
  · split at h
    · cases h
    · rename_i off _ _ w u hm
      exact ⟨off, w, u, hm, by simpa using h.symm⟩

/-- A bus write that goes on: some window write answered. -/
theorem busWrite_next {s t : State} {addr size : Nat} {w : Word} {after : State → State}
    (h : s.busWrite addr size w after = .next t) :
    ∃ off u, s.memWrite off size w = some u ∧ t = after u := by
  unfold State.busWrite at h
  split at h
  · cases h
  · split at h
    · cases h
    · rename_i off _ _ u hm
      exact ⟨off, u, hm, by simpa using h.symm⟩

/-- The host's own part of its step touches only the host agent. -/
theorem hostNextWord_eq (s : State) : ∃ a, s.hostNextWord = { s with host := a } := by
  unfold State.hostNextWord
  split
  · exact ⟨_, rfl⟩
  · exact ⟨_, rfl⟩

theorem hostPoll_eq (w : Word) (s : State) : ∃ a, State.hostPoll w s = { s with host := a } := by
  unfold State.hostPoll
  dsimp only
  split
  · exact ⟨_, rfl⟩
  · exact ⟨_, rfl⟩

/-- What a host step can leave: up to the host agent itself, the state as it was, one more draw, or one window
write. -/
theorem hostStep_next {s t : State} (h : s.hostStep = .next t) :
    ∃ u a, t = { u with host := a } ∧
      (u = s ∨ u = s.takeDraws 1 ∨ ∃ off w, s.memWrite off 4 w = some u) := by
  unfold State.hostStep at h
  split at h
  · exact ⟨s, s.host, by simpa using h.symm, .inl rfl⟩
  · rename_i line _
    have rd : ∀ {off size w u} {a : HostAgent}, s.memRead off size = some (w, u) → t = { u with host := a } →
        ∃ u a, t = { u with host := a } ∧ (u = s ∨ u = s.takeDraws 1 ∨ ∃ off w, s.memWrite off 4 w = some u) :=
      fun hm ht => ⟨_, _, ht, (memRead_some hm).2.imp_right .inl⟩
    have wr : ∀ {off size w u} {a : HostAgent}, s.memWrite off size w = some u → t = { u with host := a } →
        ∃ u a, t = { u with host := a } ∧ (u = s ∨ u = s.takeDraws 1 ∨ ∃ off w, s.memWrite off 4 w = some u) := by
      intro off size w u a hm ht
      have hs : size = 4 := by
        have := (memWrite_some hm).1
        simp only [badAccess, Bool.or_eq_false_iff, bne_eq_false_iff_eq] at this
        exact this.1.1
      exact ⟨_, _, ht, .inr (.inr ⟨off, w, hs ▸ hm⟩)⟩
    unfold State.runLine at h
    cases line with
    | memRead addr size =>
      obtain ⟨off, w, u, hm, ht⟩ := busRead_next h
      exact rd hm ht
    | memWrite addr size w =>
      obtain ⟨off, u, hm, ht⟩ := busWrite_next h
      exact wr hm ht
    | command i =>
      obtain ⟨off, u, hm, ht⟩ := busWrite_next h
      exact wr hm ht
    | li n imm =>
      obtain ⟨off, u, hm, ht⟩ := busWrite_next h
      obtain ⟨a, ha⟩ := hostNextWord_eq u
      exact wr hm (ht.trans ha)
    | rdv n =>
      obtain ⟨off, w, u, hm, ht⟩ := busRead_next h
      obtain ⟨a, ha⟩ := hostNextWord_eq (State.hostAssemble w u)
      exact rd (a := a) hm (ht.trans ha)
    | rdc c =>
      obtain ⟨off, w, u, hm, ht⟩ := busRead_next h
      obtain ⟨a, ha⟩ := hostNextWord_eq (State.hostAssemble w u)
      exact rd (a := a) hm (ht.trans ha)
    | wait =>
      obtain ⟨off, w, u, hm, ht⟩ := busRead_next h
      obtain ⟨a, ha⟩ := hostPoll_eq w u
      exact rd hm (ht.trans ha)
    | clr =>
      obtain ⟨off, u, hm, ht⟩ := busWrite_next h
      exact wr hm ht
    | srst =>
      obtain ⟨off, u, hm, ht⟩ := busWrite_next h
      exact wr hm ht
    | jif f value label =>
      simp only [Host.Outcome.next.injEq] at h
      exact ⟨s, _, h.symm, .inl rfl⟩
    | jmp label =>
      simp only [Host.Outcome.next.injEq] at h
      exact ⟨s, _, h.symm, .inl rfl⟩

/-- What a step can leave: a hard reset, the core's step, or the host's, each with the turn taken. -/
theorem step_next {s t : State} (h : step s = .next t) :
    t = s.popTurn.hardReset ∨ s.popTurn.coreStep = .next t ∨ s.popTurn.hostStep = .next t := by
  unfold step State.stepOf at h
  split at h
  · exact .inr (.inl h)
  · exact .inr (.inr h)
  · exact .inl (by simpa using h.symm)

end Sys2Proof.Machine
end

