-- ==== Sys2Proof/Tests/Slice0.lean ====
section
/-! SUPPORT. Tests on fixed values and a witness for every statement's hypotheses. Expected values are the spec's
(95_test_vectors.md and the worked examples of the rules named), or worked out by hand from its rules. -/

namespace Sys2Proof.Tests

open Sys2Proof.Machine

-- The kernel evaluations below one after another: side by side each holds a thread of its own.
set_option Elab.async false

/-! ### Small states -/

/-- Whether an outcome is a next state that passes a check. -/
def nextSat (o : Host.Outcome State Fault Refusal) (p : State → Bool) : Bool :=
  match o with
  | .next t => p t
  | .fault _ => false
  | .refused _ => false

/-- Whether an outcome is this fault. -/
def faultsWith (o : Host.Outcome State Fault Refusal) (f : Fault) : Bool :=
  match o with
  | .next _ => false
  | .fault g => g == f
  | .refused _ => false

/-- A passed check is a next state with the property. -/
theorem nextSat_spec {o : Host.Outcome State Fault Refusal} {p : State → Bool} (h : nextSat o p = true) :
    ∃ t, o = .next t ∧ p t = true := by
  cases o with
  | next t => exact ⟨t, rfl, h⟩
  | fault _ => cases h
  | refused _ => cases h

/-- The reset state after a host has written 0 to every word of every operand register (R396). -/
def blank : State := { State.reset with v := Vector.replicate 32 { value := 0, written := allWritten Params.spec } }

/-- A state with registers loaded. -/
def load (s : State) (l : List (Reg × Nat)) : State := s.setRegs l

/-- STATUS and some registers after the command of a word. -/
def runs (s : State) (w : Nat) (status : Nat) (l : List (Reg × Nat)) : Bool :=
  nextSat (step (s.withFetchWord 32 w)) fun t => t.status.word.toNat == status && l.all fun x => t.reg x.1 == x.2

/-- The toy curve of 95_test_vectors.md section 2.4 loaded: 127 points, so every finite point has order 127. -/
def toy : State :=
  { blank with
    status := { Status.reset with curvev := true, gtabv := true }
    curve := ⟨109, 2, 4, 1, 0, 2, 127⟩
    gtab := buildTable 109 2 0 2 127 }

/-- The toy curve with another order in its descriptor, which CURVE does not check (R395). -/
def toyOrder (n : Nat) : State :=
  { toy with curve := ⟨109, 2, 4, 1, 0, 2, n⟩, gtab := buildTable 109 2 0 2 n }

/-- The composite curve of 95_test_vectors.md section 2.4. -/
def composite : State :=
  { toy with curve := ⟨15, 0, 0, 1, 1, 1, 7⟩, gtab := buildTable 15 0 1 1 7 }

/-- `y^2 = x^3 + 1` mod 7, where `G = (1, 3)` has order 6: `3·G = (3, 0)`. -/
def evenCurve : State :=
  { toy with curve := ⟨7, 0, 1, 2, 1, 3, 6⟩, gtab := buildTable 7 0 1 3 6 }

/-- The Montgomery context of 97 (95_test_vectors.md section 2.2). -/
def mont97 : State :=
  { blank with status := { Status.reset with mctxv := true }, mont := ⟨97, 64, 35, 35⟩ }

/-- The composite curve with `G` in `v0` to `v2` and a scalar whose double-and-add meets no inverse. -/
def compositeOpen : State := load composite [(0, 1), (1, 1), (2, 1), (9, 3)]

/-- A state with JAC_REPR = class. -/
def inClass (s : State) : State := { s with params := { s.params with jacRepr := .projClass } }

/-- The invariant is a finite check. -/
def decInv (s : State) : Decidable (Inv s) := by
  have h1 : Decidable (RegsOk s) := by unfold RegsOk; infer_instance
  have h2 : Decidable (CtrlOk s) := by unfold CtrlOk; infer_instance
  have h3 : Decidable (StatusOk s.status) := by unfold StatusOk; infer_instance
  have h4 : Decidable (MontOk s) := by unfold MontOk; infer_instance
  have h5 : Decidable (CurveOk s) := by unfold CurveOk; infer_instance
  unfold Inv
  infer_instance

/-- A state that passes the check meets the invariant. -/
theorem inv_of_check {s : State} (h : @decide (Inv s) (decInv s) = true) : Inv s := @of_decide_eq_true _ (decInv s) h

/-! ### Well-formedness and decoding -/

/-- Each check of `Instr.wf` refuses a span that passes V31 and accepts the one that ends there (R105, R106). -/
theorem test_wf_spans :
    (Instr.gfmul 30 0 0).wf = true ∧ (Instr.gfmul 31 0 0).wf = false ∧ (Instr.gfred 0 30 0).wf = true ∧
      (Instr.gfred 0 31 0).wf = false ∧ (Instr.curve 25).wf = true ∧ (Instr.curve 26).wf = false ∧
      (Instr.padd 29 29 29).wf = true ∧ (Instr.padd 30 0 0).wf = false ∧ (Instr.padd 0 30 0).wf = false ∧
      (Instr.padd 0 0 30).wf = false ∧ (Instr.pdbl 30 0).wf = false ∧ (Instr.pdbl 0 30).wf = false ∧
      (Instr.peq 30 0).wf = false ∧ (Instr.peq 0 30).wf = false ∧ (Instr.j2a 30 0).wf = false ∧
      (Instr.j2a 0 30).wf = false ∧ (Instr.smul 30 0 31).wf = false ∧ (Instr.smul 29 30 31).wf = false ∧
      (Instr.smulO 30 0 31).wf = false ∧ (Instr.smulO 29 30 31).wf = false ∧ (Instr.smulg 29 31).wf = true ∧
      (Instr.smulg 30 31).wf = false ∧ (Instr.esign 30 31 31 31).wf = true ∧ (Instr.esign 31 0 0 0).wf = false ∧
      (Instr.everify 29 31 30).wf = true ∧ (Instr.everify 30 0 0).wf = false ∧ (Instr.everify 0 0 31).wf = false := by
  decide

/-- Words of 95_test_vectors.md sections 2.1 to 2.4 (R101, R104). -/
theorem test_decode_field_commands :
    decode 0x04400800 = .ok (.inv 2 0 1) ∧ decode 0x10000000 = .ok (.mctx 0) ∧ decode 0x14410000 = .ok (.tomont 2 1) ∧
      decode 0x18610000 = .ok (.frommont 3 1) ∧ decode 0x1C611000 = .ok (.mmul 3 1 2) ∧
      decode 0x20611000 = .ok (.mpow 3 1 2) ∧ decode 0x30400800 = .ok (.gfadd 2 0 1) ∧
      decode 0x34800800 = .ok (.gfmul 4 0 1) ∧ decode 0x38C41000 = .ok (.gfred 6 4 2) ∧
      decode 0x3C600880 = .ok (.gfmulr 3 0 1 2) ∧ decode 0x40140000 = .ok (.curve 20) := by
  decide

/-- Words of 95_test_vectors.md sections 2.5 to 2.7 and 3 (R101, R103, R104). -/
theorem test_decode_point_commands :
    decode 0x50C01800 = .ok (.padd 6 0 3) ∧ decode 0x54C00000 = .ok (.pdbl 6 0) ∧ decode 0x58001800 = .ok (.peq 0 3) ∧
      decode 0x60600000 = .ok (.j2a 3 0) ∧ decode 0x70604800 = .ok (.smul 3 0 9) ∧
      decode 0x70604801 = .ok (.smulO 3 0 9) ∧ decode 0x74604800 = .ok (.smulg 3 9) ∧
      decode 0x814110C0 = .ok (.esign 10 1 2 3) ∧ decode 0x84041280 = .ok (.everify 4 2 10) := by
  decide

/-- Words written out bit by bit from R101's layout: OP, RD, RS1, RS2, RS3, FN. -/
theorem test_decode_bits :
    decode 0b000001_11111_00001_00010_00000_000000 = .ok (.inv 31 1 2) ∧
      decode 0b000111_00101_00011_00100_00000_000000 = .ok (.mmul 5 3 4) ∧
      decode 0b001101_00110_00000_00001_00000_000000 = .ok (.gfmul 6 0 1) ∧
      decode 0b010000_00000_10100_00000_00000_000000 = .ok (.curve 20) ∧
      decode 0b010100_00110_01001_10000_00000_000000 = .ok (.padd 6 9 16) ∧
      decode 0b011100_01101_00000_01100_00000_000001 = .ok (.smulO 13 0 12) ∧
      decode 0b100000_01010_00001_00010_00011_000000 = .ok (.esign 10 1 2 3) := by
  decide

/-- Illegal words (R106 to R108; 95_test_vectors.md section 2.8). -/
theorem test_decode_illegal :
    decode 0x00000000 = .error .unassignedOpcode ∧ decode 0xFFFFFFFF = .error .unassignedOpcode ∧
      decode 0x04600801 = .error .reservedField ∧ decode 0x70201802 = .error .reservedField ∧
      decode 0x10220000 = .error .reservedField ∧ decode 0x53C01800 = .error .spanOverflow ∧
      decode 0x401A0000 = .error .spanOverflow := by
  decide

/-- The encoder against words of 95_test_vectors.md section 3. -/
theorem test_encode :
    encode (.mmul 5 3 4) = 0x1CA32000 ∧ encode (.frommont 9 8) = 0x19280000 ∧ encode (.smulO 13 0 12) = 0x71A06001 ∧
      encode (.smulg 16 12) = 0x76006000 ∧ encode (.peq 6 13) = 0x58066800 ∧ encode (.gfmulr 9 0 1 2) = 0x3D200880 := by
  decide

/-- A text in either case, and one with a wrong number of operands (R115). -/
theorem test_assemble :
    assemble ['S', 'M', 'U', 'L', '.', 'O', ' ', 'v', '1', '3', ',', ' ', 'v', '0', ',', ' ', 'v', '1', '2'] =
        some (.smulO 13 0 12) ∧
      assemble ['m', 'c', 't', 'x', ' ', 'v', '0'] = some (.mctx 0) ∧
      assemble ['M', 'C', 'T', 'X', ' ', 'v', '0', ',', 'v', '1'] = none ∧
      assemble ['I', 'N', 'V', ' ', 'v', '3', '2', ',', 'v', '0', ',', 'v', '1'] = none := by
  decide +kernel

/-! ### Each command on a vector of 95_test_vectors.md -/

theorem test_inv : runs (load blank [(0, 3), (1, 7)]) 0x04400800 0x0002 [(2, 5)] = true := by decide +kernel

theorem test_inv_errors :
    runs (load blank [(0, 2), (1, 4)]) 0x04400800 0x0096 [(2, 0)] = true ∧
      runs (load blank [(0, 0), (1, 0)]) 0x04400800 0x0026 [(2, 0)] = true := by decide +kernel

theorem test_mctx :
    nextSat (step ((load blank [(0, 97)]).withFetchWord 32 0x10000000)) (fun t =>
      t.status.word == 0x1002 && t.mont == ⟨97, 64, 35, 35⟩) = true := by decide +kernel

theorem test_mctx_full_width :
    nextSat (step ((load blank [(0, 2 ^ 576 - 1)]).withFetchWord 32 0x10000000)) (fun t =>
      t.mont == ⟨2 ^ 576 - 1, 576, 1, 1⟩) = true ∧
    runs (load mont97 [(0, 2)]) 0x10000000 0x1026 [] = true := by decide +kernel

theorem test_tomont : runs (load mont97 [(1, 98)]) 0x14410000 0x1002 [(2, 61)] = true := by decide +kernel

theorem test_frommont : runs (load mont97 [(1, 2 ^ 575)]) 0x18610000 0x1002 [(3, 66)] = true := by decide +kernel

theorem test_mmul : runs (load mont97 [(1, 14), (2, 39)]) 0x1C611000 0x1002 [(3, 1)] = true := by decide +kernel

theorem test_mpow :
    runs (load mont97 [(1, 200), (2, 2)]) 0x20611000 0x1002 [(3, 96)] = true ∧
      runs (load mont97 [(1, 0), (2, 0)]) 0x20611000 0x1002 [(3, 61)] = true := by decide +kernel

theorem test_gfadd : runs (load blank [(0, 0x53), (1, 0xCA)]) 0x30400800 0x0002 [(2, 0x99)] = true := by
  decide +kernel

theorem test_gfmul : runs (load blank [(0, 2 ^ 576 - 1), (1, 3)]) 0x34800800 0x0002 [(4, 1), (5, 1)] = true := by
  decide +kernel

theorem test_gfred :
    runs (load blank [(4, 0x3F7E), (5, 0), (2, 0x11B)]) 0x38C41000 0x0002 [(6, 1)] = true ∧
      runs (load blank [(4, 0x3F7E), (5, 0), (2, 0x11A)]) 0x38C41000 0x0046 [(6, 0)] = true := by decide +kernel

theorem test_gfmulr : runs (load blank [(0, 0x57), (1, 0x83), (2, 0x11B)]) 0x3C600880 0x0002 [(3, 0xC1)] = true := by
  decide +kernel

theorem test_gfmulr_163 :
    runs (load blank [(0, 2 ^ 162), (1, 2 ^ 162), (2, 2 ^ 163 + 2 ^ 7 + 2 ^ 6 + 2 ^ 3 + 1)]) 0x3C600880 0x0002
      [(3, 0x20000000000000000000000000000000000001422)] = true := by decide +kernel

theorem test_curve :
    nextSat (step ((load blank [(20, 109), (21, 111), (22, 222), (23, 1), (24, 0), (25, 2), (26, 127)]).withFetchWord
      32 0x40140000)) (fun t => t.status.word == 0x6002 && t.curve == ⟨109, 2, 4, 1, 0, 2, 127⟩ &&
        t.gtab.take 4 == [some (.pt 0 2), some (.pt 82 66), some (.pt 83 90), some (.pt 86 76)]) = true := by
  decide +kernel

theorem test_curve_error : runs (load toy [(20, 109), (21, 2), (22, 4), (23, 1), (24, 0), (25, 3), (26, 127)]) 0x40140000
    0x6086 [] = true := by decide +kernel

theorem test_padd :
    runs (load toy [(0, 4), (1, 82), (2, 4), (3, 5), (4, 66), (5, 2)]) 0x50C01800 0x6002 [(6, 100), (7, 97), (8, 43)] = true ∧
      runs (load toy [(0, 0), (1, 2), (2, 1), (3, 0), (4, 107), (5, 1)]) 0x50C01800 0x6402 [(6, 0), (7, 0), (8, 0)] = true := by
  decide +kernel

/-- The destination overlaps a source: sources are read before any result is written (R114). -/
theorem test_padd_overlap :
    runs (load toy [(0, 0), (1, 2), (2, 1), (3, 82), (4, 66), (5, 1)]) 0x50001800 0x6002 [(0, 68), (1, 43), (2, 55)] = true := by
  decide +kernel

theorem test_pdbl : runs (load toy [(0, 4), (1, 82), (2, 4)]) 0x54C00000 0x6002 [(6, 5), (7, 66), (8, 2)] = true := by
  decide +kernel

theorem test_peq :
    runs (load toy [(0, 4), (1, 82), (2, 4), (3, 82), (4, 66), (5, 1)]) 0x58001800 0x6102 [] = true ∧
      runs (load toy [(0, 0), (1, 2), (2, 4), (3, 0), (4, 2), (5, 1)]) 0x58001800 0x6002 [] = true := by decide +kernel

theorem test_j2a : runs (load toy [(0, 200), (1, 300), (2, 5)]) 0x60600000 0x6002 [(3, 8), (4, 46), (5, 1)] = true := by
  decide +kernel

theorem test_j2a_error : runs (load composite [(0, 1), (1, 1), (2, 3)]) 0x60600000 0x6096 [(3, 0)] = true := by decide +kernel

theorem test_smul : runs (load toy [(0, 4), (1, 82), (2, 4), (9, 3)]) 0x70604800 0x6002 [(3, 84), (4, 104), (5, 1)] = true := by
  decide +kernel

theorem test_smul_full_width :
    runs (load toy [(0, 0), (1, 2), (2, 1), (9, 2 ^ 576 - 1)]) 0x70604800 0x6002 [(3, 54), (4, 17), (5, 1)] = true := by
  decide +kernel

theorem test_smulO : runs (load toy [(0, 0), (1, 2), (2, 1), (9, 259)]) 0x70604801 0x6002 [(3, 51), (4, 70), (5, 1)] = true := by
  decide +kernel

theorem test_smulO_error : runs (load toy [(0, 1), (1, 1), (2, 1), (9, 0)]) 0x70604801 0x6086 [(3, 0)] = true := by
  decide +kernel

theorem test_smulg : runs (load toy [(9, 253)]) 0x74604800 0x6002 [(3, 0), (4, 107), (5, 1)] = true := by decide +kernel

theorem test_smulg_identity : runs (load toy [(9, 254)]) 0x74604800 0x6402 [(3, 0), (4, 0), (5, 0)] = true := by
  decide +kernel

theorem test_esign : runs (load toy [(1, 7), (2, 227), (3, 10)]) 0x814110C0 0x6002 [(10, 29), (11, 43)] = true := by
  decide +kernel

theorem test_esign_errors :
    runs (load toy [(1, 7), (2, 100), (3, 1)]) 0x814110C0 0x6056 [(10, 0), (11, 0)] = true ∧
      runs (load (toyOrder 126) [(1, 7), (2, 100), (3, 2)]) 0x814110C0 0x6096 [(10, 0)] = true := by decide +kernel

theorem test_everify :
    runs (load toy [(4, 97), (5, 91), (6, 2), (2, 100), (10, 29), (11, 43)]) 0x84041280 0x6202 [] = true ∧
      runs (load toy [(4, 106), (5, 25), (6, 1), (2, 101), (10, 29), (11, 43)]) 0x84041280 0x6002 [] = true := by
  decide +kernel

theorem test_everify_range :
    runs (load toy [(4, 0), (5, 0), (6, 0), (2, 100), (10, 0), (11, 43)]) 0x84041280 0x6802 [] = true ∧
      runs (load toy [(4, 0), (5, 0), (6, 0), (2, 100), (10, 29), (11, 43)]) 0x84041280 0x6086 [] = true := by decide +kernel

/-- An illegal word and a missing context (95_test_vectors.md program P5, steps 1 and 2). -/
theorem test_error_completion :
    runs State.reset 0x50C01800 0x00A6 [] = true ∧ runs State.reset 0x00000000 0x0016 [] = true := by decide +kernel

/-! ### The host, reset and the informative algorithms -/

/-- Program P5, steps 5 to 7: MCTX accepted, a V write ignored with OVERRUN, then the completion. -/
theorem test_overrun :
    ((((load blank [(0, 97)]).memWrite 0x0010 4 0x10000000).bind fun s => s.memWrite 0x1080 4 5).map fun s =>
      s.status.word.toNat) = some 0x0009 ∧
    nextSat (exec (.mctx 0) ((load blank [(0, 97)]).accept 0x10000000).overrun)
      (fun t => t.status.word == 0x100A) = true := by decide +kernel

/-- R34, R35, R51: ID, PARAM and CTRL as a host reads them after reset. -/
theorem test_reset_reads :
    (State.reset.memRead 0x0000 4).map Prod.fst = some 0x45430100 ∧
      (State.reset.memRead 0x0004 4).map Prod.fst = some (BitVec.ofNat 32 (576 + 32 * 2 ^ 16 + 2 ^ 22)) ∧
      (State.reset.memRead 0x0008 4).map Prod.fst = some 0x40 := by decide +kernel

/-- R413: a host at program P2's last line, a jump to itself, has done its last access; one that jumps to an access has
not. -/
theorem test_last_access :
    LastAccessDone { HostAgent.empty with prog := [.clr, .jmp 1], pc := 1 } ∧
      ¬ LastAccessDone { HostAgent.empty with prog := [.jmp 1, .clr] } := by
  refine ⟨fun k => ?_, fun h => absurd (h 1) (by decide)⟩
  induction k with
  | zero => rfl
  | succ k ih => exact ih

/-- R293, R297: the window and table evaluations agree with `AffMul` on a scalar. -/
theorem test_naf_and_table :
    nafEvaluate 109 2 (.pt 0 2) (naf 4 253) = affMul 109 2 253 (.pt 0 2) ∧
      tableEvaluate 109 2 toy.gtab 253 .identity = affMul 109 2 253 (.pt 0 2) := by decide +kernel

/-! ### Witnesses: encoding -/

theorem test_witness_DecodeEncodeRoundTrip : (Instr.padd 29 0 29).wf = true ∧ (Instr.smulO 29 29 31).wf = true := by decide

theorem test_witness_UnassignedOpcodesRefused :
    (0x00000000 : Word).toNat / 2 ^ 26 ∉ [0x01, 0x04, 0x05, 0x06, 0x07, 0x08, 0x0C, 0x0D, 0x0E, 0x0F, 0x10, 0x14, 0x15,
        0x16, 0x18, 0x1C, 0x1D, 0x20, 0x21] ∧
      (0x88000000 : Word).toNat / 2 ^ 26 ∉ [0x01, 0x04, 0x05, 0x06, 0x07, 0x08, 0x0C, 0x0D, 0x0E, 0x0F, 0x10, 0x14, 0x15,
        0x16, 0x18, 0x1C, 0x1D, 0x20, 0x21] ∧
      (0xFFFFFFFF : Word).toNat / 2 ^ 26 ∉ [0x01, 0x04, 0x05, 0x06, 0x07, 0x08, 0x0C, 0x0D, 0x0E, 0x0F, 0x10, 0x14, 0x15,
        0x16, 0x18, 0x1C, 0x1D, 0x20, 0x21] := by decide

/-! ### Witnesses: issue, the agents, the window -/

/-- INV in flight, with zeros in its operands. -/
def invInFlight : State := blank.accept 0x04400800

/-- MCTX in flight, the host's turn next. -/
def mctxInFlight : State := { blank.accept 0x10000000 with schedule := [.host] }

theorem test_witness_CmdWriteIssuesOrOverruns :
    State.reset.status.busy = false ∧ invInFlight.status.busy = true := by decide

theorem test_witness_StepRunsDecodedCommand :
    invInFlight.nextTurn = .core ∧ invInFlight.status.busy = true ∧ decode invInFlight.cmd = .ok (.inv 2 0 1) := by decide

/-- The turn can also stand in the schedule. -/
theorem test_witness_StepRunsDecodedCommand_scheduled :
    (State.reset.withFetchWord 32 0x10000000).nextTurn = .core ∧
      (State.reset.withFetchWord 32 0x10000000).status.busy = true ∧
      decode (State.reset.withFetchWord 32 0x10000000).cmd = .ok (.mctx 0) := by decide

theorem test_witness_IllegalWordCompletesWithError :
    State.reset.status.busy = false ∧ decode 0x53C01800 = .error .spanOverflow ∧
      (State.reset.accept 0x53C01800).nextTurn = .core ∧
      (State.reset.accept 0x53C01800).status.busy = true ∧
      decode (State.reset.accept 0x53C01800).cmd = .error .spanOverflow := by decide

theorem test_witness_PlacedWordRunsNext : decode 0x84041280 = .ok (.everify 4 2 10) := by decide

/-- The first word, the last of `W/32 = 18`, the first past it and the last of the window's row. -/
theorem test_witness_ContextWindowReads :
    State.reset.status.busy = false ∧ ∀ j ∈ [0, 17, 18, 31], j < 32 := by decide

/-- A write to a context word or to MBL while a command is in flight is ignored and sets no OVERRUN (R74, R81). -/
theorem test_context_write_in_flight :
    (invInFlight.memWrite 0x2000 4 1).map (fun t => t.status.overrun) = some false ∧
      (invInFlight.memWrite 0x0014 4 1).map (fun t => t.status.overrun) = some false := by decide

theorem test_witness_FixedRegistersRead : State.reset.params.legal = true := by decide

theorem test_witness_ReservedOffsetsInert :
    ∀ off ∈ [0x0018, 0x0FFC, 0x2500, 0x3FFC],
      off % 4 = 0 ∧ ((0x0018 ≤ off ∧ off < 0x1000) ∨ (0x2500 ≤ off ∧ off < 0x4000)) := by decide

theorem test_witness_BadAccessStops :
    ∀ x ∈ [(0x0000, 2), (0x0000, 8), (0x0002, 4), (0x3FFF, 4), (0x4000, 4)],
      x.2 ≠ 4 ∨ x.1 % 4 ≠ 0 ∨ 0x4000 ≤ x.1 := by decide

theorem test_witness_BusyAccessDrawsAndOverruns :
    invInFlight.status.busy = true ∧ invInFlight.cmd.toNat / 2 ^ 26 ≠ 0x04 ∧ mctxInFlight.status.busy = true ∧
      mctxInFlight.cmd.toNat / 2 ^ 26 = 0x04 ∧
      (∀ off ∈ [0x1000, 0x1FFC, 0x2000, 0x24FC], off % 4 = 0 ∧ 0x1000 ≤ off ∧ off < 0x2500) ∧
      ∀ off ∈ [0x0010, 0x1000, 0x1FFC], off % 4 = 0 ∧ ((0x1000 ≤ off ∧ off < 0x2000) ∨ off = 0x0010) := by decide

theorem test_reset_inv : Inv State.reset := inv_of_check (by decide +kernel)

theorem test_witness_RegisterWindowWords :
    Inv State.reset ∧ State.reset.status.busy = false ∧ (∀ j ∈ [0, 17], j < 32 ∧ j < State.reset.params.width / 32) ∧
      (∀ j ∈ [18, 31], j < 32 ∧ State.reset.params.width / 32 ≤ j) ∧ (31 : Reg) ≠ 0 := ⟨test_reset_inv, by decide⟩

/-- SRST = 0 with NAFW at the ends of its range and just outside it. -/
theorem test_witness_StatusAndCtrlWrites :
    ((0x20 : Word).getLsbD 0 = false ∧ 2 ≤ (0x20 : Word).toNat / 2 ^ 4 % 16 ∧ (0x20 : Word).toNat / 2 ^ 4 % 16 ≤ 8) ∧
      ((0x82 : Word).getLsbD 0 = false ∧ 2 ≤ (0x82 : Word).toNat / 2 ^ 4 % 16 ∧ (0x82 : Word).toNat / 2 ^ 4 % 16 ≤ 8) ∧
      ((0x12 : Word).getLsbD 0 = false ∧ (0x12 : Word).toNat / 2 ^ 4 % 16 < 2) ∧
      ((0x90 : Word).getLsbD 0 = false ∧ 8 < (0x90 : Word).toNat / 2 ^ 4 % 16) := by decide

theorem test_witness_SoftResetKeepsOperands : (0x00000001 : Word).getLsbD 0 = true := by decide

theorem test_witness_HardResetClears :
    ({ State.reset with schedule := [.hardReset] } : State).nextTurn = .hardReset := by decide

theorem test_witness_IrqFollowsDoneAndIe :
    (∃ t, exec (.inv 2 0 1) invInFlight = .next t ∧ t.status.done = true) ∧
      (∃ t, (0x00000002 : Word).getLsbD 1 = true ∧ invInFlight.memWrite 0x000C 4 0x00000002 = some t) ∧
      ∃ t, (0x00000042 : Word).getLsbD 0 = false ∧ invInFlight.memWrite 0x0008 4 0x00000042 = some t :=
  ⟨nextSat_spec (by decide +kernel), ⟨_, by decide, rfl⟩, ⟨_, by decide, rfl⟩⟩

/-- A host about to run `LI v3, 97`. -/
def liHost : State := { State.reset with host := { HostAgent.empty with prog := [.li 3 97] } }

theorem test_witness_LiLoadsRegister :
    Inv liHost ∧ liHost.status.busy = false ∧ liHost.schedule = [] ∧ liHost.host.prog[liHost.host.pc]? = some (.li 3 97) ∧
      liHost.host.word = 0 ∧ 97 < 2 ^ liHost.params.width :=
  ⟨inv_of_check (by decide +kernel), by decide +kernel⟩

theorem test_witness_CompletionAfterLatency :
    mctxInFlight.status.busy = true ∧ mctxInFlight.schedule = List.replicate 1 .host ∧
      mctxInFlight.host.prog.length ≤ mctxInFlight.host.pc ∧ decode mctxInFlight.cmd = .ok (.mctx 0) ∧
      mctxInFlight.readsUnwritten (.mctx 0) = false := by decide

/-- The same command from the reset state, its operand never written: the model stops (R113). -/
theorem test_witness_CompletionAfterLatency_stops :
    (State.reset.accept 0x10000000).status.busy = true ∧ (State.reset.accept 0x10000000).schedule = List.replicate 0 .host ∧
      decode (State.reset.accept 0x10000000).cmd = .ok (.mctx 0) ∧
      (State.reset.accept 0x10000000).readsUnwritten (.mctx 0) = true := by decide +kernel

/-! ### Witnesses: every command -/

theorem test_witness_MissingContextErrors :
    (∀ i ∈ [Instr.tomont 0 31, .frommont 0 31, .mmul 0 1 31, .mpow 0 1 31],
      i.wf = true ∧ i.op ∈ [Op.tomont, .frommont, .mmul, .mpow]) ∧ State.reset.status.mctxv = false ∧
    (∀ i ∈ [Instr.padd 0 3 29, .pdbl 0 29, .peq 0 29, .j2a 0 29, .smul 0 3 31, .smulO 0 3 31, .smulg 0 31, .esign 0 1 2 31,
        .everify 0 3 30],
      i.wf = true ∧ i.op ∈ [Op.padd, .pdbl, .peq, .j2a, .smul, .smulg, .esign, .everify]) ∧
    State.reset.status.curvev = false := by decide

/-- Program P5's state at step 10: `v0` is written, `v1` is not. -/
def p5State : State := load State.reset [(0, 97)]

/-- Program P5, step 10: the core's step reads `v1`, never written, and the run stops with the fault recorded, `v0` and the
last state as they were (R22, R113, R413). -/
theorem test_witness_UnwrittenReadFaults :
    (Instr.inv 2 0 1).wf = true ∧ p5State.contextValid (contextOf (.inv 2 0 1)) = true ∧
      ((1, 1) : Reg × Nat) ∈ sourceSpans (.inv 2 0 1) ∧ p5State.regWritten (spanReg 1 0) = false ∧
      faultsWith (exec (.inv 2 0 1) p5State) .unwrittenOperand = true ∧
      faultsWith (step (p5State.withFetchWord 32 0x04400800)) .unwrittenOperand = true ∧
      ((Run.start (p5State.withFetchWord 32 0x04400800)).steps 2).fault = some .unwrittenOperand ∧
      ((Run.start (p5State.withFetchWord 32 0x04400800)).steps 2).state.v = p5State.v := by decide +kernel

/-- The three outcomes of R350: the fault; success with the operands written; and an error, which comes before the operand
check (program P5, step 1; R353). -/
theorem test_witness_CommandOutcomes :
    p5State.readsUnwritten (.inv 2 0 1) = true ∧
      (load State.reset [(0, 3), (1, 7)]).readsUnwritten (.inv 2 0 1) = false ∧
      runs (load State.reset [(0, 3), (1, 7)]) 0x04400800 0x0002 [(2, 5)] = true ∧
      State.reset.readsUnwritten (.padd 6 0 3) = false ∧ runs State.reset 0x50C01800 0x00A6 [] = true := by decide +kernel

theorem test_witness_ErrorsArePrecise :
    invInFlight.status.err = false ∧ ∃ t, exec (.inv 2 0 1) invInFlight = .next t ∧ t.status.err = true :=
  ⟨by decide, nextSat_spec (by decide +kernel)⟩

/-- A command that completes with a two-register destination. -/
theorem test_witness_CommandRegisterFrame :
    (∃ t, exec (.gfmul 4 0 1) blank = .next t ∧ t.status.err = false) ∧
      destSpan (.gfmul 4 0 1) = some (4, 2) ∧ (6 : Reg) ∉ spanRegs 4 2 ∧ (3 : Reg) ∉ spanRegs 4 2 :=
  ⟨nextSat_spec (p := fun t => !t.status.err) (by decide +kernel) |>.imp fun _ h => ⟨h.1, by simpa using h.2⟩,
    by decide⟩

theorem test_witness_CommandFlagFrame :
    ∃ t, exec (.inv 2 0 1) (load blank [(0, 3), (1, 7)]) = .next t ∧ Op.inv ≠ .peq ∧ Op.inv ≠ .everify ∧
      Op.inv ∉ [Op.padd, .pdbl, .j2a, .smul, .smulg] :=
  (nextSat_spec (p := fun _ => true) (by decide +kernel)).imp fun _ h => ⟨h.1, by decide⟩

theorem test_witness_ContextWriters :
    (∃ t, exec (.mctx 0) (load blank [(0, 97)]) = .next t ∧ Op.mctx ≠ .curve) ∧
      ∃ t, exec (.curve 20) (load blank [(20, 5)]) = .next t ∧ Op.curve ≠ .mctx :=
  ⟨(nextSat_spec (p := fun _ => true) (by decide +kernel)).imp fun _ h => ⟨h.1, by decide⟩,
    (nextSat_spec (p := fun _ => true) (by decide +kernel)).imp fun _ h => ⟨h.1, by decide⟩⟩

theorem test_witness_UnreadStateNeverMatters :
    ∃ t, exec (.smulg 3 9) (load toy [(9, 7)]) = .next t ∧
      ({ Status.reset with curvev := true, eq := true } : Status).mctxv = (load toy [(9, 7)]).status.mctxv ∧
      ({ Status.reset with curvev := true, eq := true } : Status).curvev = (load toy [(9, 7)]).status.curvev :=
  (nextSat_spec (p := fun _ => true) (by decide +kernel)).imp fun _ h => ⟨h.1, by decide +kernel⟩

/-- Both states with no outcome in STATUS, for a command that writes a flag and for a CURVE that succeeds. -/
theorem test_witness_UnreadStateNeverMatters_cleared :
    NoResult toy.status ∧ NoResult { Status.reset with curvev := true, overrun := true } ∧
      (∃ t, exec (.peq 0 3) toy = .next t ∧ t.status.eq = true) ∧
      ∃ t, exec (.curve 20) (load blank [(20, 109), (21, 2), (22, 4), (23, 1), (24, 0), (25, 2), (26, 127)]) = .next t ∧
        t.status.err = false :=
  ⟨by unfold NoResult; decide +kernel, by unfold NoResult; decide +kernel,
    nextSat_spec (p := fun t => t.status.eq) (by decide +kernel),
    (nextSat_spec (p := fun t => !t.status.err) (by decide +kernel)).imp fun _ h => ⟨h.1, by simpa using h.2⟩⟩

/-- A run's step from a loaded state, and the toy states meet the invariant. -/
theorem test_witness_StepKeepsInvariant :
    Inv ((load toy [(9, 7)]).accept 0x74604800) ∧ ∃ t, step ((load toy [(9, 7)]).accept 0x74604800) = .next t :=
  ⟨inv_of_check (by decide +kernel),
    (nextSat_spec (p := fun _ => true) (by decide +kernel)).imp fun _ h => h.1⟩

/-! ### Witnesses: the modular inverse and Montgomery arithmetic -/

/-- The three clauses, and the smallest modulus. -/
theorem test_witness_InvModIsInverse :
    1 ≤ 1 ∧ ((2 : Nat) ≠ 0 ∧ Nat.gcd (2 % 4) 4 ≠ 1) ∧ ((3 : Nat) ≠ 0 ∧ Nat.gcd (3 % 7) 7 = 1) ∧
      ((5 : Nat) ≠ 0 ∧ Nat.gcd (5 % 1) 1 = 1) := by decide

/-- `2`, `4`, `7` in `v0`, `v1`, `v3`. -/
def invState : State := load blank [(0, 2), (1, 4), (3, 7)]

/-- `m = 0`, no inverse, an inverse, and `a = 0`. -/
theorem test_witness_InvResult :
    RegsOk invState ∧ (Ready invState (.inv 2 0 5) ∧ invState.reg 5 = 0) ∧
      (Ready invState (.inv 2 0 1) ∧ invState.reg 1 ≠ 0 ∧ invState.reg 0 ≠ 0 ∧
        Nat.gcd (invState.reg 0 % invState.reg 1) (invState.reg 1) ≠ 1) ∧
      (Ready invState (.inv 2 0 3) ∧ invState.reg 3 ≠ 0 ∧ invState.reg 0 ≠ 0 ∧
        Nat.gcd (invState.reg 0 % invState.reg 3) (invState.reg 3) = 1) ∧
      (Ready invState (.inv 2 4 3) ∧ invState.reg 4 = 0) := by
  unfold RegsOk Ready
  decide +kernel

theorem test_witness_MctxResult :
    Inv (load blank [(0, 97)]) ∧ Ready (load blank [(0, 97)]) (.mctx 0) ∧
      (load blank [(0, 97)]).reg 0 % 2 = 1 ∧ Ready (load blank [(0, 97)]) (.mctx 1) ∧
      (load blank [(0, 97)]).reg 1 % 2 = 0 :=
  ⟨inv_of_check (by decide +kernel), by unfold Ready; decide +kernel⟩

theorem test_witness_MontgomeryResults :
    Inv mont97 ∧ mont97.status.mctxv = true ∧ Ready mont97 (.tomont 2 1) ∧ Ready mont97 (.frommont 3 1) ∧
      Ready mont97 (.mmul 3 1 2) ∧ Ready mont97 (.mpow 3 1 2) :=
  ⟨inv_of_check (by decide +kernel), by unfold Ready; decide +kernel⟩

/-! ### Witnesses: binary fields -/

theorem test_witness_ClmulIsCarrylessProduct : 0 < 1 ∧ 1 < 2 ^ 1 ∧ 0xCA < 2 ^ 8 ∧ 0x53 < 2 ^ 8 := by decide

theorem test_witness_PolymodIsRemainder :
    (0x11B : Nat) ≠ 0 ∧ bitlen 1 < bitlen 0x11B ∧ ∃ q, clmul q 0x11B = 0x3F7E ^^^ 1 := ⟨by decide, by decide, 61, by decide +kernel⟩

theorem test_witness_GfaddGfmulResults :
    RegsOk blank ∧ Ready blank (.gfadd 2 0 1) ∧ Ready blank (.gfmul 30 0 1) := by
  unfold RegsOk Ready
  decide +kernel

theorem test_witness_ReductionResults :
    RegsOk (load blank [(2, 1)]) ∧ Ready (load blank [(2, 1)]) (.gfred 6 30 2) ∧
      Ready (load blank [(2, 1)]) (.gfmulr 6 0 1 2) ∧ (load blank [(2, 1)]).reg 2 % 2 = 1 ∧
      Ready (load blank [(2, 1)]) (.gfred 6 30 3) ∧ Ready (load blank [(2, 1)]) (.gfmulr 6 0 1 3) ∧
      (load blank [(2, 1)]).reg 3 % 2 = 0 := by
  unfold RegsOk Ready
  decide +kernel

theorem test_witness_GfmulrIsGfmulThenGfred :
    RegsOk (load blank [(2, 0x11B)]) ∧ (2 : Reg) ≠ 4 ∧ (2 : Reg) ≠ spanReg 4 1 ∧
      (load blank [(2, 0x11B)]).reg 2 % 2 = 1 ∧ Ready (load blank [(2, 0x11B)]) (.gfmul 4 0 1) ∧
      Ready (load blank [(2, 0x11B)]) (.gfmulr 9 0 1 2) := by
  unfold RegsOk Ready
  decide +kernel

/-! ### Witnesses: the curve context -/

/-- A descriptor in `v20` to `v26`. -/
def descriptor (p a b h gx gy n : Nat) : State :=
  load blank [(20, p), (21, a), (22, b), (23, h), (24, gx), (25, gy), (26, n)]

/-- Each clause, at the ends of its range: even `p`, `p < 5`, `n < 2`, a point off the curve, `Gx = p`, `Gy = 0`, and
all checks passed. -/
theorem test_witness_CurveResult :
    (Ready (descriptor 108 2 4 1 0 2 127) (.curve 20) ∧ 108 % 2 = 0) ∧
      (Ready (descriptor 3 2 4 1 0 2 127) (.curve 20) ∧ 3 < 5) ∧
      (Ready (descriptor 5 2 4 1 0 2 1) (.curve 20) ∧ 5 % 2 = 1 ∧ 5 ≤ 5 ∧ 1 < 2) ∧
      (Ready (descriptor 109 2 4 1 0 3 2) (.curve 20) ∧ 109 % 2 = 1 ∧ 5 ≤ 109 ∧ 2 ≤ 2 ∧
        ((3 : Nat) : Int) ^ 2 % 109 ≠ ((4 % 109 : Nat) : Int)) ∧
      (Ready (descriptor 109 2 4 1 109 2 127) (.curve 20) ∧ 109 ≤ 109) ∧
      Ready (descriptor 109 2 4 1 0 0 127) (.curve 20) ∧
      (Ready (descriptor 109 2 4 1 0 2 127) (.curve 20) ∧ (descriptor 109 2 4 1 0 2 127).reg (spanReg 20 6) = 127 ∧
        (((2 : Nat) : Int) ^ 2 - ((0 : Nat) ^ 3 + (2 % 109 : Nat) * (0 : Nat) + (4 % 109 : Nat))) % (109 : Nat) = 0) := by
  unfold Ready
  decide +kernel

theorem test_witness_GeneratorTableDoubles :
    0 < bitlen (2 * 127) ∧ (buildTable 109 2 0 2 127)[0]? = some (some (.pt 0 2)) ∧ 7 < bitlen (2 * 127) ∧
      (buildTable 109 2 0 2 127)[7]? = some (some (.pt 0 2)) := by decide +kernel

/-! ### Witnesses: points -/

theorem test_witness_PointSumAndDoubleResults :
    Inv (load toy [(1, 2), (2, 1)]) ∧ (load toy [(1, 2), (2, 1)]).params.jacRepr = .exact ∧
      Ready (load toy [(1, 2), (2, 1)]) (.padd 6 0 3) ∧ Ready (load toy [(1, 2), (2, 1)]) (.pdbl 29 0) :=
  ⟨inv_of_check (by decide +kernel), by unfold Ready; decide +kernel⟩

/-- A finite sum, an infinite sum (`O + O`), a finite double and an infinite one. -/
theorem test_witness_JacobianClassResults :
    Inv (inClass (load toy [(1, 2), (2, 1)])) ∧ (inClass (load toy [(1, 2), (2, 1)])).params.jacRepr = .projClass ∧
      Ready (inClass (load toy [(1, 2), (2, 1)])) (.padd 6 0 3) ∧ Ready (inClass (load toy [(1, 2), (2, 1)])) (.padd 6 3 3) ∧
      Ready (inClass (load toy [(1, 2), (2, 1)])) (.pdbl 6 0) ∧ Ready (inClass (load toy [(1, 2), (2, 1)])) (.pdbl 6 3) ∧
      (jadd 109 2 ((load toy [(1, 2), (2, 1)]).point 0) ((load toy [(1, 2), (2, 1)]).point 3)).isInf = false ∧
      (jadd 109 2 ((load toy [(1, 2), (2, 1)]).point 3) ((load toy [(1, 2), (2, 1)]).point 3)).isInf = true ∧
      (jdbl 109 2 ((load toy [(1, 2), (2, 1)]).point 0)).isInf = false ∧
      (jdbl 109 2 ((load toy [(1, 2), (2, 1)]).point 3)).isInf = true :=
  ⟨inv_of_check (by decide +kernel), by unfold Ready; decide +kernel⟩

/-- A triple of the class of `2G = (4, 82, 4)` with coordinates of `p` or more, `(82 + 109, 66, 1 + 2·109)`, and
draws that give it. -/
theorem test_witness_JacobianClassResults_lifted :
    Nat.Coprime 4 109 ∧ Nat.Coprime (1 + 2 * 109) 109 ∧ jacEq 109 ⟨82 + 109, 66, 1 + 2 * 109⟩ ⟨4, 82, 4⟩ = true ∧
      (Jac.mk (82 + 109) 66 (1 + 2 * 109)).isInf = false ∧ (Jac.mk 4 82 4).isInf = false ∧
      classTriple 576 109 82 1 0 2 ⟨4, 82, 4⟩ = ⟨82 + 109, 66, 1 + 2 * 109⟩ := by decide +kernel

/-- The smallest odd modulus, and a composite one. -/
theorem test_witness_PointLawsAndAgreement :
    (5 % 2 = 1 ∧ 5 ≤ 5 ∧ (Jac.mk 4 4 4).x < 5 ∧ (Jac.mk 0 0 1).y < 5 ∧ (Jac.mk 0 0 1).isInf = true) ∧
      (9 % 2 = 1 ∧ 5 ≤ 9 ∧ (Jac.mk 1 3 2).y < 9 ∧ (Jac.mk 0 3 0).isInf = true) := by decide

/-- Triples of `G` and `2G` on the toy curve for MMADD, MADD, ZADD and ADDG (R254's premises), and one of the identity. -/
theorem test_witness_PointLawsAndAgreement_curve :
    Nat.Prime 109 ∧ 5 ≤ 109 ∧ AffOnCurve 109 2 4 (.pt 0 2) ∧ AffOnCurve 109 2 4 (.pt 82 66) ∧ AffOnCurve 109 2 4 .identity ∧
      (∀ x, Aff.pt 0 2 ≠ .pt x 0) ∧ (∀ x, Aff.pt 82 66 ≠ .pt x 0) ∧ StandsFor 109 ⟨5, 0, 3⟩ .identity ∧
      StandsFor 109 ⟨0, 2, 1⟩ (.pt 0 2) ∧ StandsFor 109 ⟨0, 16, 2⟩ (.pt 0 2) ∧ StandsFor 109 ⟨82, 66, 1⟩ (.pt 82 66) ∧
      StandsFor 109 ⟨4, 82, 4⟩ (.pt 82 66) ∧ StandsFor 109 ⟨1, 92, 2⟩ (.pt 82 66) := by
  refine ⟨by norm_num, by decide, ?_, ?_, trivial, by simp, by simp, rfl, ?_, ?_, ?_, ?_, ?_⟩
  · unfold AffOnCurve; decide +kernel
  · unfold AffOnCurve; decide +kernel
  · exact ⟨rfl, 1, by decide +kernel⟩
  · exact ⟨rfl, 55, by decide +kernel⟩
  · exact ⟨rfl, 1, by decide +kernel⟩
  · exact ⟨rfl, 82, by decide +kernel⟩
  · exact ⟨rfl, 55, by decide +kernel⟩

/-- Both infinite, one infinite, both finite. -/
theorem test_witness_PeqResult :
    Ready (load toy [(0, 4), (1, 82), (2, 4)]) (.peq 0 0) ∧ Ready (load toy [(0, 4), (1, 82), (2, 4)]) (.peq 3 6) ∧
      5 ≤ (load toy [(0, 4), (1, 82), (2, 4)]).curve.p ∧ (load toy [(0, 4), (1, 82), (2, 4)]).point 0 = ⟨4, 82, 4⟩ ∧
      (load toy [(0, 4), (1, 82), (2, 4)]).point 3 = ⟨0, 0, 0⟩ := by
  unfold Ready
  decide +kernel

/-- An infinite triple, one whose `Z` shares a factor with the composite `p`, one with an inverse. -/
theorem test_witness_J2aResult :
    Inv (load composite [(0, 1), (1, 1), (2, 3), (3, 1), (4, 1), (5, 2)]) ∧
      Ready (load composite [(0, 1), (1, 1), (2, 3), (3, 1), (4, 1), (5, 2)]) (.j2a 29 0) ∧
      (load composite [(0, 1), (1, 1), (2, 3), (3, 1), (4, 1), (5, 2)]).point 0 = ⟨1, 1, 3⟩ ∧ Nat.gcd 3 15 ≠ 1 ∧
      (load composite [(0, 1), (1, 1), (2, 3), (3, 1), (4, 1), (5, 2)]).point 3 = ⟨1, 1, 2⟩ ∧ Nat.gcd 2 15 = 1 ∧
      (load composite [(0, 1), (1, 1), (2, 3), (3, 1), (4, 1), (5, 2)]).point 6 = ⟨0, 0, 0⟩ :=
  ⟨inv_of_check (by decide +kernel), by unfold Ready; decide +kernel⟩

/-! ### Witnesses: scalar multiplication -/

/-- `2G` in `v0`, `(1, 1, 1)` off the curve in `v3`, an infinite triple in `v6`, scalars 1, 259 and 0. -/
def smulState : State := load toy [(0, 4), (1, 82), (2, 4), (3, 1), (4, 1), (5, 1), (9, 259), (10, 1)]

/-- The infinite point, the point off the curve, and a settled point, for both forms. -/
theorem test_witness_SmulResult :
    Inv smulState ∧ Ready smulState (.smul 29 0 9) ∧ Ready smulState (.smulO 29 0 9) ∧ Ready smulState (.smul 29 6 9) ∧
      (smulState.point 6).isInf = true ∧ Ready smulState (.smulO 29 3 9) ∧ (smulState.point 3).isInf = false ∧
      invMod (smulState.point 3).z 109 = some 1 ∧ affineOf 109 (smulState.point 3) 1 = (1, 1) ∧
      onCurve 1 1 109 2 4 = false ∧ (smulState.point 0).isInf = false ∧ invMod (smulState.point 0).z 109 = some 82 ∧
      affineOf 109 (smulState.point 0) 82 = (82, 66) ∧ onCurve 82 66 109 2 4 = true ∧
      affMul 109 2 (259 % (2 * 127)) (.pt 82 66) = some (.pt 29 12) ∧ affMul 109 2 259 (.pt 82 66) = some (.pt 29 12) ∧
      orderOpen 109 2 127 (.pt 82 66) = false :=
  ⟨inv_of_check (by decide +kernel), by unfold Ready; decide +kernel⟩

/-- A `Z` without an inverse. -/
theorem test_witness_SmulResult_notInvertible :
    Inv (load composite [(0, 1), (1, 1), (2, 3)]) ∧ Ready (load composite [(0, 1), (1, 1), (2, 3)]) (.smul 29 0 9) ∧
      ((load composite [(0, 1), (1, 1), (2, 3)]).point 0).isInf = false ∧
      invMod ((load composite [(0, 1), (1, 1), (2, 3)]).point 0).z 15 = none :=
  ⟨inv_of_check (by decide +kernel), by unfold Ready; decide +kernel⟩

/-- A point of even order: the result is open. -/
theorem test_witness_SmulResult_evenOrder :
    Inv (load evenCurve [(0, 1), (1, 3), (2, 1), (9, 2)]) ∧ Ready (load evenCurve [(0, 1), (1, 3), (2, 1), (9, 2)]) (.smul 29 0 9) ∧
      affineOf 7 ((load evenCurve [(0, 1), (1, 3), (2, 1), (9, 2)]).point 0) 1 = (1, 3) ∧ onCurve 1 3 7 0 1 = true ∧
      affMul 7 0 2 (.pt 1 3) = some (.pt 0 1) ∧ orderOpen 7 0 6 (.pt 1 3) = true :=
  ⟨inv_of_check (by decide +kernel), by unfold Ready; decide +kernel⟩

/-- On the same curve, which has a point of order 2, `(0, 1)` has order 3 and its multiples are settled though `n = 6` is
even; the generator of order 6 is open, whatever the scalar (R291, R295). -/
theorem test_order_settled_by_the_search :
    orderOpen 7 0 6 (.pt 0 1) = false ∧
      nextSat (exec (.smul 3 0 9) (load evenCurve [(0, 0), (1, 1), (2, 1), (9, 2)]))
        (fun t => t.reg 3 == 0 && t.reg 4 == 6 && t.reg 5 == 1 && t.draws == 0) = true ∧
      nextSat (exec (.smulg 3 9) (load evenCurve [(9, 1)])) (fun t => t.draws == 3) = true := by decide +kernel

/-- Composite moduli (R295 asks for no prime): `(1, 17)` mod 35 and `(11, 7)` mod 15 double to `(7, 0)` and `(12, 0)`, so
they are open; `(1, 1)` mod 15 on the composite curve of section 2.4 has no multiple with `y = 0`. -/
theorem test_order_composite :
    affMul 35 29 2 (.pt 1 17) = some (.pt 7 0) ∧ orderOpen 35 29 4 (.pt 1 17) = true ∧
      affMul 15 4 2 (.pt 11 7) = some (.pt 12 0) ∧ orderOpen 15 4 4 (.pt 11 7) = true ∧
      orderOpen 15 0 4 (.pt 1 1) = false := by decide +kernel

/-- An inverse that does not exist inside `AffMul`, on a composite modulus (R244). -/
theorem test_witness_SmulResult_open :
    Inv compositeOpen ∧ Ready compositeOpen (.smul 29 0 9) ∧ (compositeOpen.point 0).isInf = false ∧
      invMod (compositeOpen.point 0).z 15 = some 1 ∧ affineOf 15 (compositeOpen.point 0) 1 = (1, 1) ∧
      onCurve 1 1 15 0 0 = true ∧ affMul 15 0 (compositeOpen.reg 9) (.pt 1 1) = none ∧ Ready compositeOpen (.smulg 29 9) ∧
      compositeOpen.reg 9 % (2 * compositeOpen.curve.n) = compositeOpen.reg 9 :=
  ⟨inv_of_check (by decide +kernel), by unfold Ready; decide +kernel⟩

theorem test_witness_SmulgResult :
    Inv smulState ∧ Ready smulState (.smulg 29 9) ∧ smulState.reg 9 % (2 * smulState.curve.n) = 5 ∧
      affMul 109 2 5 (.pt 0 2) = some (.pt 51 70) ∧ orderOpen 109 2 127 (.pt 0 2) = false :=
  ⟨inv_of_check (by decide +kernel), by unfold Ready; decide +kernel⟩

/-- Both ends of the window width. -/
theorem test_witness_NafRecodesScalar : 2 ≤ 2 ∧ 2 ≤ 8 ∧ 8 ≤ 8 ∧ (naf 2 7)[0]? = some (-1) ∧ (naf 2 7)[1]? = some 0 := by
  decide

/-! ### Witnesses: ECDSA -/

/-- Keys, digests and nonces: `d = 7`, `e = 100`, nonces 10, 0 and 1, and `e = 51`, which gives `s = 0` with nonce 10. -/
def signState : State := load toy [(1, 7), (2, 100), (3, 10), (4, 1), (5, 51)]

/-- `R = O` (nonce 0), `r = 0` (nonce 1), `s = 0` (`e = 51`), and a signature. -/
theorem test_witness_EsignResult :
    Inv signState ∧ Ready signState (.esign 10 1 2 0) ∧ blind 0 127 % (2 * 127) = 127 ∧
      affMul 109 2 127 (.pt 0 2) = some .identity ∧ orderOpen 109 2 127 (.pt 0 2) = false ∧
      Ready signState (.esign 10 1 2 4) ∧ blind 1 127 % (2 * 127) = 1 ∧ affMul 109 2 1 (.pt 0 2) = some (.pt 0 2) ∧
      Ready signState (.esign 30 1 2 3) ∧ blind 10 127 % (2 * 127) = 10 ∧ affMul 109 2 10 (.pt 0 2) = some (.pt 29 12) ∧
      29 % 127 ≠ 0 ∧ invMod 10 127 = some 89 ∧ 89 * (100 % 127 + 7 * 29) % 127 ≠ 0 ∧ Ready signState (.esign 30 1 5 3) ∧
      89 * (51 % 127 + 7 * 29) % 127 = 0 :=
  ⟨inv_of_check (by decide +kernel), by unfold Ready; decide +kernel⟩

/-- A nonce without an inverse, in a descriptor whose `n` is 126. -/
theorem test_witness_EsignResult_notInvertible :
    Inv (load (toyOrder 126) [(1, 7), (2, 100), (3, 2)]) ∧ Ready (load (toyOrder 126) [(1, 7), (2, 100), (3, 2)]) (.esign 10 1 2 3) ∧
      affMul 109 2 (blind 2 126 % (2 * 126)) (.pt 0 2) = some (.pt 82 66) ∧ orderOpen 109 2 126 (.pt 0 2) = false ∧
      82 % 126 ≠ 0 ∧ invMod (2 % 126) 126 = none :=
  ⟨inv_of_check (by decide +kernel), by unfold Ready; decide +kernel⟩

/-- The key `7G` in `v4`, an infinite key in `v20`, one off the curve in `v23`; a signature in `v10`, one with `r = 0`
in `v12` and one with the largest in-range values in `v14`. -/
def verifyState : State :=
  load toy [(4, 106), (5, 25), (6, 1), (2, 100), (10, 29), (11, 43), (13, 43), (14, 126), (15, 126), (23, 1), (24, 1), (25, 1)]

/-- The range reject, the infinite and the off-curve key, and the verdict for an accepted and a rejected signature. -/
theorem test_witness_EverifyResult :
    Ready verifyState (.everify 4 2 10) ∧ Ready verifyState (.everify 4 2 12) ∧ verifyState.reg 12 = 0 ∧
      Ready verifyState (.everify 4 2 14) ∧ verifyState.reg 14 < 127 ∧ verifyState.reg 15 < 127 ∧
      Ready verifyState (.everify 20 2 10) ∧ (verifyState.point 20).isInf = true ∧ Ready verifyState (.everify 23 2 10) ∧
      (verifyState.point 23).isInf = false ∧ onCurve 1 1 109 2 4 = false ∧ (verifyState.point 4).isInf = false ∧
      invMod (verifyState.point 4).z 109 = some 1 ∧ affineOf 109 (verifyState.point 4) 1 = (106, 25) ∧
      onCurve 106 25 109 2 4 = true ∧ invMod 43 127 = some 65 ∧
      affMul 109 2 (100 % 127 * 65 % 127) (.pt 0 2) = some (.pt 70 98) ∧
      affMul 109 2 (29 * 65 % 127) (.pt 106 25) = some (.pt 74 21) ∧
      affAdd 109 2 (.pt 70 98) (.pt 74 21) = some (.pt 29 12) ∧ 29 % 127 = 29 ∧
      orderOpen 109 2 127 (.pt 0 2) = false ∧ orderOpen 109 2 127 (.pt 106 25) = false := by
  unfold Ready
  decide +kernel

/-- A key whose `Z` has no inverse, and an `s` without one (a descriptor with `n = 126`). -/
theorem test_witness_EverifyResult_notInvertible :
    Ready (load composite [(4, 1), (5, 1), (6, 3), (10, 1), (11, 1)]) (.everify 4 2 10) ∧
      invMod ((load composite [(4, 1), (5, 1), (6, 3), (10, 1), (11, 1)]).point 4).z 15 = none ∧
      Ready (load (toyOrder 126) [(4, 106), (5, 25), (6, 1), (10, 1), (11, 2)]) (.everify 4 2 10) ∧
      (load (toyOrder 126) [(4, 106), (5, 25), (6, 1), (10, 1), (11, 2)]).reg 11 < 126 ∧ invMod 2 126 = none := by
  unfold Ready
  decide +kernel

/-- `ks` of the length of `n` (nonce 0 of the toy order) and `ks` longer (nonce 1). -/
theorem test_witness_BlindSelection : 0 < 127 ∧ 0 % 127 + 127 < 2 ^ bitlen 127 ∧ 2 ^ bitlen 127 ≤ 1 % 127 + 127 := by decide

end Sys2Proof.Tests
end

section
/-! PROOFS. When a command stops the model (00_scope.md R22, 30_encoding.md R113, 60_exceptions.md R353, R356). -/

namespace Sys2Proof

open Machine

/-- The operand check finds an unwritten word exactly when some register of a source span has one (R31, R113). -/
theorem sourcesWritten_eq_false_iff (s : State) (i : Instr) :
    s.sourcesWritten i = false ↔ ∃ x ∈ sourceSpans i, ∃ k < x.2, s.regWritten (spanReg x.1 k) = false := by
  simp [State.sourcesWritten, spanRegs]

/-- The three conditions under which a command reads an unwritten word (R353). -/
theorem readsUnwritten_iff (s : State) (i : Instr) :
    s.readsUnwritten i = true ↔
      i.wf = true ∧ s.contextValid (contextOf i) = true ∧
        ∃ x ∈ sourceSpans i, ∃ k < x.2, s.regWritten (spanReg x.1 k) = false := by
  rw [← sourcesWritten_eq_false_iff]
  simp [State.readsUnwritten, and_assoc]

/-- A command that reads no unwritten word completes (R113, R350). -/
theorem exec_completes {i : Instr} {s : State} (h : s.readsUnwritten i = false) : ∃ t, exec i s = .next t := by
  rw [exec_eq_runCommand]
  rcases runCommand_cases s i (ruleOf i) with ⟨-, e⟩ | ⟨-, -, e⟩ | ⟨hu, -⟩ | ⟨-, -, -, e⟩
  · exact ⟨_, e⟩
  · exact ⟨_, e⟩
  · rw [h] at hu
    cases hu
  · exact ⟨_, e⟩

/-- The only fault of a command is UnwrittenOperand, at an unwritten operand word (R22, R353). -/
theorem exec_fault_iff (i : Instr) (s : State) (f : Fault) :
    exec i s = .fault f ↔ f = .unwrittenOperand ∧ s.readsUnwritten i = true := by
  cases hu : s.readsUnwritten i with
  | true => simp [exec_stops hu, eq_comm]
  | false =>
    obtain ⟨t, ht⟩ := exec_completes hu
    simp [ht]

/-- Every command has a meaning on every state (R350). -/
theorem exec_ne_refused (i : Instr) (s : State) (r : Refusal) : exec i s ≠ .refused r := by
  cases hu : s.readsUnwritten i with
  | true => simp [exec_stops hu]
  | false =>
    obtain ⟨t, ht⟩ := exec_completes hu
    simp [ht]

/-- Settles O26: the operand check is the only stop of the shared execution, and a recorded fault ends the run. -/
theorem unwrittenReadFaults : Obligations.UnwrittenReadFaults := by
  refine ⟨fun i s => ⟨?_, fun f hf => ((exec_fault_iff i s f).mp hf).1, exec_ne_refused i s⟩, fun s f k hf => ?_⟩
  · rw [exec_fault_iff, ← readsUnwritten_iff]
    exact and_iff_right rfl
  · rw [Run.steps, run_next_of_fault hf, run_steps_of_fault]

end Sys2Proof
end

section
/-! PROOFS. The carry-less product and the remainder of binary polynomials (00_scope.md R19, 42_gf2m.md R191). A natural
number stands for the polynomial over GF(2) whose coefficients are its bits, so XOR is the sum. -/

namespace Sys2Proof.Machine

/-! ### The loop of the product -/

@[simp] theorem clmulBits_zero (u v : Nat) : clmulBits u v 0 = 0 := rfl

theorem clmulBits_succ (u v i : Nat) :
    clmulBits u v (i + 1) = clmulBits u v i ^^^ (if u.testBit i then v <<< i else 0) := rfl

/-- Bit `k` of what round `i` adds. -/
theorem testBit_summand (u v i k : Nat) :
    (if u.testBit i then v <<< i else 0).testBit k = (u.testBit i && (decide (i ≤ k) && v.testBit (k - i))) := by
  cases u.testBit i <;> simp

/-- Adding a bit flips the parity exactly when it is 1. -/
theorem parity_add_bit (n : Nat) (b : Bool) :
    ((n + if b then 1 else 0) % 2 == 1) = ((n % 2 == 1) ^^ b) := by
  cases b with
  | false => simp
  | true => rcases Nat.mod_two_eq_zero_or_one n with h | h <;> simp [Nat.add_mod, h]

/-- A bit of a number at or past its length is 0. -/
theorem testBit_of_bitlen_le {u i : Nat} (h : bitlen u ≤ i) : u.testBit i = false :=
  Nat.testBit_lt_two_pow ((bitlen_le_iff u i).mp h)

/-- Rounds past the length of the left factor add nothing, so any number of them gives the product. -/
theorem clmulBits_eq_clmul {u n : Nat} (v : Nat) (h : bitlen u ≤ n) : clmulBits u v n = clmul u v := by
  induction n, h using Nat.le_induction with
  | base => rfl
  | succ n hn ih => simp [clmulBits_succ, testBit_of_bitlen_le hn, ih]

/-- Rounds whose bit of the left factor is 0 leave the sum empty. -/
theorem clmulBits_eq_zero {u n : Nat} (v : Nat) (h : ∀ j < n, u.testBit j = false) : clmulBits u v n = 0 := by
  induction n with
  | zero => rfl
  | succ n ih => simp [clmulBits_succ, h n, ih fun j hj => h j (by omega)]

/-- The degree bound after `n` rounds. -/
theorem clmulBits_lt {v d : Nat} (u n : Nat) (hv : v < 2 ^ (d + 1)) : clmulBits u v n < 2 ^ (n + d) := by
  induction n with
  | zero => simp
  | succ n ih =>
    rw [clmulBits_succ]
    refine Nat.xor_lt_two_pow (ih.trans_le (Nat.pow_le_pow_right two_pos (by omega))) ?_
    split
    · have hs : v <<< n < 2 ^ (d + 1 + n) := Nat.shiftLeft_lt hv
      exact hs.trans_le (Nat.pow_le_pow_right two_pos (by omega))
    · exact Nat.two_pow_pos _

/-- The pairs of set bits, one below place `n` of the left factor, whose places add to `k`. -/
def bitPairs (u v k n : Nat) : Nat := (List.range n).countP fun i => u.testBit i && v.testBit (k - i)

theorem bitPairs_succ (u v k n : Nat) :
    bitPairs u v k (n + 1) = bitPairs u v k n + if u.testBit n && v.testBit (k - n) then 1 else 0 := by
  simp [bitPairs, List.range_succ, List.countP_append, List.countP_cons]

/-- After `n ≤ k + 1` rounds bit `k` is the parity of the pairs met so far. -/
theorem testBit_clmulBits (u v : Nat) {k n : Nat} (h : n ≤ k + 1) :
    (clmulBits u v n).testBit k = (bitPairs u v k n % 2 == 1) := by
  induction n with
  | zero => simp [bitPairs]
  | succ n ih =>
    have hk : n ≤ k := by omega
    rw [clmulBits_succ, bitPairs_succ, Nat.testBit_xor, ih (by omega), testBit_summand, parity_add_bit]
    simp [hk]

/-- Rounds past place `k` do not touch bit `k`. -/
theorem testBit_clmulBits_of_lt (u v : Nat) {k n : Nat} (h : k + 1 ≤ n) :
    (clmulBits u v n).testBit k = (clmulBits u v (k + 1)).testBit k := by
  induction n, h using Nat.le_induction with
  | base => rfl
  | succ n hn ih =>
    have hk : ¬n ≤ k := by omega
    rw [clmulBits_succ, Nat.testBit_xor, ih, testBit_summand]
    simp [hk]

/-! ### The product -/

/-- Bit `k` of the product is the parity of the pairs of set bits whose places add to `k` (R19). -/
theorem testBit_clmul (u v k : Nat) : (clmul u v).testBit k = (bitPairs u v k (k + 1) % 2 == 1) := by
  rw [← clmulBits_eq_clmul v (le_max_left (bitlen u) (k + 1)), testBit_clmulBits_of_lt u v (le_max_right _ _),
    testBit_clmulBits u v le_rfl]

/-- The product of a polynomial of at most `n` and one of at most `d + 1` bits has at most `n + d` bits (R191). -/
theorem clmul_lt {u v n d : Nat} (hu : u < 2 ^ n) (hv : v < 2 ^ (d + 1)) : clmul u v < 2 ^ (n + d) :=
  clmulBits_eq_clmul v ((bitlen_le_iff u n).mpr hu) ▸ clmulBits_lt u n hv

@[simp] theorem clmul_zero_left (v : Nat) : clmul 0 v = 0 := rfl

/-- The product distributes over the sum in the left factor. -/
theorem clmul_xor_left (u w v : Nat) : clmul (u ^^^ w) v = clmul u v ^^^ clmul w v := by
  have hrounds : ∀ n, clmulBits (u ^^^ w) v n = clmulBits u v n ^^^ clmulBits w v n := by
    intro n
    induction n with
    | zero => simp
    | succ n ih =>
      rw [clmulBits_succ, clmulBits_succ, clmulBits_succ, ih, Nat.testBit_xor]
      cases u.testBit n <;> cases w.testBit n <;> simp [Nat.xor_assoc, Nat.xor_comm, Nat.xor_left_comm]
  have hu : bitlen u ≤ max (bitlen u) (bitlen w) := le_max_left _ _
  have hw : bitlen w ≤ max (bitlen u) (bitlen w) := le_max_right _ _
  have huw : bitlen (u ^^^ w) ≤ max (bitlen u) (bitlen w) :=
    (bitlen_le_iff _ _).mpr (Nat.xor_lt_two_pow ((bitlen_le_iff _ _).mp hu) ((bitlen_le_iff _ _).mp hw))
  rw [← clmulBits_eq_clmul v huw, ← clmulBits_eq_clmul v hu, ← clmulBits_eq_clmul v hw, hrounds]

/-- Multiplying by the monomial of degree `k` shifts by `k`. -/
theorem clmul_two_pow (k v : Nat) : clmul (2 ^ k) v = v <<< k := by
  have hlen : bitlen (2 ^ k) ≤ k + 1 := (bitlen_le_iff _ _).mpr (Nat.pow_lt_pow_right one_lt_two k.lt_succ_self)
  have hlow : ∀ j < k, (2 ^ k).testBit j = false := fun j hj => by simp [hj.ne']
  simp [← clmulBits_eq_clmul v hlen, clmulBits_succ, clmulBits_eq_zero v hlow]

theorem bitlen_pos {n : Nat} (h : n ≠ 0) : 0 < bitlen n := by simp [bitlen, h]

/-- The top bit of a nonzero number is set. -/
theorem testBit_bitlen_sub_one {n : Nat} (h : n ≠ 0) : n.testBit (bitlen n - 1) = true := by
  simp [bitlen, h, Nat.testBit_log2]

/-- A nonzero multiple of `f` is at least as long as `f`: the leading bits of the factors give the product's. -/
theorem bitlen_le_bitlen_clmul {q f : Nat} (hq : q ≠ 0) (hf : f ≠ 0) : bitlen f ≤ bitlen (clmul q f) := by
  obtain ⟨m, hm⟩ : ∃ m, bitlen q = m + 1 := ⟨bitlen q - 1, by have := bitlen_pos hq; omega⟩
  obtain ⟨d, hd⟩ : ∃ d, bitlen f = d + 1 := ⟨bitlen f - 1, by have := bitlen_pos hf; omega⟩
  have hqtop : q.testBit m = true := by simpa [hm] using testBit_bitlen_sub_one hq
  have hftop : f.testBit d = true := by simpa [hd] using testBit_bitlen_sub_one hf
  have hlow : (clmulBits q f m).testBit (m + d) = false :=
    Nat.testBit_lt_two_pow (clmulBits_lt q m (hd ▸ lt_two_pow_bitlen f))
  have htop : (clmul q f).testBit (m + d) = true := by
    rw [clmul, hm, clmulBits_succ, Nat.testBit_xor, hlow]
    simp [hqtop, hftop]
  by_contra hlt
  rw [testBit_of_bitlen_le (by omega)] at htop
  cases htop

/-- Settles O42, by following bit `k` and the length through the rounds of the product. -/
theorem clmulIsCarrylessProduct : Obligations.ClmulIsCarrylessProduct := by
  refine fun u v => ⟨testBit_clmul u v, fun n hn hu hv => ?_⟩
  obtain ⟨d, rfl⟩ : ∃ d, n = d + 1 := ⟨n - 1, by omega⟩
  have hlt := clmul_lt hu hv
  rwa [show d + 1 + d = 2 * (d + 1) - 1 by omega] at hlt

/-! ### The remainder -/

/-- What one elimination round makes of `t` at place `i`. -/
def polyRound (f i t : Nat) : Nat :=
  if t.testBit i && decide (bitlen f ≤ i + 1) then t ^^^ (f <<< (i + 1 - bitlen f)) else t

theorem polyReduce_succ (f i t : Nat) : polyReduce f (i + 1) t = polyReduce f i (polyRound f i t) := rfl

/-- A round differs from its input by a multiple of `f`. -/
theorem polyRound_multiple (f i t : Nat) : ∃ q, clmul q f = t ^^^ polyRound f i t := by
  unfold polyRound
  split
  · exact ⟨2 ^ (i + 1 - bitlen f), by rw [clmul_two_pow, ← Nat.xor_assoc, Nat.xor_self, Nat.zero_xor]⟩
  · exact ⟨0, by simp⟩

/-- The reduction differs from its input by a multiple of `f` (R19). -/
theorem polyReduce_multiple (f i t : Nat) : ∃ q, clmul q f = t ^^^ polyReduce f i t := by
  induction i generalizing t with
  | zero => exact ⟨0, by simp [polyReduce]⟩
  | succ i ih =>
    obtain ⟨q, hq⟩ := polyRound_multiple f i t
    obtain ⟨q', hq'⟩ := ih (polyRound f i t)
    refine ⟨q ^^^ q', ?_⟩
    rw [clmul_xor_left, hq, hq', polyReduce_succ, Nat.xor_assoc, ← Nat.xor_assoc (polyRound f i t), Nat.xor_self,
      Nat.zero_xor]

/-- A number of at most `i + 1` bits with bit `i` clear has at most `i` bits. -/
theorem lt_two_pow_of_testBit_eq_false {x i : Nat} (h : x < 2 ^ (i + 1)) (hi : x.testBit i = false) : x < 2 ^ i := by
  refine Nat.lt_pow_two_of_testBit x fun j hj => ?_
  rcases hj.eq_or_lt with rfl | hj
  · exact hi
  · exact Nat.testBit_lt_two_pow (h.trans_le (Nat.pow_le_pow_right two_pos hj))

/-- A round at a place not below the degree of `f` clears its bit. -/
theorem polyRound_lt {f i t : Nat} (hf : f ≠ 0) (hi : bitlen f ≤ i + 1) (ht : t < 2 ^ (i + 1)) :
    polyRound f i t < 2 ^ i := by
  cases hbit : t.testBit i with
  | false => simpa [polyRound, hbit] using lt_two_pow_of_testBit_eq_false ht hbit
  | true =>
    have hpos := bitlen_pos hf
    have hshift : f <<< (i + 1 - bitlen f) < 2 ^ (i + 1) := by
      have := Nat.shiftLeft_lt (m := i + 1 - bitlen f) (lt_two_pow_bitlen f)
      rwa [show bitlen f + (i + 1 - bitlen f) = i + 1 by omega] at this
    have htop : (f <<< (i + 1 - bitlen f)).testBit i = true := by
      rw [Nat.testBit_shiftLeft, show i - (i + 1 - bitlen f) = bitlen f - 1 by omega, testBit_bitlen_sub_one hf]
      simp only [Bool.and_true, decide_eq_true_eq]
      omega
    have hround : polyRound f i t = t ^^^ (f <<< (i + 1 - bitlen f)) := by simp [polyRound, hbit, hi]
    rw [hround]
    exact lt_two_pow_of_testBit_eq_false (Nat.xor_lt_two_pow ht hshift) (by simp [hbit, htop])

/-- The reduction leaves a polynomial shorter than `f`: each round lowers the length by one until it reaches the degree. -/
theorem polyReduce_lt {f : Nat} (hf : f ≠ 0) (i t : Nat) (ht : t < 2 ^ max i (bitlen f - 1)) :
    polyReduce f i t < 2 ^ (bitlen f - 1) := by
  induction i generalizing t with
  | zero => simpa [polyReduce] using ht
  | succ i ih =>
    rw [polyReduce_succ]
    refine ih _ ?_
    by_cases hi : bitlen f ≤ i + 1
    · rw [max_eq_left (by omega)] at ht ⊢
      exact polyRound_lt hf hi ht
    · rw [max_eq_right (by omega)] at ht ⊢
      simpa [polyRound, hi] using ht

/-- The remainder is shorter than the divisor (R19). -/
theorem bitlen_polymod_lt {f : Nat} (hf : f ≠ 0) (t : Nat) : bitlen (polymod t f) < bitlen f := by
  have ht : t < 2 ^ max (bitlen t) (bitlen f - 1) := (bitlen_le_iff _ _).mp (le_max_left _ _)
  have hle : bitlen (polymod t f) ≤ bitlen f - 1 := (bitlen_le_iff _ _).mpr (polyReduce_lt hf _ _ ht)
  have := bitlen_pos hf
  omega

/-- A multiple of `f` shorter than `f` is 0, so two remainders of one polynomial are equal. -/
theorem eq_of_clmul_eq_xor {f t r r' q q' : Nat} (hr : bitlen r < bitlen f) (hr' : bitlen r' < bitlen f)
    (hq : clmul q f = t ^^^ r) (hq' : clmul q' f = t ^^^ r') : r = r' := by
  have hdiff : clmul (q ^^^ q') f = r ^^^ r' := by
    rw [clmul_xor_left, hq, hq', Nat.xor_comm t r, Nat.xor_assoc, ← Nat.xor_assoc t, Nat.xor_self, Nat.zero_xor]
  have hshort : bitlen (r ^^^ r') < bitlen f := by
    have hx : r ^^^ r' < 2 ^ max (bitlen r) (bitlen r') :=
      Nat.xor_lt_two_pow ((bitlen_le_iff _ _).mp (le_max_left _ _)) ((bitlen_le_iff _ _).mp (le_max_right _ _))
    exact ((bitlen_le_iff _ _).mpr hx).trans_lt (max_lt hr hr')
  have hf : f ≠ 0 := by
    rintro rfl
    simp at hr
  have hzero : q ^^^ q' = 0 := by
    by_contra hne
    have := bitlen_le_bitlen_clmul hne hf
    rw [hdiff] at this
    omega
  rw [hzero, clmul_zero_left] at hdiff
  exact Nat.xor_eq_zero_iff.mp hdiff.symm

/-- Settles O43: the rounds subtract multiples of `f` until the degree is below `f`'s; uniqueness is by degrees. -/
theorem polymodIsRemainder : Obligations.PolymodIsRemainder := by
  intro t f hf
  obtain ⟨q, hq⟩ := polyReduce_multiple f (bitlen t) t
  exact ⟨bitlen_polymod_lt hf t, ⟨q, hq⟩, fun r q' hr hq' => eq_of_clmul_eq_xor hr (bitlen_polymod_lt hf t) hq' hq⟩

end Sys2Proof.Machine
end

section
/-! PROOFS. What PADD and PDBL write with JAC_REPR = class (00_scope.md R12, R23; 44_point_arith.md R245, R246, R255, R258;
log 6). -/

namespace Sys2Proof

open Machine

/-! ### Equality by cross-multiplication -/

theorem isInf_eq_false_iff (t : Jac) : t.isInf = false ↔ t.y ≠ 0 ∧ t.z ≠ 0 := by simp [Jac.isInf]

/-- A difference leaves no remainder exactly when its terms are congruent. -/
theorem zmod_sub_eq_zero_iff {p : Nat} (hp : 0 < p) (a b : Nat) : zmod ((a : Int) - b) p = 0 ↔ a ≡ b [MOD p] := by
  rw [zmod_eq_zero_iff _ hp, ← Nat.modEq_iff_dvd]
  exact ⟨Nat.ModEq.symm, Nat.ModEq.symm⟩

/-- Finite triples are equal when both cross-products agree mod `p` (R262). -/
theorem jacEq_iff_of_finite {p : Nat} {P Q : Jac} (hp : 0 < p) (hP : P.isInf = false) (hQ : Q.isInf = false) :
    jacEq p P Q = true ↔ P.x * Q.z ^ 2 ≡ Q.x * P.z ^ 2 [MOD p] ∧ P.y * Q.z ^ 3 ≡ Q.y * P.z ^ 3 [MOD p] := by
  rw [← zmod_sub_eq_zero_iff hp, ← zmod_sub_eq_zero_iff hp]
  simp [jacEq, hP, hQ, pow_succ]

/-! ### The drawn triple -/

/-- A number congruent to a unit multiple of a nonzero residue is not 0. -/
theorem ne_zero_of_modEq_unit_mul {p c l k : Nat} (hc : c ≡ l * k [MOD p]) (hl : Nat.Coprime p l) (hlt : k < p)
    (hk : k ≠ 0) : c ≠ 0 := by
  rintro rfl
  have hdvd : p ∣ l * k := Nat.modEq_zero_iff_dvd.mp hc.symm
  exact hk (Nat.eq_zero_of_dvd_of_lt (hl.dvd_of_dvd_mul_left hdvd) hlt)

/-- Residues mod `p` are W-bit values when `p` is. -/
theorem Machine.Jac.reduced.mono {p q : Nat} {t : Jac} (h : t.reduced p) (hpq : p ≤ q) : t.reduced q :=
  ⟨h.1.trans_le hpq, h.2.1.trans_le hpq, h.2.2.trans_le hpq⟩

section
variable {W p : Nat} (d0 d1 d2 d3 : Nat) (J : Jac)

/-- A drawn triple's coordinates are W-bit values (R12). -/
theorem classTriple_lt (hp : 0 < p) (hW : p ≤ 2 ^ W) : (classTriple W p d0 d1 d2 d3 J).reduced (2 ^ W) := by
  have hlt : ∀ k d, liftCoord W p (k % p) d < 2 ^ W := fun k d =>
    (liftCoord_spec ((Nat.mod_lt k hp).trans_le hW) d).1
  exact ⟨hlt _ _, hlt _ _, hlt _ _⟩

/-- A drawn triple is congruent to `(l²X, l³Y, lZ)` for the drawn unit `l` (R12; log 6). -/
theorem classTriple_modEq (hp : 0 < p) (hW : p ≤ 2 ^ W) :
    (classTriple W p d0 d1 d2 d3 J).x ≡ scaleFactor p d0 ^ 2 * J.x [MOD p] ∧
      (classTriple W p d0 d1 d2 d3 J).y ≡ scaleFactor p d0 ^ 3 * J.y [MOD p] ∧
      (classTriple W p d0 d1 d2 d3 J).z ≡ scaleFactor p d0 * J.z [MOD p] := by
  have hmod : ∀ k d, liftCoord W p (k % p) d ≡ k [MOD p] := fun k d =>
    ((liftCoord_spec ((Nat.mod_lt k hp).trans_le hW) d).2).trans (Nat.mod_mod _ _)
  simp only [pow_succ, pow_zero, one_mul]
  exact ⟨hmod _ _, hmod _ _, hmod _ _⟩

/-- A drawn triple of a finite reduced one is finite: a unit multiple of a residue that is not 0 is not 0. -/
theorem classTriple_finite (hp : 0 < p) (hW : p ≤ 2 ^ W) (hJ : J.reduced p) (hfin : J.isInf = false) :
    (classTriple W p d0 d1 d2 d3 J).isInf = false := by
  obtain ⟨-, hy, hz⟩ := classTriple_modEq d0 d1 d2 d3 J hp hW
  obtain ⟨-, hJy, hJz⟩ := hJ
  have hunit : Nat.Coprime p (scaleFactor p d0) := Nat.Coprime.symm (scaleFactor_coprime p d0)
  rw [isInf_eq_false_iff] at hfin ⊢
  exact ⟨ne_zero_of_modEq_unit_mul hy (hunit.pow_right 3) hJy hfin.1, ne_zero_of_modEq_unit_mul hz hunit hJz hfin.2⟩

/-- A drawn triple of a finite reduced one equals it by cross-multiplication (R12, R262). -/
theorem jacEq_classTriple (hp : 0 < p) (hW : p ≤ 2 ^ W) (hJ : J.reduced p) (hfin : J.isInf = false) :
    jacEq p (classTriple W p d0 d1 d2 d3 J) J = true := by
  obtain ⟨hx, hy, hz⟩ := classTriple_modEq d0 d1 d2 d3 J hp hW
  rw [jacEq_iff_of_finite hp (classTriple_finite d0 d1 d2 d3 J hp hW hJ hfin) hfin]
  constructor
  · refine (hx.mul_right _).trans (Nat.ModEq.trans ?_ ((hz.pow 2).mul_left _).symm)
    ring_nf
    rfl
  · refine (hy.mul_right _).trans (Nat.ModEq.trans ?_ ((hz.pow 3).mul_left _).symm)
    ring_nf
    rfl

end

/-! ### The write -/

/-- The triple that PADD and PDBL write, up to `Canon`, with JAC_REPR = class: an infinite result itself, or the next drawn
triple of a finite one's class. -/
def drawnTriple (s : State) (J : Jac) : Jac :=
  if J.isInf then J
  else classTriple s.params.width s.curve.p (s.drawn 0) (s.drawn 1) (s.drawn 2) (s.drawn 3) J

theorem jacobianWrites_of_class {s : State} (hc : s.params.jacRepr = .projClass) (rd : Reg) (J : Jac) :
    jacobianWrites s rd J = { pointWrites rd (drawnTriple s J) with draws := if J.isInf then 0 else 4 } := by
  unfold jacobianWrites drawnTriple
  rw [hc]
  cases J.isInf <;> rfl

/-- The checks of CURVE leave a modulus above 1 that fits a register (R222). -/
theorem curve_modulus_bounds {s : State} (h : Inv s) (hv : s.status.curvev = true) :
    1 < s.curve.p ∧ s.curve.p < 2 ^ s.params.width := by
  obtain ⟨-, -, -, -, -, -, -, hcurve⟩ := h
  obtain ⟨-, hp5, hpW, -⟩ := hcurve hv
  exact ⟨by omega, hpW⟩

section
variable {s : State} {J : Jac} (hp : 0 < s.curve.p) (hW : s.curve.p ≤ 2 ^ s.params.width) (hJ : J.reduced s.curve.p)
include hp hW hJ

/-- INF does not depend on the draws (R12). -/
theorem drawnTriple_isInf : (drawnTriple s J).isInf = J.isInf := by
  unfold drawnTriple
  cases hinf : J.isInf with
  | true => simpa using hinf
  | false => simpa using classTriple_finite _ _ _ _ J hp hW hJ hinf

theorem drawnTriple_lt : (drawnTriple s J).reduced (2 ^ s.params.width) := by
  unfold drawnTriple
  split
  · exact hJ.mono hW
  · exact classTriple_lt _ _ _ _ J hp hW

/-- The canonical form of an infinite result's triple is `CANON_INF` (R246). -/
theorem drawnTriple_canon_of_inf (hinf : J.isInf = true) : (drawnTriple s J).canon = ⟨0, 0, 0⟩ := by
  simp [Jac.canon, drawnTriple_isInf hp hW hJ, hinf]

/-- The canonical form of a finite result's triple is the drawn one (R246). -/
theorem drawnTriple_canon_of_finite (hfin : J.isInf = false) :
    (drawnTriple s J).canon =
      classTriple s.params.width s.curve.p (s.drawn 0) (s.drawn 1) (s.drawn 2) (s.drawn 3) J := by
  rw [Jac.canon, drawnTriple_isInf hp hW hJ, hfin]
  simp [drawnTriple, hfin]

end

/-- The spans of a well-formed command end at V31 or before (R106). -/
theorem span_le_of_wf {i : Instr} {r : Reg} {n : Nat} (h : i.wf = true) (hm : (r, n) ∈ i.spans) : r.val + n ≤ 32 :=
  of_decide_eq_true (List.all_eq_true.mp h (r, n) hm)

/-- PADD and PDBL as writers of one reduced Jacobian result, with the modulus and the destination span that their checks
grant. -/
theorem pointResult_of_ready {s : State} {i : Instr} {rd a b : Reg} {J : Jac} (hI : Inv s)
    (hi : (i = .padd rd a b ∧ J = jadd s.curve.p s.curve.a (s.point a) (s.point b)) ∨
      (i = .pdbl rd a ∧ J = jdbl s.curve.p s.curve.a (s.point a))) (hR : Ready s i) :
    (1 < s.curve.p ∧ s.curve.p < 2 ^ s.params.width) ∧ rd.val + 2 < 32 ∧ J.reduced s.curve.p ∧
      ruleOf i s = .ok (jacobianWrites s rd J) := by
  obtain ⟨hw, hctx, -⟩ := hR
  rcases hi with ⟨rfl, rfl⟩ | ⟨rfl, rfl⟩
  · have hb := curve_modulus_bounds hI hctx
    have hp : 0 < s.curve.p := by omega
    refine ⟨hb, ?_, jadd_reduced hb.1 _ (point_reduced s a hp) (point_reduced s b hp), rfl⟩
    have := span_le_of_wf (r := rd) (n := 3) hw (by simp [Instr.spans])
    omega
  · have hb := curve_modulus_bounds hI hctx
    refine ⟨hb, ?_, dbl_reduced hb.1 _ _ _ _, rfl⟩
    have := span_le_of_wf (r := rd) (n := 3) hw (by simp [Instr.spans])
    omega

/-- Settles O50: the written triple is the canonical form of the drawn one; coverage is `class_covers`. -/
theorem jacobianClassResults : Obligations.JacobianClassResults := by
  intro s i rd a b J hI hclass hi hR
  obtain ⟨⟨hp1, hpW⟩, hspan, hJ, hrule⟩ := pointResult_of_ready hI hi hR
  have hp : 0 < s.curve.p := by omega
  obtain ⟨hstate, hframe, -, hholds⟩ := commit_point (k := if J.isInf then 0 else 4) hspan (Nat.two_pow_pos _) le_rfl
    (drawnTriple_lt hp hpW.le hJ)
  rw [drawnTriple_isInf hp hpW.le hJ] at hstate
  have hexec := exec_of_ok hR hrule
  rw [jacobianWrites_of_class hclass] at hexec
  refine ⟨_, (drawnTriple s J).canon, hexec, hholds, hstate, hframe, drawnTriple_canon_of_inf hp hpW.le hJ, fun hfin => ?_,
    fun T' hx hy hz hJz hTz hEq hT hfin => ?_⟩
  · rw [drawnTriple_canon_of_finite hp hpW.le hJ hfin]
    obtain ⟨hTx, hTy, hTz⟩ := classTriple_lt (s.drawn 0) (s.drawn 1) (s.drawn 2) (s.drawn 3) J hp hpW.le
    exact ⟨classTriple_finite _ _ _ _ J hp hpW.le hJ hfin, jacEq_classTriple _ _ _ _ J hp hpW.le hJ hfin, hTx, hTy, hTz,
      _, _, _, _, rfl⟩
  · obtain ⟨hcx, hcy⟩ := (jacEq_iff_of_finite hp hT hfin).mp hEq
    exact class_covers hp1 hx hy hz hJz hTz hcx hcy

end Sys2Proof
end

section
/-! PROOFS. The extended Euclidean loop of `InvMod` (40_modular_inverse.md R140): it ends within its fuel, and what it
returns is the inverse. -/

namespace Sys2Proof.Machine

@[simp] theorem euclid_remainder_zero (m fuel r0 t0 t1 : Nat) : euclid m (fuel + 1) r0 0 t0 t1 = t0 := rfl

theorem euclid_round {r1 : Nat} (h : r1 ≠ 0) (m fuel r0 t0 t1 : Nat) :
    euclid m (fuel + 1) r0 r1 t0 t1 = euclid m fuel r1 (r0 % r1) t1 ((t0 + (m - r0 / r1 * t1 % m)) % m) := by
  simp [euclid, h]

/-- A round keeps `t * a ≡ r` for its new remainder and coefficient (R140). -/
theorem euclid_round_congr {m a r0 r1 t0 t1 : Nat} (hm : 0 < m) (h0 : (t0 * a : ZMod m) = r0)
    (h1 : (t1 * a : ZMod m) = r1) :
    (((t0 + (m - r0 / r1 * t1 % m)) % m : Nat) : ZMod m) * a = ((r0 % r1 : Nat) : ZMod m) := by
  have hle : r0 / r1 * t1 % m ≤ m := (Nat.mod_lt _ hm).le
  have hdiv : ((r0 % r1 : Nat) : ZMod m) + r1 * ((r0 / r1 : Nat) : ZMod m) = r0 := by
    rw [← Nat.cast_mul, ← Nat.cast_add, Nat.mod_add_div]
  rw [ZMod.natCast_mod, Nat.cast_add, Nat.cast_sub hle, ZMod.natCast_self, ZMod.natCast_mod, Nat.cast_mul]
  linear_combination h0 - ((r0 / r1 : Nat) : ZMod m) * h1 - hdiv

/-- Each round at least halves the product of the two remainders, so `k + 1` tests are enough below `2^k`, and on coprime
remainders the loop returns an inverse of `a` (R140, R412). -/
theorem euclid_inverse {m a : Nat} (hm : 0 < m) (k : Nat) {r0 r1 t0 t1 : Nat} (hlt : r1 < r0) (hk : r0 * r1 < 2 ^ k)
    (hg : Nat.gcd r0 r1 = 1) (h0 : (t0 * a : ZMod m) = r0) (h1 : (t1 * a : ZMod m) = r1) :
    (euclid m (k + 1) r0 r1 t0 t1 : ZMod m) * a = 1 := by
  induction k generalizing r0 r1 t0 t1 with
  | zero =>
    obtain rfl : r1 = 0 := by
      have : r0 * r1 = 0 := by omega
      rcases Nat.mul_eq_zero.mp this with h | h <;> omega
    rw [Nat.gcd_zero_right] at hg
    simpa [hg] using h0
  | succ k ih =>
    by_cases hr1 : r1 = 0
    · subst hr1
      rw [Nat.gcd_zero_right] at hg
      simpa [hg] using h0
    · rw [euclid_round hr1]
      have hmod : r0 % r1 < r1 := Nat.mod_lt _ (Nat.pos_of_ne_zero hr1)
      have hhalf : 2 * (r1 * (r0 % r1)) ≤ r0 * r1 := by
        have hsum : r1 + r0 % r1 ≤ r0 := by
          have := Nat.mod_add_div r0 r1
          have := Nat.le_mul_of_pos_right r1 (Nat.div_pos hlt.le (Nat.pos_of_ne_zero hr1))
          omega
        calc 2 * (r1 * (r0 % r1)) = 2 * (r0 % r1) * r1 := by ring
          _ ≤ r0 * r1 := Nat.mul_le_mul_right r1 (by omega)
      refine ih hmod (by rw [pow_succ] at hk; omega) ?_ h1 (euclid_round_congr hm h0 h1)
      rwa [Nat.gcd_comm, ← Nat.gcd_rec, Nat.gcd_comm]

/-- `InvMod` of a number coprime to the modulus is its inverse (R140). -/
theorem invMod_of_coprime {a m : Nat} (hm : 0 < m) (hc : Nat.Coprime a m) :
    ∃ x, invMod a m = some x ∧ x < m ∧ a * x % m = 1 % m := by
  by_cases ha : a = 0
  · subst ha
    rw [Nat.coprime_zero_left] at hc
    subst hc
    exact ⟨0, rfl, by omega, rfl⟩
  · have hg : Nat.gcd (a % m) m = 1 := by rwa [← Nat.gcd_rec, Nat.gcd_comm]
    obtain ⟨x, hx⟩ : ∃ x, invMod a m = some x := by simp [invMod, ha, hg]
    refine ⟨x, hx, invMod_lt hm hx, ?_⟩
    have hmod : a % m < m := Nat.mod_lt a hm
    have hfuel : m * (a % m) < 2 ^ (2 * bitlen m) := by
      have hb := lt_two_pow_bitlen m
      calc m * (a % m) ≤ m * m := Nat.mul_le_mul_left m hmod.le
        _ < 2 ^ bitlen m * 2 ^ bitlen m := Nat.mul_lt_mul'' hb hb
        _ = 2 ^ (2 * bitlen m) := by rw [← pow_add, two_mul]
    have hinv := euclid_inverse (a := a) (t0 := 0) (t1 := 1 % m) hm _ hmod hfuel (by rwa [Nat.gcd_comm])
      (by simp) (by simp)
    have hx' : x = euclid m (2 * bitlen m + 1) m (a % m) 0 (1 % m) := by simpa [invMod, ha, hg] using hx.symm
    rw [← hx', mul_comm] at hinv
    exact (ZMod.natCast_eq_natCast_iff' (a * x) 1 m).mp (by simpa using hinv)

/-- The Montgomery context of an odd modulus that fits the width: the radix fits it too, passes the modulus, and RINV is
its inverse (R160, R161). -/
theorem montContext_laws {gran n W : Nat} (hodd : n % 2 = 1) (hn : n < 2 ^ W) (hg : 0 < gran) (hd : gran ∣ W) :
    (montContext gran n).bl ≤ W ∧ n < 2 ^ (montContext gran n).bl ∧ (montContext gran n).rinv < n ∧
      2 ^ (montContext gran n).bl * (montContext gran n).rinv % n = 1 % n := by
  have hc : Nat.Coprime (2 ^ montExp gran n % n) n := by
    have h2 : Nat.Coprime n 2 := (Nat.coprime_two_right).mpr (Nat.odd_iff.mpr hodd)
    rw [Nat.Coprime, ← Nat.gcd_rec]
    exact h2.pow_right _
  obtain ⟨x, hx, hlt, hmul⟩ := invMod_of_coprime (by omega) hc
  have hrinv : (montContext gran n).rinv = x := by simp [montContext, hx]
  refine ⟨montExp_le hg hd hn, (bitlen_le_iff n _).mp (montExp_bounds hg n).1, hrinv ▸ hlt, ?_⟩
  rw [hrinv, ← hmul, Nat.mod_mul_mod]
  rfl

end Sys2Proof.Machine
end

section
/-! PROOFS. What a command's rule can write, said once for every command: the result flags and contexts of its own family
(10_state.md R38, R41, R44, R47, R50; 41_montgomery.md R160; 43_curve_context.md R221). -/

namespace Sys2Proof.Machine

/-- The writes name no flag and no context but those of the opcode's family (R50, R160, R221). -/
def Writes.Within (o : Op) (w : Writes) : Prop :=
  (o ≠ .peq → w.eq = none) ∧ (o ≠ .everify → w.valid = none ∧ w.vrange = none) ∧
    (o ∉ [.padd, .pdbl, .j2a, .smul, .smulg] → w.inf = none) ∧ (o ≠ .mctx → w.mont = none) ∧
    (o ≠ .curve → w.curve = none)

/-- A rule's result whose writes, if it succeeds, are within the opcode's family. -/
def CmdResult.Within (o : Op) (r : CmdResult) : Prop := ∀ w, r = .ok w → w.Within o

@[simp] theorem within_error (o : Op) (e : ErrorCode) (k : Nat) : (CmdResult.error e k).Within o := by
  intro w h
  cases h

@[simp] theorem within_raise (o : Op) (e : ErrorCode) : (CmdResult.raise e).Within o := within_error o e 0

@[simp] theorem within_ok {o : Op} {w : Writes} : (CmdResult.ok w).Within o ↔ w.Within o :=
  ⟨fun h => h w rfl, fun h _ e => by cases e; exact h⟩

/-- Register writes alone are within every family. -/
@[simp] theorem within_regs (o : Op) (l : List (Reg × Nat)) (k : Nat) : ({ regs := l, draws := k } : Writes).Within o := by
  simp [Writes.Within]

@[simp] theorem within_oneWrite (o : Op) (rd : Reg) (x : Nat) : (oneWrite rd x).Within o := within_regs o _ 0

/-- A point write sets INF besides, which the point-writing families may (R246). -/
theorem within_pointWrites {o : Op} (ho : o ∈ [Op.padd, .pdbl, .j2a, .smul, .smulg]) (rd : Reg) (t : Jac) (k : Nat) :
    ({ pointWrites rd t with draws := k } : Writes).Within o := by
  simp [Writes.Within, pointWrites, ho]

theorem within_jacobianWrites {o : Op} (ho : o ∈ [Op.padd, .pdbl, .j2a, .smul, .smulg]) (s : State) (rd : Reg) (t : Jac) :
    (jacobianWrites s rd t).Within o := by
  unfold jacobianWrites
  split
  · exact within_pointWrites ho rd t 0
  · split
    · exact within_pointWrites ho rd t 0
    · exact within_pointWrites ho rd _ 4

/-- An open outcome is within the family whose flags it may draw (R244; log 8). -/
theorem within_openOutcome {o : Op} (s : State) (d : Nat) (errs : List ErrorCode) (dst : List Reg) {inf valid : Bool}
    (hi : inf = true → o ∈ [Op.padd, .pdbl, .j2a, .smul, .smulg]) (hv : valid = true → o = .everify) :
    (s.openOutcome d errs dst inf valid).Within o := by
  rcases openOutcome_cases s d errs dst inf valid with ⟨e, -, h⟩ | ⟨w, h, -, hm, hc, he, hwi, hwv, hwr⟩
  · rw [h]
    exact within_error o e _
  · rw [h, within_ok]
    refine ⟨fun _ => he, fun hne => ⟨?_, ?_⟩, fun hni => ?_, fun _ => hm, fun _ => hc⟩
    · exact Option.not_isSome_iff_eq_none.mp fun h => hne (hv (hwv ▸ h))
    · exact Option.not_isSome_iff_eq_none.mp fun h => hne (hv (hwr ▸ h))
    · exact Option.not_isSome_iff_eq_none.mp fun h => hni (hi (hwi ▸ h))

/-! ### The rules -/

/-- MCTX is the one command of its opcode, and CURVE of its own (R104). -/
theorem eq_mctx_of_op {i : Instr} (h : i.op = .mctx) : ∃ rs1, i = .mctx rs1 := by
  cases i <;> cases h
  exact ⟨_, rfl⟩

theorem eq_curve_of_op {i : Instr} (h : i.op = .curve) : ∃ rs1, i = .curve rs1 := by
  cases i <;> cases h
  exact ⟨_, rfl⟩

theorem within_reduceBy (o : Op) (rd : Reg) (t f : Nat) : (reduceBy rd t f).Within o := by
  unfold reduceBy
  split
  · exact within_raise o _
  · exact within_ok.mpr (within_oneWrite o _ _)

theorem within_ruleInv (o : Op) (rd rs1 rs2 : Reg) (s : State) : (ruleInv rd rs1 rs2 s).Within o := by
  unfold ruleInv
  split
  · exact within_raise o _
  · split
    · exact within_ok.mpr (within_oneWrite o _ _)
    · exact within_raise o _

/-- An MCTX that succeeds had an odd modulus and writes the Montgomery context alone (R160). -/
theorem ruleMctx_ok {rs1 : Reg} {s : State} {w : Writes} (h : ruleMctx rs1 s = .ok w) :
    s.reg rs1 % 2 = 1 ∧ w = { mont := some (montContext s.params.montGran (s.reg rs1)) } := by
  unfold ruleMctx at h
  split at h
  · cases h
  · cases h
    exact ⟨by omega, rfl⟩

theorem within_ruleMctx (rs1 : Reg) (s : State) : (ruleMctx rs1 s).Within .mctx := by
  intro w h
  obtain ⟨-, rfl⟩ := ruleMctx_ok h
  simp [Writes.Within]

/-- A CURVE that succeeds passed its checks and writes the curve context and the table alone (R221). -/
theorem loadCurve_ok {p a b h gx gy n : Nat} {w : Writes} (hw : loadCurve p a b h gx gy n = .ok w) :
    checkCurve p a b gx gy n = none ∧
      w = { curve := some (curveContext p a b h gx gy n, buildTable p (a % p) gx gy n) } := by
  unfold loadCurve at hw
  split at hw
  · cases hw
  · cases hw
    exact ⟨‹_›, rfl⟩

theorem within_ruleCurve (c : Reg) (s : State) : (ruleCurve c s).Within .curve := by
  intro w h
  obtain ⟨-, rfl⟩ := loadCurve_ok h
  simp [Writes.Within]

theorem within_ruleJ2a (rd rs1 : Reg) (s : State) : (ruleJ2a rd rs1 s).Within .j2a := by
  have hp (t : Jac) : (CmdResult.ok (pointWrites rd t)).Within .j2a :=
    within_ok.mpr (within_pointWrites (by decide) rd t 0)
  unfold ruleJ2a
  split
  · exact hp _
  · split
    · exact within_raise _ _
    · exact hp _

theorem within_smulRule (order : Bool) (rd rs1 rs2 : Reg) (s : State) : (smulRule order rd rs1 rs2 s).Within .smul := by
  unfold smulRule
  split
  · exact within_ok.mpr (within_pointWrites (by decide) rd _ 0)
  · split
    · exact within_raise _ _
    · dsimp only
      split
      · exact within_raise _ _
      · split
        · exact within_openOutcome s 0 _ _ (fun _ => by decide) (fun h => by cases h)
        · exact within_ok.mpr (within_pointWrites (by decide) rd _ _)

theorem within_ruleSmulg (rd rs2 : Reg) (s : State) : (ruleSmulg rd rs2 s).Within .smulg := by
  unfold ruleSmulg
  split
  · exact within_openOutcome s 0 _ _ (fun _ => by decide) (fun h => by cases h)
  · exact within_ok.mpr (within_pointWrites (by decide) rd _ _)

theorem within_signWith (o : Op) (rd : Reg) (priv e k n x d : Nat) : (signWith rd priv e k n x d).Within o := by
  unfold signWith
  split
  · exact within_error o _ _
  · split
    · exact within_error o _ _
    · split
      · exact within_error o _ _
      · exact within_ok.mpr (within_regs o _ _)

theorem within_ruleEsign (o : Op) (rd rs1 rs2 rs3 : Reg) (s : State) : (ruleEsign rd rs1 rs2 rs3 s).Within o := by
  unfold ruleEsign
  dsimp only
  split
  · exact within_openOutcome s 0 _ _ (fun h => by cases h) (fun h => by cases h)
  · exact within_error o _ _
  · exact within_signWith o _ _ _ _ _ _ _

theorem within_ruleEverify (rs1 rs2 rs3 : Reg) (s : State) : (ruleEverify rs1 rs2 rs3 s).Within .everify := by
  have hv (v : Bool) (r : Option Bool) (d : Nat) :
      (CmdResult.ok { valid := some v, vrange := r, draws := d }).Within .everify := by simp [Writes.Within]
  unfold ruleEverify
  dsimp only
  split
  · unfold verifyInRange
    split
    · exact within_raise _ _
    · split
      · exact within_raise _ _
      · dsimp only
        split
        · exact within_raise _ _
        · split
          · exact hv _ _ _
          · rcases verifySum_cases s _ _ _ _ with ⟨d, h⟩ | ⟨v, d, h⟩
            · rw [h]
              exact within_openOutcome s d _ _ (fun h => by cases h) (fun _ => rfl)
            · rw [h]
              exact hv _ _ _
  · exact hv _ _ _

/-- Every command's rule keeps within its opcode's family. -/
theorem within_ruleOf (i : Instr) (s : State) : (ruleOf i s).Within i.op := by
  have regs (rd : Reg) (x : Nat) (o : Op) : (CmdResult.ok (oneWrite rd x)).Within o :=
    within_ok.mpr (within_oneWrite o rd x)
  cases i with
  | inv rd rs1 rs2 => exact within_ruleInv _ rd rs1 rs2 s
  | mctx rs1 => exact within_ruleMctx rs1 s
  | tomont rd rs1 => exact regs _ _ _
  | frommont rd rs1 => exact regs _ _ _
  | mmul rd rs1 rs2 => exact regs _ _ _
  | mpow rd rs1 rs2 => exact regs _ _ _
  | gfadd rd rs1 rs2 => exact regs _ _ _
  | gfmul rd rs1 rs2 => exact within_ok.mpr (within_regs _ _ 0)
  | gfred rd rs1 rs2 => exact within_reduceBy _ rd _ _
  | gfmulr rd rs1 rs2 rs3 => exact within_reduceBy _ rd _ _
  | curve rs1 => exact within_ruleCurve rs1 s
  | padd rd rs1 rs2 => exact within_ok.mpr (within_jacobianWrites (o := .padd) (by decide) s rd _)
  | pdbl rd rs1 => exact within_ok.mpr (within_jacobianWrites (o := .pdbl) (by decide) s rd _)
  | peq rs1 rs2 => exact within_ok.mpr (by simp [Writes.Within, Instr.op])
  | j2a rd rs1 => exact within_ruleJ2a rd rs1 s
  | smul rd rs1 rs2 => exact within_smulRule false rd rs1 rs2 s
  | smulO rd rs1 rs2 => exact within_smulRule true rd rs1 rs2 s
  | smulg rd rs2 => exact within_ruleSmulg rd rs2 s
  | esign rd rs1 rs2 rs3 => exact within_ruleEsign _ rd rs1 rs2 rs3 s
  | everify rs1 rs2 rs3 => exact within_ruleEverify rs1 rs2 rs3 s

/-- What a completed command leaves: STATUS alone changed by an error, which spares the flags and the context bits, or the
commit of writes within the family. -/
theorem exec_next_cases {i : Instr} {s t : State} (h : exec i s = .next t) :
    (∃ e k, t = (s.takeDraws k).raise e) ∨ ∃ w, ruleOf i s = .ok w ∧ w.Within i.op ∧ t = s.commit w := by
  rcases exec_next h with rfl | rfl | ⟨-, -, -, rfl⟩
  · exact .inl ⟨_, 0, rfl⟩
  · exact .inl ⟨_, 0, rfl⟩
  · cases hr : ruleOf i s with
    | error e k => exact .inl ⟨e, k, rfl⟩
    | ok w => exact .inr ⟨w, rfl, within_ruleOf i s w hr, rfl⟩

end Sys2Proof.Machine

namespace Sys2Proof

open Machine

/-- Settles O30: an error spares every flag, and a rule's writes keep within its family. -/
theorem commandFlagFrame : Obligations.CommandFlagFrame := by
  intro i s t h
  rcases exec_next_cases h with ⟨e, k, rfl⟩ | ⟨w, -, ⟨heq, hverdict, hinf, -, -⟩, rfl⟩
  · simp
  · refine ⟨fun hi => ?_, fun hi => ⟨?_, ?_⟩, fun hi => ?_⟩
    · simp [heq hi]
    · simp [(hverdict hi).1]
    · simp [(hverdict hi).2]
    · simp [hinf hi]

/-- Settles O31: an error spares the contexts, and a rule's writes keep within its family. -/
theorem contextWriters : Obligations.ContextWriters := by
  intro i s t h
  rcases exec_next_cases h with ⟨e, k, rfl⟩ | ⟨w, -, ⟨-, -, -, hmont, hcurve⟩, rfl⟩
  · simp
  · exact ⟨fun hi => by simp [hmont hi], fun hi => by simp [hcurve hi]⟩

end Sys2Proof
end

section
/-! PROOFS. What no command reads (10_state.md R37, R50; 30_encoding.md R112; 43_curve_context.md R221, R223): its outcome is a
function of the rest of the state. -/

namespace Sys2Proof.Machine

/-- Two states that a command's checks and its rule do not tell apart: it stops on both, or completes on both with one
result, the rule's own or an error (R113, R350). -/
theorem exec_congr {i : Instr} {s u : State} (hctx : u.contextValid (contextOf i) = s.contextValid (contextOf i))
    (hsrc : u.sourcesWritten i = s.sourcesWritten i) (hrule : ruleOf i u = ruleOf i s) :
    (exec i s = .fault .unwrittenOperand ∧ exec i u = .fault .unwrittenOperand) ∨
      ∃ r, (r = ruleOf i s ∨ ∃ e, r = .error e 0) ∧ exec i s = .next (s.finish r) ∧ exec i u = .next (u.finish r) := by
  rw [exec_eq_runCommand, exec_eq_runCommand]
  rcases runCommand_cases s i (ruleOf i) with ⟨hw, e⟩ | ⟨hw, hc, e⟩ | ⟨hu, e⟩ | ⟨hw, hc, hs, e⟩
  · exact .inr ⟨_, .inr ⟨.illegalCommand, rfl⟩, e, runCommand_illformed _ hw⟩
  · exact .inr ⟨_, .inr ⟨.noContext, rfl⟩, e, runCommand_noContext _ hw (hctx.trans hc)⟩
  · have hu' : u.readsUnwritten i = true := by
      rw [State.readsUnwritten, hctx, hsrc]
      exact hu
    exact .inl ⟨e, runCommand_stops _ hu'⟩
  · exact .inr ⟨_, .inl rfl, e, hrule ▸ runCommand_ready _ hw (hctx.trans hc) (hsrc.trans hs)⟩

/-- The state with CTRL, STATUS, CMD, the generator table and the cofactor replaced. -/
def State.withUnread (s : State) (c : Ctrl) (st : Status) (w : Word) (g : List (Option Aff)) (h : Nat) : State :=
  { s with ctrl := c, status := st, cmd := w, gtab := g, curve := { s.curve with h := h } }

section
variable (s : State) (c : Ctrl) (st : Status) (w : Word) (g : List (Option Aff)) (h : Nat)

/-- No rule reads any of them. -/
theorem ruleOf_withUnread (i : Instr) : ruleOf i (s.withUnread c st w g h) = ruleOf i s := by
  cases i <;> rfl

theorem sourcesWritten_withUnread (i : Instr) : (s.withUnread c st w g h).sourcesWritten i = s.sourcesWritten i := rfl

/-- The context check reads the two context bits of STATUS alone (R111). -/
theorem contextValid_withUnread (hm : st.mctxv = s.status.mctxv) (hc : st.curvev = s.status.curvev) (k : Context) :
    (s.withUnread c st w g h).contextValid k = s.contextValid k := by
  cases k with
  | none => rfl
  | mont => exact hm
  | curve => exact hc

end

/-- Completion neither reads nor writes CTRL. -/
theorem finish_withCtrl (s : State) (c : Ctrl) (r : CmdResult) :
    ({ s with ctrl := c } : State).finish r = { s.finish r with ctrl := c } := by
  cases r with
  | error e k => rfl
  | ok w =>
    have hv := v_setRegs_congr (s := s) (u := { s with ctrl := c }) rfl rfl w.regs
    simp [State.commit, hv]

section
variable {s u : State} (r : CmdResult)

/-- What completion leaves in the registers depends on the parameters and the registers. -/
theorem v_finish_congr (hp : u.params = s.params) (hv : u.v = s.v) : (u.finish r).v = (s.finish r).v := by
  cases r with
  | error e k => exact hv
  | ok w => exact v_setRegs_congr hp hv w.regs

theorem mont_finish_congr (hm : u.mont = s.mont) (hv : u.status.mctxv = s.status.mctxv) :
    (u.finish r).mont = (s.finish r).mont ∧ (u.finish r).status.mctxv = (s.finish r).status.mctxv := by
  cases r <;> simp [hm, hv]

theorem draws_finish_congr (hd : u.draws = s.draws) : (u.finish r).draws = (s.finish r).draws := by
  cases r <;> simp [hd]

/-- The curve context but the cofactor, likewise. -/
theorem curve_finish_congr (hc : { u.curve with h := 0 } = { s.curve with h := 0 })
    (hv : u.status.curvev = s.status.curvev) :
    { (u.finish r).curve with h := 0 } = { (s.finish r).curve with h := 0 } ∧
      (u.finish r).status.curvev = (s.finish r).status.curvev := by
  cases r with
  | error e k => exact ⟨hc, hv⟩
  | ok w =>
    cases hw : w.curve with
    | none => simpa [hw, hv] using hc
    | some x => simp [hw]

/-- From a STATUS without an outcome, completion leaves ERR, ECODE and flags that the result alone decides (R112, R113). -/
theorem flags_finish_congr (hs : NoResult s.status) (hu : NoResult u.status) :
    (u.finish r).status.err = (s.finish r).status.err ∧ (u.finish r).status.ecode = (s.finish r).status.ecode ∧
      (u.finish r).status.eq = (s.finish r).status.eq ∧ (u.finish r).status.valid = (s.finish r).status.valid ∧
      (u.finish r).status.inf = (s.finish r).status.inf ∧ (u.finish r).status.vrange = (s.finish r).status.vrange := by
  obtain ⟨hs1, hs2, hs3, hs4, hs5, hs6⟩ := hs
  obtain ⟨hu1, hu2, hu3, hu4, hu5, hu6⟩ := hu
  cases r <;> simp [*]

end

/-- A CURVE that completes without an error leaves its own context and table, whatever stood there (R221). -/
theorem loaded_finish_congr {s u v : State} {i : Instr} (hi : i.op = .curve) {r : CmdResult}
    (hr : r = ruleOf i v ∨ ∃ e, r = .error e 0) (herr : (s.finish r).status.err = false) :
    (u.finish r).curve = (s.finish r).curve ∧ (u.finish r).gtab = (s.finish r).gtab ∧
      (u.finish r).status.gtabv = (s.finish r).status.gtabv := by
  cases r with
  | error e k => cases herr
  | ok w =>
    obtain ⟨rs1, rfl⟩ := eq_curve_of_op hi
    obtain hr | ⟨e, hr⟩ := hr
    · obtain ⟨-, rfl⟩ := loadCurve_ok (w := w) hr.symm
      simp
    · cases hr

end Sys2Proof.Machine

namespace Sys2Proof

open Machine

/-- Settles O32: neither the checks and the rule nor the completion read CTRL. -/
theorem nafWidthNeverMatters : Obligations.NafWidthNeverMatters := by
  intro i s w
  have hrule := ruleOf_withUnread s { s.ctrl with nafw := w } s.status s.cmd s.gtab s.curve.h i
  rcases exec_congr (s := s) (u := { s with ctrl := { s.ctrl with nafw := w } }) rfl rfl hrule with
    ⟨hs, hu⟩ | ⟨r, -, hs, hu⟩
  · rw [hs, hu]
    rfl
  · rw [hs, hu, finish_withCtrl, ← (finish_frame s r).2.1]
    rfl

/-- Settles O33: both states complete with one result, which is committed over the parts a command does not read. -/
theorem unreadStateNeverMatters : Obligations.UnreadStateNeverMatters := by
  intro i s t c st w g h hexec hm hc
  rcases exec_congr (contextValid_withUnread s c st w g h hm hc _) (sourcesWritten_withUnread s c st w g h i)
    (ruleOf_withUnread s c st w g h i) with ⟨hs, -⟩ | ⟨r, hr, hs, hu⟩
  · rw [hs] at hexec
    cases hexec
  · rw [hs] at hexec
    cases hexec
    obtain ⟨hmont, hmctxv⟩ := mont_finish_congr (s := s) (u := s.withUnread c st w g h) r rfl hm
    obtain ⟨hcurve, hcurvev⟩ := curve_finish_congr (s := s) (u := s.withUnread c st w g h) r rfl hc
    refine ⟨_, hu, v_finish_congr r rfl rfl, hmont, draws_finish_congr r rfl, hcurve, hmctxv, hcurvev, fun hsn hun => ?_⟩
    obtain ⟨he, hec, heq, hva, hin, hvr⟩ := flags_finish_congr (u := s.withUnread c st w g h) r hsn hun
    exact ⟨he, hec, heq, hva, hin, hvr, fun hi herr => loaded_finish_congr hi hr herr⟩

end Sys2Proof
end

section
/-! PROOFS. The control registers of the window: what STATUS, CTRL, CMD, ID and PARAM read, and what a write of STATUS or CTRL
stores (10_state.md R34 to R40; 20_memory.md R81 to R83). -/

namespace Sys2Proof.Machine

/-! ### Bits of a word -/

theorem flagBit_eq (b : Bool) (k : Nat) : flagBit b k = b.toNat * 2 ^ k := by
  cases b <;> simp [flagBit]

/-- A bit of a word is its binary digit. -/
theorem getLsbD_of_digit {w : Word} {k : Nat} {b : Bool} (h : w.toNat / 2 ^ k % 2 = b.toNat) : w.getLsbD k = b := by
  rw [BitVec.getLsbD, Nat.testBit_eq_decide_div_mod_eq, h]
  cases b <;> rfl

/-- Every field of STATUS fits its place (R38). -/
theorem status_field_bounds (t : Status) :
    t.busy.toNat < 2 ∧ t.done.toNat < 2 ∧ t.err.toNat < 2 ∧ t.overrun.toNat < 2 ∧ t.ecode.toNat < 16 ∧ t.eq.toNat < 2 ∧
      t.valid.toNat < 2 ∧ t.inf.toNat < 2 ∧ t.vrange.toNat < 2 ∧ t.mctxv.toNat < 2 ∧ t.curvev.toNat < 2 ∧
      t.gtabv.toNat < 2 := by
  simp only [Bool.toNat_lt, true_and, and_true]
  exact t.ecode.isLt

/-- STATUS's word is the sum of its fields at their places (R38): no two of them overlap. -/
theorem status_word_toNat (t : Status) :
    t.word.toNat = t.busy.toNat + t.done.toNat * 2 + t.err.toNat * 4 + t.overrun.toNat * 8 + t.ecode.toNat * 16 +
      t.eq.toNat * 256 + t.valid.toNat * 512 + t.inf.toNat * 1024 + t.vrange.toNat * 2048 + t.mctxv.toNat * 4096 +
      t.curvev.toNat * 8192 + t.gtabv.toNat * 16384 := by
  have hbounds := status_field_bounds t
  simp only [Status.word, flagBit_eq, BitVec.toNat_ofNat]
  omega

/-- PARAM's word is the sum of its fields at their places (R35). -/
theorem paramWord_toNat {p : Params} (hW : p.width ≤ 1024) :
    (paramWord p).toNat = p.width + 32 * 65536 + (if p.montGran = 64 then 1 else 0) * 4194304 := by
  simp only [paramWord, BitVec.toNat_ofNat]
  split <;> omega

/-! ### Accesses -/

/-- An aligned 32-bit read inside the window that is no draw answers the word at its place (R82). -/
theorem memRead_of_place {s : State} {off : Nat} (hb : badAccess off 4 = false)
    (hd : s.readIsDrawn (placeAt off) = false) : s.memRead off 4 = some (s.placeWord (placeAt off), s) := by
  simp [State.memRead, hb, hd]

/-- An aligned 32-bit write inside the window is the write at its place (R83). -/
theorem memWrite_of_place (s : State) {off : Nat} (hb : badAccess off 4 = false) (w : Word) :
    s.memWrite off 4 w = some (s.writePlace (placeAt off) w) := by
  simp [State.memWrite, hb]

/-- A CTRL write with SRST = 0 stores its fields (R36). -/
theorem writePlace_ctrl_of_not_srst (s : State) {w : Word} (h : w.getLsbD 0 = false) :
    s.writePlace .ctrl w = { s with ctrl := s.ctrl.hostWrite w } := by
  simp only [State.writePlace, h, Bool.false_eq_true, if_false]

/-- What a STATUS write stores (R39). -/
theorem status_hostWrite_fields (t : Status) (w : Word) :
    t.hostWrite w =
      { t with
        done := if w.getLsbD 1 then false else t.done
        overrun := if w.getLsbD 3 then false else t.overrun } := by
  have clear (b c : Bool) : (b && !c) = if c then false else b := by cases c <;> simp
  simp only [Status.hostWrite, clear]

/-- A window width from 2 to 8 is stored (R37). -/
theorem ctrl_hostWrite_nafw_legal (c : Ctrl) {w : Word}
    (h : 2 ≤ w.toNat / 2 ^ 4 % 16 ∧ w.toNat / 2 ^ 4 % 16 ≤ 8) :
    (c.hostWrite w).nafw.toNat = w.toNat / 2 ^ 4 % 16 := by
  rw [Ctrl.hostWrite, if_pos h]
  exact BitVec.toNat_ofNat _ _

/-- Any other width leaves NAFW as it was (R37). -/
theorem ctrl_hostWrite_nafw_illegal (c : Ctrl) {w : Word}
    (h : w.toNat / 2 ^ 4 % 16 < 2 ∨ 8 < w.toNat / 2 ^ 4 % 16) : (c.hostWrite w).nafw = c.nafw := by
  rw [Ctrl.hostWrite, if_neg (by omega)]

end Sys2Proof.Machine

namespace Sys2Proof

open Machine

/-- Settles O17: each field is a binary digit, or four, of the word's sum. -/
theorem statusWordLayout : Obligations.StatusWordLayout := by
  intro t
  have hbounds := status_field_bounds t
  have hw := status_word_toNat t
  refine ⟨getLsbD_of_digit ?_, getLsbD_of_digit ?_, getLsbD_of_digit ?_, getLsbD_of_digit ?_, ?_, getLsbD_of_digit ?_,
    getLsbD_of_digit ?_, getLsbD_of_digit ?_, getLsbD_of_digit ?_, getLsbD_of_digit ?_, getLsbD_of_digit ?_,
    getLsbD_of_digit ?_, ?_⟩ <;> omega

/-- Settles O11: none of the five places is a draw while a command is in flight, and the two constants take no write. -/
theorem fixedRegistersRead : Obligations.FixedRegistersRead := by
  intro s
  have quiet : (s.status.busy && false) = false := Bool.and_false _
  refine ⟨fun w => ⟨memWrite_of_place s rfl w, memWrite_of_place s rfl w⟩, memRead_of_place rfl quiet,
    memRead_of_place rfl quiet, memRead_of_place rfl quiet, memRead_of_place rfl quiet,
    fun hlegal => ⟨paramWord s.params, memRead_of_place rfl quiet, ?_⟩⟩
  have hW : s.params.width ≤ 1024 := by
    simp only [Params.legal, Bool.and_eq_true, decide_eq_true_eq] at hlegal
    exact hlegal.1.1.2
  rw [paramWord_toNat hW]
  split <;> omega

/-- Settles O18: the two writes are `hostWrite` of their register, whether or not a command is in flight. -/
theorem statusAndCtrlWrites : Obligations.StatusAndCtrlWrites := by
  intro s w
  refine ⟨?_, fun hsrst => ⟨s.ctrl.hostWrite w, ?_, rfl, ctrl_hostWrite_nafw_legal s.ctrl, ctrl_hostWrite_nafw_illegal s.ctrl⟩⟩
  · rw [memWrite_of_place s rfl]
    exact congrArg (fun st => some { s with status := st }) (status_hostWrite_fields s.status w)
  · rw [memWrite_of_place s rfl]
    exact congrArg some (writePlace_ctrl_of_not_srst s hsrst)

end Sys2Proof
end

section
/-! PROOFS. The reset state, and the invariant that every step of every agent keeps (10_state.md R30, R31, R37, R38, R41, R44, R47,
R51; 41_montgomery.md R160, R161; 43_curve_context.md R221 to R223). -/

namespace Sys2Proof

open Machine

/-! ### The registers -/

/-- What the legal widths grant (R7, R9, R73). -/
theorem legal_width {p : Params} (h : p.legal = true) :
    p.width = 32 * wordCount p ∧ wordCount p ≤ 32 ∧ 0 < p.montGran ∧ p.montGran ∣ p.width := by
  simp only [Params.legal, Bool.and_eq_true, Bool.or_eq_true, beq_iff_eq, decide_eq_true_eq] at h
  obtain ⟨⟨⟨⟨h64, -⟩, hmax⟩, hgran⟩, -⟩ := h
  have hdvd : p.montGran ∣ p.width := by
    rcases hgran with hg | hg <;> rw [hg] <;> omega
  unfold wordCount
  exact ⟨by omega, by omega, by omega, hdvd⟩

/-- No bit of `allWritten` stands past word `W/32 - 1` (R31). -/
theorem allWritten_lt (p : Params) : (allWritten p).toNat < 2 ^ wordCount p := by
  have := Nat.two_pow_pos (wordCount p)
  rw [allWritten, BitVec.toNat_ofNat]
  exact (Nat.mod_le _ _).trans_lt (by omega)

/-- Replacing a word inside the width keeps a W-bit value (R73, R83). -/
theorem setWord_lt {x j n : Nat} (w : Word) (hj : j < n) (hx : x < 2 ^ (32 * n)) : setWord x j w < 2 ^ (32 * n) := by
  obtain ⟨d, rfl⟩ : ∃ d, n = j + 1 + d := ⟨n - (j + 1), by omega⟩
  have hlow : x % 2 ^ (32 * j) < 2 ^ (32 * j) := Nat.mod_lt _ (Nat.two_pow_pos _)
  have hw : (w.toNat + 1) * 2 ^ (32 * j) ≤ 2 ^ (32 * (j + 1)) := by
    rw [show 32 * (j + 1) = 32 + 32 * j by ring, pow_add]
    exact Nat.mul_le_mul_right _ w.isLt
  have hhigh : (x / 2 ^ (32 * (j + 1)) + 1) * 2 ^ (32 * (j + 1)) ≤ 2 ^ (32 * (j + 1 + d)) := by
    rw [mul_add 32 (j + 1) d, pow_add] at hx ⊢
    rw [mul_comm (2 ^ (32 * (j + 1))) (2 ^ (32 * d))]
    exact Nat.mul_le_mul_right _ (Nat.div_lt_of_lt_mul hx)
  rw [add_mul, one_mul] at hw hhigh
  unfold setWord
  omega

/-- A register set to a W-bit value with legal written bits keeps every register legal. -/
theorem regsOk_set {s : State} (h : RegsOk s) (i : Reg) {x : VReg} (hx : x.value < 2 ^ s.params.width)
    (hw : x.written.toNat < 2 ^ wordCount s.params) : RegsOk { s with v := s.v.set i x } := by
  intro j
  by_cases hij : i.val = j.val
  · simpa [State.reg, Vector.getElem_set, hij] using ⟨hx, hw⟩
  · simpa [State.reg, Vector.getElem_set, hij] using h j

theorem regsOk_setRegs {s : State} (h : RegsOk s) (l : List (Reg × Nat)) : RegsOk (s.setRegs l) := by
  induction l generalizing s with
  | nil => exact h
  | cons x l ih => exact ih (regsOk_set h x.1 (Nat.mod_lt _ (Nat.two_pow_pos _)) (allWritten_lt s.params))

/-- A host write of a word of a V register (R83). -/
theorem regsOk_setRegWord {s : State} (hl : s.params.legal = true) (h : RegsOk s) (i : Reg) {j : Nat}
    (hj : j < wordCount s.params) (w : Word) : RegsOk (s.setRegWord i j w) := by
  obtain ⟨hW, h32, -⟩ := legal_width hl
  obtain ⟨hval, hwr⟩ := h i
  refine regsOk_set h i ?_ ?_
  · rw [hW] at hval ⊢
    exact setWord_lt w hj hval
  · rw [BitVec.toNat_or, BitVec.toNat_ofNat]
    exact Nat.or_lt_two_pow hwr ((Nat.mod_le _ _).trans_lt (Nat.pow_lt_pow_right one_lt_two hj))

/-- The registers right after hard reset (R390). -/
theorem regsOk_hardReset (s : State) : RegsOk s.hardReset := by
  intro i
  rw [State.reg, hardReset_v, drawnRegs_get]
  exact ⟨Nat.mod_lt _ (Nat.two_pow_pos _), Nat.two_pow_pos _⟩

/-! ### CTRL and STATUS -/

theorem ctrlOk_of_reset {s : State} (h : s.ctrl = Ctrl.reset) : CtrlOk s := by
  rw [CtrlOk, h]
  decide

/-- A CTRL write stores only legal widths (R37). -/
theorem ctrlOk_hostWrite {s : State} (h : CtrlOk s) (w : Word) : CtrlOk { s with ctrl := s.ctrl.hostWrite w } := by
  by_cases hw : 2 ≤ w.toNat / 2 ^ 4 % 16 ∧ w.toNat / 2 ^ 4 % 16 ≤ 8
  · change 2 ≤ (s.ctrl.hostWrite w).nafw.toNat ∧ (s.ctrl.hostWrite w).nafw.toNat ≤ 8
    rwa [ctrl_hostWrite_nafw_legal s.ctrl hw]
  · change 2 ≤ (s.ctrl.hostWrite w).nafw.toNat ∧ (s.ctrl.hostWrite w).nafw.toNat ≤ 8
    rw [ctrl_hostWrite_nafw_illegal s.ctrl (by omega)]
    exact h

theorem statusOk_reset : StatusOk Status.reset := by
  unfold StatusOk
  decide

/-- Acceptance clears what a command in flight must not show (R112). -/
theorem statusOk_accept (t : Status) : StatusOk t.accept := by
  simp [StatusOk, legalEcode]

/-- An error completion places a code of R352. -/
theorem statusOk_fail (t : Status) (e : ErrorCode) : StatusOk (t.fail e) := by
  cases e <;> simp [StatusOk, legalEcode, ErrorCode.code]

/-- A successful completion keeps ERR and ECODE (R113). -/
theorem statusOk_setFlags_complete {t : Status} (h : StatusOk t) (w : Writes) : StatusOk (t.setFlags w).complete := by
  obtain ⟨hcode, herr, -⟩ := h
  exact ⟨hcode, herr, fun hb => by cases hb⟩

/-- A STATUS write only lowers DONE and OVERRUN (R39). -/
theorem statusOk_hostWrite {t : Status} (h : StatusOk t) (w : Word) : StatusOk (t.hostWrite w) := by
  obtain ⟨hcode, herr, hbusy⟩ := h
  refine ⟨hcode, herr, fun hb => ?_⟩
  obtain ⟨hdone, hflags⟩ := hbusy hb
  exact ⟨by simp [hdone], hflags⟩

/-! ### The contexts -/

/-- A Montgomery context of an odd modulus that fits `W` bits (R160, R161). -/
def MontLoaded (W : Nat) (c : MontCtx) : Prop :=
  c.n % 2 = 1 ∧ c.n < 2 ^ W ∧ c.bl ≤ W ∧ c.n < 2 ^ c.bl ∧ c.r2 = 2 ^ c.bl * 2 ^ c.bl % c.n ∧ c.rinv < c.n ∧
    2 ^ c.bl * c.rinv % c.n = 1 % c.n

/-- A curve context that passed CURVE's checks on W-bit values, with its table (R221 to R223). -/
def CurveLoaded (W : Nat) (c : CurveCtx) (g : List (Option Aff)) : Prop :=
  c.p % 2 = 1 ∧ 5 ≤ c.p ∧ c.p < 2 ^ W ∧ c.a < c.p ∧ c.b < c.p ∧ c.h < 2 ^ W ∧ c.gx < c.p ∧ c.gy < c.p ∧ c.gy ≠ 0 ∧
    onCurve c.gx c.gy c.p c.a c.b = true ∧ 2 ≤ c.n ∧ c.n < 2 ^ W ∧ g = buildTable c.p c.a c.gx c.gy c.n

theorem montOk_iff (s : State) : MontOk s ↔
    (s.status.mctxv = false → s.mont = MontCtx.reset) ∧ (s.status.mctxv = true → MontLoaded s.params.width s.mont) :=
  Iff.rfl

theorem curveOk_iff (s : State) : CurveOk s ↔
    s.status.gtabv = s.status.curvev ∧ (s.status.curvev = false → s.curve = CurveCtx.reset ∧ s.gtab = []) ∧
      (s.status.curvev = true → CurveLoaded s.params.width s.curve s.gtab) :=
  Iff.rfl

/-- MCTX loads such a context (R160). -/
theorem montLoaded_montContext {p : Params} (hl : p.legal = true) {n : Nat} (hodd : n % 2 = 1) (hn : n < 2 ^ p.width) :
    MontLoaded p.width (montContext p.montGran n) := by
  obtain ⟨-, -, hg, hd⟩ := legal_width hl
  obtain ⟨hbl, hR, hlt, hinv⟩ := montContext_laws hodd hn hg hd
  exact ⟨hodd, hn, hbl, hR, rfl, hlt, hinv⟩

/-- What CURVE's checks pass (R222). -/
theorem checkCurve_eq_none {p a b gx gy n : Nat} (h : checkCurve p a b gx gy n = none) :
    p % 2 = 1 ∧ 5 ≤ p ∧ 2 ≤ n ∧ gx < p ∧ gy < p ∧ gy ≠ 0 ∧ onCurve gx gy p (a % p) (b % p) = true := by
  unfold checkCurve at h
  split at h
  · cases h
  · split at h
    · cases h
    · split at h
      · cases h
      · rename_i hp hn hg
        simp only [not_or, Bool.not_eq_false] at hg
        obtain ⟨hx, hy, hy0, hon⟩ := hg
        exact ⟨by omega, by omega, by omega, by omega, by omega, hy0, hon⟩

/-- CURVE loads such a context from W-bit values (R221). -/
theorem curveLoaded_curveContext {W p a b h gx gy n : Nat} (hc : checkCurve p a b gx gy n = none) (hp : p < 2 ^ W)
    (hh : h < 2 ^ W) (hn : n < 2 ^ W) :
    CurveLoaded W (curveContext p a b h gx gy n) (buildTable p (a % p) gx gy n) := by
  obtain ⟨hodd, h5, hn2, hx, hy, hy0, hon⟩ := checkCurve_eq_none hc
  exact ⟨hodd, h5, hp, Nat.mod_lt _ (by omega), Nat.mod_lt _ (by omega), hh, hx, hy, hy0, hon, hn2, hn, rfl⟩

/-- Whatever context the writes load is a good one. -/
def LoadsGoodContext (W : Nat) (w : Writes) : Prop :=
  (∀ c, w.mont = some c → MontLoaded W c) ∧ ∀ c g, w.curve = some (c, g) → CurveLoaded W c g

/-- Only MCTX and CURVE load a context, and both check what they load. -/
theorem loadsGoodContext_of_ruleOf {s : State} (hl : s.params.legal = true) (hr : RegsOk s) {i : Instr} {w : Writes}
    (h : ruleOf i s = .ok w) : LoadsGoodContext s.params.width w := by
  obtain ⟨-, -, -, hmont, hcurve⟩ := within_ruleOf i s w h
  have hreg (r : Reg) : s.reg r < 2 ^ s.params.width := (hr r).1
  constructor
  · intro c hc
    have hi : i.op = .mctx := by
      by_contra hne
      rw [hmont hne] at hc
      cases hc
    obtain ⟨rs1, rfl⟩ := eq_mctx_of_op hi
    obtain ⟨hodd, rfl⟩ := ruleMctx_ok h
    cases hc
    exact montLoaded_montContext hl hodd (hreg rs1)
  · intro c g hc
    have hi : i.op = .curve := by
      by_contra hne
      rw [hcurve hne] at hc
      cases hc
    obtain ⟨rs1, rfl⟩ := eq_curve_of_op hi
    obtain ⟨hcheck, rfl⟩ := loadCurve_ok h
    cases hc
    exact curveLoaded_curveContext hcheck (hreg _) (hreg _) (hreg _)

theorem montOk_commit {s : State} (h : MontOk s) {w : Writes} (hw : LoadsGoodContext s.params.width w) :
    MontOk (s.commit w) := by
  rw [montOk_iff] at h ⊢
  cases hm : w.mont with
  | none => simpa [hm] using h
  | some c => simpa [hm] using hw.1 c hm

theorem curveOk_commit {s : State} (h : CurveOk s) {w : Writes} (hw : LoadsGoodContext s.params.width w) :
    CurveOk (s.commit w) := by
  rw [curveOk_iff] at h ⊢
  cases hc : w.curve with
  | none => simpa [hc] using h
  | some x => simpa [hc] using hw.2 x.1 x.2 hc

/-- With both context bits clear, as a reset leaves them, the two contexts are legal when they are reset too. -/
theorem contextsOk_softReset (s : State) : MontOk s.softReset ∧ CurveOk s.softReset :=
  ⟨⟨fun _ => rfl, fun h => by cases h⟩, rfl, fun _ => ⟨rfl, rfl⟩, fun h => by cases h⟩

/-! ### The agents' steps -/

section
variable {s : State} (h : Inv s)
include h

theorem inv_softReset : Inv s.softReset := by
  obtain ⟨hl, hr, -⟩ := h
  exact ⟨hl, hr, ctrlOk_of_reset rfl, statusOk_reset, contextsOk_softReset s⟩

theorem inv_hardReset : Inv s.hardReset := by
  obtain ⟨hl, -⟩ := h
  exact ⟨hl, regsOk_hardReset s, ctrlOk_of_reset rfl, statusOk_reset, contextsOk_softReset s⟩

/-- Any effect of a host write keeps the invariant (R83). -/
theorem inv_writePlace (pl : WindowPlace) (w : Word) : Inv (s.writePlace pl w) := by
  have ⟨hl, hr, hc, hs, hm, hcv⟩ := h
  rcases writePlace_cases s pl w with e | e | e | e | e | ⟨-, e⟩ | ⟨i, j, hj, -, e⟩ <;> rw [e]
  · exact h
  · exact inv_softReset h
  · exact ⟨hl, hr, ctrlOk_hostWrite hc w, hs, hm, hcv⟩
  · exact ⟨hl, hr, hc, statusOk_hostWrite hs w, hm, hcv⟩
  · exact ⟨hl, hr, hc, hs, hm, hcv⟩
  · exact ⟨hl, hr, hc, statusOk_accept _, hm, hcv⟩
  · exact ⟨hl, regsOk_setRegWord hl hr i hj w, hc, hs, hm, hcv⟩

theorem inv_hostStep {t : State} (ht : s.hostStep = .next t) : Inv t := by
  obtain ⟨u, a, rfl, rfl | rfl | ⟨off, w, hw⟩⟩ := hostStep_next ht
  · exact h
  · exact h
  · obtain ⟨-, rfl⟩ := memWrite_some hw
    exact inv_writePlace h _ w

theorem inv_raise (e : ErrorCode) : Inv (s.raise e) := by
  obtain ⟨hl, hr, hc, -, hm, hcv⟩ := h
  exact ⟨hl, hr, hc, statusOk_fail _ e, hm, hcv⟩

theorem inv_commit {w : Writes} (hw : LoadsGoodContext s.params.width w) : Inv (s.commit w) := by
  obtain ⟨hl, hr, hc, hs, hm, hcv⟩ := h
  have hregs := regsOk_setRegs hr w.regs
  rw [setRegs_eq] at hregs
  exact ⟨hl, hregs, hc, statusOk_setFlags_complete hs w, montOk_commit hm hw, curveOk_commit hcv hw⟩

/-- Every command keeps the invariant (R113, R351). -/
theorem inv_exec {i : Instr} {t : State} (ht : exec i s = .next t) : Inv t := by
  have ⟨hl, hr, _⟩ := h
  rcases exec_next_cases ht with ⟨e, k, rfl⟩ | ⟨w, hw, -, rfl⟩
  · exact inv_raise (s := s.takeDraws k) h e
  · exact inv_commit h (loadsGoodContext_of_ruleOf hl hr hw)

theorem inv_coreStep {t : State} (ht : s.coreStep = .next t) : Inv t := by
  rcases coreStep_next ht with rfl | rfl | ⟨i, -, hi⟩
  · exact h
  · exact inv_raise h _
  · exact inv_exec h hi

end

/-- Settles O35: the hard reset, the core's step and the host's step each keep it. -/
theorem stepKeepsInvariant : Obligations.StepKeepsInvariant := by
  intro s t h hstep
  have hpop : Inv s.popTurn := h
  rcases step_next hstep with rfl | hcore | hhost
  · exact inv_hardReset hpop
  · exact inv_coreStep hpop hcore
  · exact inv_hostStep hpop hhost

/-! ### The reset state -/

theorem reset_v_get (i : Reg) : State.reset.v[i] = { value := 0, written := 0 } := by simp [State.reset]

/-- Settles O34. -/
theorem invariantAtReset : Obligations.InvariantAtReset := by
  refine ⟨by decide, fun i => ?_, ctrlOk_of_reset rfl, statusOk_reset, contextsOk_softReset State.reset⟩
  rw [State.reg, reset_v_get]
  exact ⟨Nat.two_pow_pos _, Nat.two_pow_pos _⟩

/-- Settles O21: the reset values written out (R51); the two constants are what the window reads at their places. -/
theorem resetStateValues : Obligations.ResetStateValues := by
  refine ⟨fun i => by rw [reset_v_get], by decide, by decide, rfl, rfl, rfl, rfl, rfl, ?_, ?_, rfl, rfl, rfl⟩
  · rw [memRead_of_place rfl rfl]
    rfl
  · rw [memRead_of_place rfl rfl]
    rfl

end Sys2Proof
end

section
/-! PROOFS. The register window: its map, the words and bytes of a register, and what a host access at each place reads and
stores, with and without a command in flight (20_memory.md R72 to R83). -/

namespace Sys2Proof.Machine

/-! ### Words and bytes of a value -/

/-- Bit `b` of word `j` is bit `32j + b` of the value (R73). -/
theorem getLsbD_wordOf (x j b : Nat) : (wordOf x j).getLsbD b = (decide (b < 32) && x.testBit (32 * j + b)) := by
  rw [wordOf, BitVec.getLsbD_ofNat, Nat.testBit_div_two_pow, Nat.add_comm]

/-- Bit `b` of byte `t` is bit `8t + b` of the value (R75). -/
theorem getLsbD_registerByte (x t b : Nat) :
    (registerByte x t).getLsbD b = (decide (b < 8) && x.testBit (8 * t + b)) := by
  rw [registerByte, BitVec.getLsbD_ofNat, Nat.testBit_div_two_pow, Nat.add_comm]

/-- Bit `b` of byte lane `k` is bit `8k + b` of the word (R75). -/
theorem getLsbD_byteLane (w : Word) (k b : Nat) :
    (byteLane w k).getLsbD b = (decide (b < 8) && w.getLsbD (8 * k + b)) := by
  rw [byteLane, BitVec.getLsbD_ofNat, Nat.testBit_div_two_pow, BitVec.testBit_toNat, Nat.add_comm]

/-- A value with word `j` replaced: the bits below the word, the word, and the bits above it (R83). -/
theorem setWord_eq (x j : Nat) (w : Word) :
    setWord x j w = 2 ^ (32 * j) * (2 ^ 32 * (x / 2 ^ (32 * (j + 1))) + w.toNat) + x % 2 ^ (32 * j) := by
  rw [setWord, Nat.mul_succ, pow_add]
  ring

/-- Replacing word `j` replaces bits `[32j+31 : 32j]` and no other (R83). -/
theorem testBit_setWord (x j : Nat) (w : Word) (n : Nat) :
    (setWord x j w).testBit n = if n / 32 = j then w.getLsbD (n % 32) else x.testBit n := by
  rw [setWord_eq, Nat.testBit_two_pow_mul_add _ (Nat.mod_lt _ (Nat.two_pow_pos _)),
    Nat.testBit_two_pow_mul_add _ w.isLt, Nat.testBit_div_two_pow, Nat.testBit_mod_two_pow, BitVec.testBit_toNat]
  rcases lt_trichotomy (n / 32) j with h | rfl | h
  · have hlow : n < 32 * j := by omega
    simp [hlow, h.ne]
  · have hlow : ¬n < 32 * (n / 32) := by omega
    have hbit : n - 32 * (n / 32) = n % 32 := by omega
    rw [if_neg hlow, hbit, if_pos (Nat.mod_lt n (by decide)), if_pos rfl]
  · have hlow : ¬n < 32 * j := by omega
    have hin : ¬n - 32 * j < 32 := by omega
    have hbit : n - 32 * j - 32 + 32 * (j + 1) = n := by omega
    simp [hlow, hin, hbit, h.ne']

/-- A replaced word reads back (R83). -/
theorem wordOf_setWord_same (x j : Nat) (w : Word) : wordOf (setWord x j w) j = w := by
  refine BitVec.eq_of_getLsbD_eq fun b hb => ?_
  have hword : (32 * j + b) / 32 = j := by omega
  have hbit : (32 * j + b) % 32 = b := by omega
  rw [getLsbD_wordOf, testBit_setWord, hword, if_pos rfl, hbit, decide_eq_true hb, Bool.true_and]

/-- The other words stay (R83). -/
theorem wordOf_setWord_of_ne {k j : Nat} (h : k ≠ j) (x : Nat) (w : Word) :
    wordOf (setWord x j w) k = wordOf x k := by
  refine BitVec.eq_of_getLsbD_eq fun b hb => ?_
  have hword : (32 * k + b) / 32 ≠ j := by omega
  rw [getLsbD_wordOf, getLsbD_wordOf, testBit_setWord, if_neg hword]

/-! ### The map -/

/-- The three conditions of a refused access (R76, R77, R82). -/
theorem badAccess_iff (off size : Nat) :
    badAccess off size = true ↔ size ≠ 4 ∨ off % 4 ≠ 0 ∨ 0x4000 ≤ off := by
  simp [badAccess, windowSize, or_assoc]

/-- An aligned 32-bit access inside the window is not refused (R76, R77, R82). -/
theorem badAccess_of_aligned {off : Nat} (ha : off % 4 = 0) (h : off < 0x4000) : badAccess off 4 = false := by
  rw [← Bool.not_eq_true, badAccess_iff]
  omega

theorem vOffset_bounds (i : Reg) {j : Nat} (hj : j < 32) :
    vOffset i j % 4 = 0 ∧ 0x1000 ≤ vOffset i j ∧ vOffset i j < 0x2000 := by
  unfold vOffset
  omega

theorem cOffset_bounds (c : Fin 10) {j : Nat} (hj : j < 32) :
    cOffset c j % 4 = 0 ∧ 0x2000 ≤ cOffset c j ∧ cOffset c j < 0x2500 := by
  unfold cOffset
  omega

/-- The V window (R72, R73). -/
theorem placeAt_of_vWindow {off : Nat} (hlo : 0x1000 ≤ off) (hhi : off < 0x2000) :
    placeAt off = .vword (Fin.ofNat 32 ((off - 0x1000) / 0x80)) (off % 0x80 / 4) := by
  unfold placeAt
  iterate 7 rw [if_neg (by omega)]
  rw [if_pos hhi]

/-- The context window (R72, R74). -/
theorem placeAt_of_cWindow {off : Nat} (hlo : 0x2000 ≤ off) (hhi : off < 0x2500) :
    placeAt off = .cword (Fin.ofNat 10 ((off - 0x2000) / 0x80)) (off % 0x80 / 4) := by
  unfold placeAt
  iterate 8 rw [if_neg (by omega)]
  rw [if_pos hhi]

/-- The two reserved ranges (R72, R78), on aligned offsets. -/
theorem placeAt_of_reserved {off : Nat} (ha : off % 4 = 0)
    (h : (0x0018 ≤ off ∧ off < 0x1000) ∨ 0x2500 ≤ off) : placeAt off = .reserved := by
  unfold placeAt
  iterate 6 rw [if_neg (by omega)]
  rcases h with ⟨-, hlow⟩ | hhigh
  · rw [if_pos hlow]
  · iterate 3 rw [if_neg (by omega)]

/-- Word `j` of `V[i]` stands at `vOffset i j` (R73). -/
theorem placeAt_vOffset (i : Reg) {j : Nat} (hj : j < 32) : placeAt (vOffset i j) = .vword i j := by
  obtain ⟨-, hlo, hhi⟩ := vOffset_bounds i hj
  have hreg : Fin.ofNat 32 ((vOffset i j - 0x1000) / 0x80) = i :=
    Fin.ext (by rw [Fin.val_ofNat, vOffset]; omega)
  have hword : vOffset i j % 0x80 / 4 = j := by rw [vOffset]; omega
  rw [placeAt_of_vWindow hlo hhi, hreg, hword]

/-- Word `j` of context register `c` stands at `cOffset c j` (R74). -/
theorem placeAt_cOffset (c : Fin 10) {j : Nat} (hj : j < 32) : placeAt (cOffset c j) = .cword c j := by
  obtain ⟨-, hlo, hhi⟩ := cOffset_bounds c hj
  have hreg : Fin.ofNat 10 ((cOffset c j - 0x2000) / 0x80) = c :=
    Fin.ext (by rw [Fin.val_ofNat, cOffset]; omega)
  have hword : cOffset c j % 0x80 / 4 = j := by rw [cOffset]; omega
  rw [placeAt_of_cWindow hlo hhi, hreg, hword]

/-! ### Accesses -/

/-- A refused read (R76, R77). -/
theorem memRead_of_bad (s : State) {off size : Nat} (h : badAccess off size = true) : s.memRead off size = none := by
  rw [State.memRead, if_pos h]

/-- A refused write (R76, R77). -/
theorem memWrite_of_bad (s : State) {off size : Nat} (h : badAccess off size = true) (w : Word) :
    s.memWrite off size w = none := by
  rw [State.memWrite, if_pos h]

/-- A bus address at or above BASE has an offset (R71). -/
theorem windowOffset_base_add (p : Params) (off : Nat) : windowOffset p (p.base + off) = some off := by
  rw [windowOffset, if_neg (by omega), Nat.add_sub_cancel_left]

/-- A host read that the bus refuses stops with AccessFault (R76, R77). -/
theorem busRead_of_bad (s : State) {off size : Nat} (h : badAccess off size = true) (use : Word → State → State) :
    s.busRead (s.params.base + off) size use = .fault (.accessFault off size) := by
  simp only [State.busRead, windowOffset_base_add, memRead_of_bad s h]

/-- A host write that the bus refuses stops with AccessFault (R76, R77). -/
theorem busWrite_of_bad (s : State) {off size : Nat} (h : badAccess off size = true) (w : Word)
    (after : State → State) :
    s.busWrite (s.params.base + off) size w after = .fault (.accessFault off size) := by
  simp only [State.busWrite, windowOffset_base_add, memWrite_of_bad s h]

/-- No read is a draw with no command in flight (R82). -/
theorem readIsDrawn_of_idle {s : State} (h : s.status.busy = false) (pl : WindowPlace) : s.readIsDrawn pl = false := by
  simp [State.readIsDrawn, h]

/-- In flight, the V window and the context window are draws (R81). -/
theorem readIsDrawn_vword {s : State} (h : s.status.busy = true) (i : Reg) (j : Nat) :
    s.readIsDrawn (.vword i j) = true := by
  simp [State.readIsDrawn, h]

theorem readIsDrawn_cword {s : State} (h : s.status.busy = true) (c : Fin 10) (j : Nat) :
    s.readIsDrawn (.cword c j) = true := by
  simp [State.readIsDrawn, h]

/-- A read that is a draw answers the next free value and counts it (R81, R82). -/
theorem memRead_of_drawn {s : State} {off : Nat} (hb : badAccess off 4 = false)
    (hd : s.readIsDrawn (placeAt off) = true) :
    s.memRead off 4 = some (BitVec.ofNat 32 (Config.draw s.draws), { s with draws := s.draws + 1 }) := by
  simp [State.memRead, hb, hd, State.drawn, State.takeDraws]

/-- In flight, MBL is a draw exactly while the command is MCTX (R81). -/
theorem readIsDrawn_mbl {s : State} (h : s.status.busy = true) :
    s.readIsDrawn .mbl = true ↔ s.cmd.toNat / 2 ^ 26 = 0x04 := by
  have hop : s.cmd.toNat / 2 ^ 26 < 64 := by omega
  simp only [State.readIsDrawn, h, Bool.true_and, beq_iff_eq, Fin.ext_iff, Fields.ofWord, Fin.val_ofNat, Op.code]
  rw [Nat.mod_eq_of_lt hop]
  rfl

/-- Reading word `j` of a V register, with no command in flight (R73). -/
theorem memRead_vOffset {s : State} (h : s.status.busy = false) (i : Reg) {j : Nat} (hj : j < 32) :
    s.memRead (vOffset i j) 4 = some (registerWord s.params (s.reg i) j, s) := by
  obtain ⟨ha, -, hhi⟩ := vOffset_bounds i hj
  rw [memRead_of_place (badAccess_of_aligned ha (by omega)) (readIsDrawn_of_idle h _), placeAt_vOffset i hj]
  rfl

/-- Writing word `j` of a V register (R83). -/
theorem memWrite_vOffset (s : State) (i : Reg) {j : Nat} (hj : j < 32) (w : Word) :
    s.memWrite (vOffset i j) 4 w = some (s.writePlace (.vword i j) w) := by
  obtain ⟨ha, -, hhi⟩ := vOffset_bounds i hj
  rw [memWrite_of_place s (badAccess_of_aligned ha (by omega)), placeAt_vOffset i hj]

/-- Reading word `j` of a context register, with no command in flight (R74). -/
theorem memRead_cOffset {s : State} (h : s.status.busy = false) (c : Fin 10) {j : Nat} (hj : j < 32) :
    s.memRead (cOffset c j) 4 = some (registerWord s.params (s.contextReg c) j, s) := by
  obtain ⟨ha, -, hhi⟩ := cOffset_bounds c hj
  rw [memRead_of_place (badAccess_of_aligned ha (by omega)) (readIsDrawn_of_idle h _), placeAt_cOffset c hj]
  rfl

/-- A write of a word of a context register is ignored (R74, R83). -/
theorem memWrite_cOffset (s : State) (c : Fin 10) {j : Nat} (hj : j < 32) (w : Word) :
    s.memWrite (cOffset c j) 4 w = some s := by
  obtain ⟨ha, -, hhi⟩ := cOffset_bounds c hj
  rw [memWrite_of_place s (badAccess_of_aligned ha (by omega)), placeAt_cOffset c hj]
  rfl

/-- A V word inside the width takes a write with no command in flight (R83). -/
theorem writePlace_vword_idle {s : State} (h : s.status.busy = false) (i : Reg) {j : Nat}
    (hj : j < wordCount s.params) (w : Word) : s.writePlace (.vword i j) w = s.setRegWord i j w := by
  simp [State.writePlace, h, hj]

/-- A V word past the width ignores a write with no command in flight (R73, R83). -/
theorem writePlace_vword_past {s : State} (h : s.status.busy = false) (i : Reg) {j : Nat}
    (hj : wordCount s.params ≤ j) (w : Word) : s.writePlace (.vword i j) w = s := by
  simp [State.writePlace, h, hj]

/-- A write to the V window while a command is in flight is ignored and sets OVERRUN (R81, R83). -/
theorem writePlace_vword_busy {s : State} (h : s.status.busy = true) (i : Reg) (j : Nat) (w : Word) :
    s.writePlace (.vword i j) w = s.overrun := by
  simp [State.writePlace, h]

/-- So does a write to CMD (R81, R83). -/
theorem writePlace_cmd_busy {s : State} (h : s.status.busy = true) (w : Word) : s.writePlace .cmd w = s.overrun := by
  simp [State.writePlace, h]

/-- The `written` bits after a host write of word `j`: bit `j` is set and no other moves (R73). -/
theorem written_setRegWord_same (s : State) (i : Reg) (j : Nat) (w : Word) (k : Nat) :
    (s.setRegWord i j w).v[i].written.getLsbD k = (s.v[i].written.getLsbD k || (decide (k < 32) && decide (j = k))) := by
  rw [setRegWord_v, Fin.getElem_fin, Vector.getElem_set_self, BitVec.getLsbD_or, BitVec.getLsbD_ofNat,
    Nat.testBit_two_pow]

end Sys2Proof.Machine

namespace Sys2Proof

open Machine

/-- Settles O10: the ten context registers and MBL are read through their places, whose writes are ignored. -/
theorem contextWindowReads : Obligations.ContextWindowReads := by
  intro s j c w hj
  exact ⟨fun hidle => ⟨memRead_cOffset hidle c hj, memRead_of_place rfl (readIsDrawn_of_idle hidle _)⟩,
    memWrite_cOffset s c hj w, memWrite_of_place s rfl w⟩

/-- Settles O15: inside the width the write is `setRegWord`, which replaces one word of one register. -/
theorem registerWindowWords : Obligations.RegisterWindowWords := by
  intro s i j w _ hidle hj
  refine ⟨memRead_vOffset hidle i hj, fun hin => ⟨s.setRegWord i j w, ?_, ?_, rfl, ?_, fun k hk => ⟨?_, ?_⟩,
    fun r hr => v_setRegWord_ne s j w hr⟩, fun hpast => ?_⟩
  · exact (memWrite_vOffset s i hj w).trans (congrArg some (writePlace_vword_idle hidle i hin w))
  · refine (memRead_vOffset (s := s.setRegWord i j w) hidle i hj).trans ?_
    have hin' : j < wordCount (s.setRegWord i j w).params := hin
    rw [registerWord, if_pos hin', reg_setRegWord_same, wordOf_setWord_same]
  · rw [written_setRegWord_same, decide_eq_true hj, decide_eq_true rfl, Bool.true_and, Bool.or_true]
  · rw [reg_setRegWord_same, wordOf_setWord_of_ne hk]
  · rw [written_setRegWord_same, decide_eq_false hk.symm, Bool.and_false, Bool.or_false]
  · exact (memWrite_vOffset s i hj w).trans (congrArg some (writePlace_vword_past hidle i hpast w))

/-- Settles O16: both are bits `[8t+7 : 8t]` of the value. -/
theorem registerBytesLittleEndian : Obligations.RegisterBytesLittleEndian := by
  intro x t
  refine BitVec.eq_of_getLsbD_eq fun b hb => ?_
  have hlane : 8 * (t % 4) + b < 32 := by omega
  have hbit : 32 * (t / 4) + (8 * (t % 4) + b) = 8 * t + b := by omega
  rw [getLsbD_registerByte, getLsbD_byteLane, getLsbD_wordOf, hbit, decide_eq_true hlane, Bool.true_and]

/-- Settles O12: both ranges are reserved in the window's map. -/
theorem reservedOffsetsInert : Obligations.ReservedOffsetsInert := by
  intro s off w ha hrange
  have hplace : placeAt off = .reserved := placeAt_of_reserved ha (by omega)
  have hok : badAccess off 4 = false := badAccess_of_aligned ha (by omega)
  constructor
  · rw [memRead_of_place hok (hplace ▸ Bool.and_false _), hplace]
    rfl
  · rw [memWrite_of_place s hok, hplace]
    rfl

/-- Settles O13: the three conditions are those on which the bus refuses an access. -/
theorem badAccessStops : Obligations.BadAccessStops := by
  intro s off size w h
  have hbad : badAccess off size = true := (badAccess_iff off size).mpr h
  exact ⟨busRead_of_bad s hbad _, busWrite_of_bad s hbad w _⟩

/-- Settles O14: in flight the two windows are drawn, MBL during MCTX only, and V and CMD writes are overruns. -/
theorem busyAccessDrawsAndOverruns : Obligations.BusyAccessDrawsAndOverruns := by
  intro s off w hbusy ha
  refine ⟨fun ⟨hlo, hhi⟩ => ?_, ?_, ?_⟩
  · refine memRead_of_drawn (badAccess_of_aligned ha (by omega)) ?_
    by_cases hv : off < 0x2000
    · rw [placeAt_of_vWindow hlo hv]
      exact readIsDrawn_vword hbusy _ _
    · rw [placeAt_of_cWindow (by omega) hhi]
      exact readIsDrawn_cword hbusy _ _
  · split
    · next hmctx => exact memRead_of_drawn rfl ((readIsDrawn_mbl hbusy).mpr hmctx)
    · next hother =>
      exact memRead_of_place rfl (Bool.eq_false_iff.mpr fun hd => hother ((readIsDrawn_mbl hbusy).mp hd))
  · rintro (⟨hlo, hhi⟩ | rfl)
    · rw [memWrite_of_place s (badAccess_of_aligned ha (by omega)), placeAt_of_vWindow hlo hhi,
        writePlace_vword_busy hbusy]
      rfl
    · exact (memWrite_of_place s rfl w).trans (congrArg some (writePlace_cmd_busy hbusy w))

end Sys2Proof
end

section
/-! PROOFS. Decoding and encoding (30_encoding.md R101 to R110): a word and its fields determine each other, and the fields that
R110's checks pass are those of a well-formed command. -/

namespace Sys2Proof

/-! ### Words and fields -/

/-- The sum of R101 keeps every field at its place. -/
theorem ofWord_toWord (f : Fields) : Fields.ofWord f.toWord = f := by
  obtain ⟨op, rd, rs1, rs2, rs3, fn⟩ := f
  simp only [Fields.ofWord, Fields.toWord, BitVec.toNat_ofNat, Fields.mk.injEq, Fin.ext_iff, Fin.val_ofNat]
  omega

/-- A word is the sum of its fields at their places: R101 leaves no bit out. -/
theorem toWord_ofWord (w : Word) : (Fields.ofWord w).toWord = w := by
  refine BitVec.eq_of_toNat_eq ?_
  simp only [Fields.ofWord, Fields.toWord, BitVec.toNat_ofNat, Fin.val_ofNat]
  omega

/-- The OP field is bits [31:26] (R101). -/
theorem ofWord_op_val (w : Word) : (Fields.ofWord w).op.val = w.toNat / 2 ^ 26 := by
  simp only [Fields.ofWord, Fin.val_ofNat]
  omega

/-! ### Opcodes -/

/-- No two opcodes have one number (R104). -/
theorem ofCode_code (op : Op) : Op.ofCode op.code = some op := by
  cases op <;> rfl

theorem code_of_ofCode {c : Fin 64} {op : Op} (h : Op.ofCode c = some op) : op.code = c := by
  simpa using List.find?_some h

/-! ### R110's checks -/

/-- A field passes when it is 0 if unused, and its span ends at V31 or before (R106, R108). -/
theorem checkField_eq_none {n : Nat} {r : Reg} : checkField n r = none ↔ (n = 0 → r = 0) ∧ r.val + n ≤ 32 := by
  unfold checkField
  by_cases hn : n = 0 <;> by_cases hr : r = 0 <;> simp [hn, hr]

/-- The checks of R110 pass when each does. -/
theorem fieldProblem_eq_none {op : Op} {f : Fields} :
    fieldProblem op f = none ↔ checkField op.roles.rd f.rd = none ∧ checkField op.roles.rs1 f.rs1 = none ∧
      checkField op.roles.rs2 f.rs2 = none ∧ checkField op.roles.rs3 f.rs3 = none ∧ checkFn op f.fn = none := by
  simp [fieldProblem]

/-- The function bits are all 0 but for SMUL's O (R103, R108). -/
theorem checkFn_eq_none {op : Op} {fn : Fin 64} : checkFn op fn = none ↔ fn = 0 ∨ op = .smul ∧ fn = 1 := by
  cases op with
  | smul =>
    simp only [checkFn, ite_eq_left_iff, reduceCtorEq, imp_false, not_not, true_and, Fin.ext_iff]
    omega
  | _ => simp [checkFn]

/-- A command's fields pass the checks exactly when its spans fit. -/
theorem fieldProblem_fields (i : Instr) : fieldProblem i.op i.fields = none ↔ i.wf = true := by
  rw [fieldProblem_eq_none]
  cases i <;> simp [checkField_eq_none, checkFn_eq_none, Instr.wf, Instr.spans, spanFits, Instr.op, Instr.fields, Op.roles]

/-- The fields of a command give the command back (R105). -/
theorem build_fields (i : Instr) : i.op.build i.fields = i := by
  cases i <;> rfl

theorem fields_op (i : Instr) : i.fields.op = i.op.code := by
  cases i <;> rfl

theorem op_build (op : Op) (f : Fields) : (op.build f).op = op := by
  cases op with
  | smul => unfold Op.build; dsimp only; split <;> rfl
  | _ => rfl

/-- Fields that pass the checks are those of the command built from them: an unused field is 0, and SMUL's function bits are
0 or 1 (R103, R108). -/
theorem fields_build {op : Op} {f : Fields} (hop : op.code = f.op) (h : fieldProblem op f = none) :
    (op.build f).fields = f := by
  obtain ⟨o, rd, rs1, rs2, rs3, fn⟩ := f
  obtain ⟨hrd, hrs1, hrs2, hrs3, hfn⟩ := fieldProblem_eq_none.mp h
  rw [checkField_eq_none] at hrd hrs1 hrs2 hrs3
  rw [checkFn_eq_none] at hfn
  subst hop
  rcases hfn with rfl | ⟨rfl, rfl⟩
  · cases op <;> simp_all [Op.roles, Op.build, Instr.fields, Instr.op]
  · simp_all [Op.roles, Op.build, Instr.fields, Instr.op]

/-! ### Decoding -/

/-- Decoding answers a command when the opcode is assigned and the fields pass its checks (R110). -/
theorem decode_eq_ok {w : Word} {i : Instr} : decode w = .ok i ↔
    ∃ op, Op.ofCode (Fields.ofWord w).op = some op ∧ fieldProblem op (Fields.ofWord w) = none ∧
      op.build (Fields.ofWord w) = i := by
  unfold decode
  split
  · next h => simp [h]
  · next op h =>
    split
    · next e he => simp [h, he]
    · next hn => simp [h, hn]

/-- A well-formed command's word decodes to it. -/
theorem decode_encode {i : Instr} (h : i.wf = true) : decode (encode i) = .ok i := by
  refine decode_eq_ok.mpr ⟨i.op, ?_⟩
  rw [encode, ofWord_toWord, fields_op]
  exact ⟨ofCode_code _, (fieldProblem_fields i).mpr h, build_fields i⟩

/-- A legal word is the word of the command it decodes to, which is well formed. -/
theorem wf_and_encode_of_decode {w : Word} {i : Instr} (h : decode w = .ok i) : i.wf = true ∧ encode i = w := by
  obtain ⟨op, hop, hfit, rfl⟩ := decode_eq_ok.mp h
  have hfields := fields_build (code_of_ofCode hop) hfit
  constructor
  · rw [← fieldProblem_fields, hfields, op_build]
    exact hfit
  · rw [encode, hfields, toWord_ofWord]

/-- Settles O1: the encoder's fields are cut out of the word again, pass the checks and build the command. -/
theorem decodeEncodeRoundTrip : Obligations.DecodeEncodeRoundTrip := fun _ => decode_encode

/-- Settles O2: the fields of a legal word are those of the command built from them. -/
theorem legalWordsAreEncodings : Obligations.LegalWordsAreEncodings :=
  fun _ _ => ⟨wf_and_encode_of_decode, fun ⟨hwf, hw⟩ => hw ▸ decode_encode hwf⟩

/-- Settles O3: an opcode found in the table is one of the 19 numbers. -/
theorem unassignedOpcodesRefused : Obligations.UnassignedOpcodesRefused := by
  intro w h
  cases hop : Op.ofCode (Fields.ofWord w).op with
  | none => simp [decode, hop]
  | some op =>
    rw [← ofWord_op_val, ← code_of_ofCode hop] at h
    cases op <;> exact absurd h (by decide)

/-- Settles O4, by decoding the eleven words. -/
theorem specWordsDecode : Obligations.SpecWordsDecode := by
  unfold Obligations.SpecWordsDecode
  decide

end Sys2Proof
end

section
/-! PROOFS. Acceptance of a command word and the core's step on it (30_encoding.md R109, R111 to R113), and the registers a
command leaves alone (R105). -/

namespace Sys2Proof.Machine

/-- A write to CMD with no command in flight is accepted (R112). -/
theorem writePlace_cmd_idle {s : State} (h : s.status.busy = false) (w : Word) : s.writePlace .cmd w = s.accept w := by
  simp [State.writePlace, h]

/-- A CMD write with no command in flight, through the window (R72, R112). -/
theorem memWrite_cmd_idle {s : State} (h : s.status.busy = false) (w : Word) :
    s.memWrite 0x0010 4 w = some (s.accept w) :=
  (memWrite_of_place s rfl w).trans (congrArg some (writePlace_cmd_idle h w))

/-- The core's turn (R4). -/
theorem step_of_core {s : State} (h : s.nextTurn = .core) : step s = s.popTurn.coreStep := by
  rw [step_eq, h]
  rfl

/-- The core's turn with a legal word in flight (R113). -/
theorem step_of_legal {s : State} {i : Instr} (h : s.nextTurn = .core) (hb : s.status.busy = true)
    (hd : decode s.cmd = .ok i) : step s = exec i s.popTurn :=
  (step_of_core h).trans (coreStep_legal hb hd)

/-- The core's turn with an illegal word in flight (R109). -/
theorem step_of_illegal {s : State} {e : Illegal} (h : s.nextTurn = .core) (hb : s.status.busy = true)
    (hd : decode s.cmd = .error e) : step s = .next (s.popTurn.raise .illegalCommand) :=
  (step_of_core h).trans (coreStep_illegal hb hd)

/-- A word placed as a 32-bit command word is that word (log 12). -/
theorem withFetchWord_toNat (s : State) (w : Word) : s.withFetchWord 32 w.toNat = s.placeCommand w := by
  rw [State.withFetchWord, Nat.mod_eq_of_lt w.isLt, BitVec.ofNat_toNat, BitVec.setWidth_eq]

/-- The turn that the placing gave to the core is the one its step takes (log 12). -/
theorem popTurn_placeCommand (s : State) (w : Word) : (s.placeCommand w).popTurn = s.accept w := rfl

/-- The commands that need the Montgomery context (R111). -/
theorem contextOf_eq_mont {i : Instr} (h : i.op ∈ [Op.tomont, .frommont, .mmul, .mpow]) : contextOf i = .mont := by
  cases i <;> simp_all [Instr.op, contextOf]

/-- The commands that need the curve context (R111). -/
theorem contextOf_eq_curve {i : Instr} (h : i.op ∈ [Op.padd, .pdbl, .peq, .j2a, .smul, .smulg, .esign, .everify]) :
    contextOf i = .curve := by
  cases i <;> simp_all [Instr.op, contextOf]

/-! ### The registers a command's rule names -/

/-- A rule's result that writes, if it succeeds, no V register outside the list. -/
def CmdResult.WritesIn (l : List Reg) (r : CmdResult) : Prop := ∀ w, r = .ok w → ∀ x ∈ w.regs, x.1 ∈ l

/-- The registers of a command's destination span (R105). -/
def destRegs (i : Instr) : List Reg :=
  match destSpan i with
  | none => []
  | some (rd, n) => spanRegs rd n

theorem not_mem_destRegs {i : Instr} {r : Reg} (h : ∀ rd n, destSpan i = some (rd, n) → r ∉ spanRegs rd n) :
    r ∉ destRegs i := by
  unfold destRegs
  split
  · exact List.not_mem_nil
  · exact h _ _ ‹_›

theorem writesIn_error (l : List Reg) (e : ErrorCode) (k : Nat) : (CmdResult.error e k).WritesIn l := by
  intro w h
  cases h

theorem writesIn_raise (l : List Reg) (e : ErrorCode) : (CmdResult.raise e).WritesIn l := writesIn_error l e 0

theorem writesIn_ok {l : List Reg} {w : Writes} : (CmdResult.ok w).WritesIn l ↔ ∀ x ∈ w.regs, x.1 ∈ l :=
  ⟨fun h => h w rfl, fun h _ e => by cases e; exact h⟩

/-- A successful result that writes no register. -/
theorem writesIn_none {w : Writes} (l : List Reg) (h : w.regs = []) : (CmdResult.ok w).WritesIn l := by
  simp [writesIn_ok, h]

theorem spanRegs_one (r : Reg) : spanRegs r 1 = [r] := by
  simp [spanRegs, spanReg_zero]

theorem spanRegs_two (r : Reg) : spanRegs r 2 = [r, spanReg r 1] := by
  simp [spanRegs, List.range_succ, spanReg_zero]

theorem spanRegs_three (r : Reg) : spanRegs r 3 = [r, spanReg r 1, spanReg r 2] := by
  simp [spanRegs, List.range_succ, spanReg_zero]

theorem writesIn_oneWrite (rd : Reg) (x : Nat) : (CmdResult.ok (oneWrite rd x)).WritesIn (spanRegs rd 1) := by
  simp [writesIn_ok, oneWrite, spanRegs_one]

/-- Two writes to a pair (R18). -/
theorem writesIn_pair (rd : Reg) (x y d : Nat) :
    (CmdResult.ok { regs := [(rd, x), (spanReg rd 1, y)], draws := d }).WritesIn (spanRegs rd 2) := by
  simp [writesIn_ok, spanRegs_two]

/-- A point write names the three registers of its span (R246). -/
theorem writesIn_pointWrites (rd : Reg) (t : Jac) (k : Nat) :
    (CmdResult.ok { pointWrites rd t with draws := k }).WritesIn (spanRegs rd 3) := by
  simp [writesIn_ok, pointWrites, spanRegs_three]

theorem writesIn_jacobianWrites (s : State) (rd : Reg) (t : Jac) :
    (CmdResult.ok (jacobianWrites s rd t)).WritesIn (spanRegs rd 3) := by
  unfold jacobianWrites
  split
  · exact writesIn_pointWrites rd t 0
  · split
    · exact writesIn_pointWrites rd t 0
    · exact writesIn_pointWrites rd _ 4

/-- An open outcome writes the command's destinations or nothing (R244; log 8). -/
theorem writesIn_openOutcome (s : State) (d : Nat) (errs : List ErrorCode) (dst : List Reg) (inf valid : Bool) :
    (s.openOutcome d errs dst inf valid).WritesIn dst := by
  rcases openOutcome_cases s d errs dst inf valid with ⟨e, -, h⟩ | ⟨w, h, hregs, -⟩
  · rw [h]
    exact writesIn_error dst e _
  · rw [h, writesIn_ok]
    exact fun x hx => hregs ▸ List.mem_map_of_mem hx

theorem writesIn_reduceBy (rd : Reg) (t f : Nat) : (reduceBy rd t f).WritesIn (spanRegs rd 1) := by
  unfold reduceBy
  split
  · exact writesIn_raise _ _
  · exact writesIn_oneWrite rd _

theorem writesIn_ruleInv (rd rs1 rs2 : Reg) (s : State) : (ruleInv rd rs1 rs2 s).WritesIn (spanRegs rd 1) := by
  unfold ruleInv
  split
  · exact writesIn_raise _ _
  · split
    · exact writesIn_oneWrite rd _
    · exact writesIn_raise _ _

theorem writesIn_ruleMctx (rs1 : Reg) (s : State) : (ruleMctx rs1 s).WritesIn [] := by
  intro w h
  obtain ⟨-, rfl⟩ := ruleMctx_ok h
  simp

theorem writesIn_ruleCurve (c : Reg) (s : State) : (ruleCurve c s).WritesIn [] := by
  intro w h
  obtain ⟨-, rfl⟩ := loadCurve_ok h
  simp

theorem writesIn_ruleJ2a (rd rs1 : Reg) (s : State) : (ruleJ2a rd rs1 s).WritesIn (spanRegs rd 3) := by
  unfold ruleJ2a
  split
  · exact writesIn_pointWrites rd _ 0
  · split
    · exact writesIn_raise _ _
    · exact writesIn_pointWrites rd _ 0

theorem writesIn_smulRule (order : Bool) (rd rs1 rs2 : Reg) (s : State) :
    (smulRule order rd rs1 rs2 s).WritesIn (spanRegs rd 3) := by
  unfold smulRule
  split
  · exact writesIn_pointWrites rd _ 0
  · split
    · exact writesIn_raise _ _
    · dsimp only
      split
      · exact writesIn_raise _ _
      · split
        · exact writesIn_openOutcome s 0 _ _ _ _
        · exact writesIn_pointWrites rd _ _

theorem writesIn_ruleSmulg (rd rs2 : Reg) (s : State) : (ruleSmulg rd rs2 s).WritesIn (spanRegs rd 3) := by
  unfold ruleSmulg
  split
  · exact writesIn_openOutcome s 0 _ _ _ _
  · exact writesIn_pointWrites rd _ _

theorem writesIn_signWith (rd : Reg) (priv e k n x d : Nat) :
    (signWith rd priv e k n x d).WritesIn (spanRegs rd 2) := by
  unfold signWith
  split
  · exact writesIn_error _ _ _
  · split
    · exact writesIn_error _ _ _
    · split
      · exact writesIn_error _ _ _
      · exact writesIn_pair rd _ _ d

theorem writesIn_ruleEsign (rd rs1 rs2 rs3 : Reg) (s : State) :
    (ruleEsign rd rs1 rs2 rs3 s).WritesIn (spanRegs rd 2) := by
  unfold ruleEsign
  dsimp only
  split
  · exact writesIn_openOutcome s 0 _ _ _ _
  · exact writesIn_error _ _ _
  · exact writesIn_signWith rd _ _ _ _ _ _

theorem writesIn_verifySum (s : State) (u1 u2 r : Nat) (Q : Aff) : (verifySum s u1 u2 r Q).WritesIn [] := by
  rcases verifySum_cases s u1 u2 r Q with ⟨d, h⟩ | ⟨v, d, h⟩
  · rw [h]
    exact writesIn_openOutcome s d _ _ _ _
  · rw [h]
    exact writesIn_none [] rfl

theorem writesIn_verifyInRange (s : State) (Q : Jac) (e r sig : Nat) : (verifyInRange s Q e r sig).WritesIn [] := by
  unfold verifyInRange
  split
  · exact writesIn_raise _ _
  · split
    · exact writesIn_raise _ _
    · dsimp only
      split
      · exact writesIn_raise _ _
      · split
        · exact writesIn_none [] rfl
        · exact writesIn_verifySum s _ _ _ _

theorem writesIn_ruleEverify (rs1 rs2 rs3 : Reg) (s : State) : (ruleEverify rs1 rs2 rs3 s).WritesIn [] := by
  unfold ruleEverify
  dsimp only
  split
  · exact writesIn_verifyInRange s _ _ _ _
  · exact writesIn_none [] rfl

/-- Every command's rule writes inside the command's destination span (R105). -/
theorem writesIn_ruleOf (i : Instr) (s : State) : (ruleOf i s).WritesIn (destRegs i) := by
  cases i with
  | inv rd rs1 rs2 => exact writesIn_ruleInv rd rs1 rs2 s
  | mctx rs1 => exact writesIn_ruleMctx rs1 s
  | tomont rd rs1 => exact writesIn_oneWrite rd _
  | frommont rd rs1 => exact writesIn_oneWrite rd _
  | mmul rd rs1 rs2 => exact writesIn_oneWrite rd _
  | mpow rd rs1 rs2 => exact writesIn_oneWrite rd _
  | gfadd rd rs1 rs2 => exact writesIn_oneWrite rd _
  | gfmul rd rs1 rs2 => exact writesIn_pair rd _ _ 0
  | gfred rd rs1 rs2 => exact writesIn_reduceBy rd _ _
  | gfmulr rd rs1 rs2 rs3 => exact writesIn_reduceBy rd _ _
  | curve rs1 => exact writesIn_ruleCurve rs1 s
  | padd rd rs1 rs2 => exact writesIn_jacobianWrites s rd _
  | pdbl rd rs1 => exact writesIn_jacobianWrites s rd _
  | peq rs1 rs2 => exact writesIn_none [] rfl
  | j2a rd rs1 => exact writesIn_ruleJ2a rd rs1 s
  | smul rd rs1 rs2 => exact writesIn_smulRule false rd rs1 rs2 s
  | smulO rd rs1 rs2 => exact writesIn_smulRule true rd rs1 rs2 s
  | smulg rd rs2 => exact writesIn_ruleSmulg rd rs2 s
  | esign rd rs1 rs2 rs3 => exact writesIn_ruleEsign rd rs1 rs2 rs3 s
  | everify rs1 rs2 rs3 => exact writesIn_ruleEverify rs1 rs2 rs3 s

/-- A register outside the destination span keeps its value and its `written` bits (R105, R113). -/
theorem v_exec_of_not_mem {i : Instr} {s t : State} (h : exec i s = .next t) {r : Reg} (hr : r ∉ destRegs i) :
    t.v[r] = s.v[r] := by
  rcases exec_next_cases h with ⟨e, k, rfl⟩ | ⟨w, hw, -, rfl⟩
  · rfl
  · exact v_setRegs_ne w.regs s r fun x hx he => hr (he ▸ writesIn_ruleOf i s w hw x hx)

end Sys2Proof.Machine

namespace Sys2Proof

open Machine

/-- Settles O6: CMD stands at 0x0010, and its write is `accept` or, in flight, `overrun`. -/
theorem cmdWriteIssuesOrOverruns : Obligations.CmdWriteIssuesOrOverruns := fun s w =>
  ⟨fun hidle => memWrite_cmd_idle hidle w,
    fun hbusy => (memWrite_of_place s rfl w).trans (congrArg some (writePlace_cmd_busy hbusy w))⟩

/-- Settles O7: the core's turn is `coreStep` on the state without that turn, which decodes CMD. -/
theorem stepRunsDecodedCommand : Obligations.StepRunsDecodedCommand := fun _ _ => step_of_legal

/-- Settles O8: acceptance does not look at the word, and the core's step raises ILLEGAL_COMMAND on it. -/
theorem illegalWordCompletesWithError : Obligations.IllegalWordCompletesWithError := fun s =>
  ⟨fun w _ hidle _ => ⟨s.accept w, memWrite_cmd_idle hidle w, rfl, rfl⟩, fun _ => step_of_illegal⟩

/-- Settles O9: the placed word is in flight with the core's turn at the head of the schedule. -/
theorem placedWordRunsNext : Obligations.PlacedWordRunsNext := by
  intro s w i hd
  rw [withFetchWord_toNat, step_of_legal (s := s.placeCommand w) rfl rfl hd, popTurn_placeCommand]

/-- Settles O25: the context check comes before the operand check, and each opcode's context is R111's. -/
theorem missingContextErrors : Obligations.MissingContextErrors := by
  refine fun i s hwf => ⟨fun hop hm => exec_noContext hwf ?_, fun hop hc => exec_noContext hwf ?_⟩
  · rw [contextOf_eq_mont hop]
    exact hm
  · rw [contextOf_eq_curve hop]
    exact hc

/-- Settles O29: a rule's register writes are inside the destination span, and completion touches nothing else of these. -/
theorem commandRegisterFrame : Obligations.CommandRegisterFrame := by
  intro i s t h
  refine ⟨fun r hr => v_exec_of_not_mem h (not_mem_destRegs hr), ?_⟩
  rcases exec_next_cases h with ⟨e, k, rfl⟩ | ⟨w, -, -, rfl⟩ <;> simp

end Sys2Proof
end

section
/-! PROOFS. The text of a command (30_encoding.md R115): the words of a command's text are its mnemonic and its registers, and each
is read back. -/

namespace Sys2Proof.Machine

/-- A character that ends a word (log 15). -/
def isSeparator (c : Char) : Bool := c == ' ' || c == ','

/-- A text without separators. -/
def isWord (t : List Char) : Bool := t.all fun c => !isSeparator c

/-! ### Cutting a text into words -/

/-- The characters of a word are gathered, backwards, before what was read of it. -/
theorem wordsFrom_append {t : List Char} (ht : isWord t = true) (cur rest : List Char) :
    wordsFrom cur (t ++ rest) = wordsFrom (t.reverse ++ cur) rest := by
  induction t generalizing cur with
  | nil => rfl
  | cons c t ih =>
    obtain ⟨hc, ht⟩ : isSeparator c = false ∧ isWord t = true := by simpa [isWord] using ht
    unfold isSeparator at hc
    rw [List.cons_append, wordsFrom, if_neg (by simp [hc]), ih ht, List.reverse_cons, List.append_assoc]
    rfl

/-- A word at the end of the text. -/
theorem wordsFrom_word {t : List Char} (ht : isWord t = true) (hne : t ≠ []) : wordsFrom [] t = [t] := by
  have h := wordsFrom_append ht [] []
  rw [List.append_nil, List.append_nil] at h
  simp [h, wordsFrom, hne]

/-- A word and the separator after it. -/
theorem wordsFrom_word_separator {t : List Char} (ht : isWord t = true) (hne : t ≠ []) {c : Char} (hc : isSeparator c = true)
    (rest : List Char) : wordsFrom [] (t ++ c :: rest) = t :: wordsFrom [] rest := by
  unfold isSeparator at hc
  simp [wordsFrom_append ht, wordsFrom, hc, hne]

/-- A separator where no word has begun. -/
theorem wordsFrom_separator {c : Char} (hc : isSeparator c = true) (rest : List Char) :
    wordsFrom [] (c :: rest) = wordsFrom [] rest := by
  unfold isSeparator at hc
  simp [wordsFrom, hc]

/-! ### Registers -/

theorem regChars_isWord (r : Reg) : isWord (regChars r) = true := by
  revert r
  decide

theorem regChars_ne_nil (r : Reg) : regChars r ≠ [] := by
  unfold regChars
  split <;> exact List.cons_ne_nil _ _

/-- A register's text names that register and no other. -/
theorem readReg_regChars (r : Reg) : readReg (regChars r) = some r := by
  revert r
  decide +kernel

/-- The words of the operands' text are the registers' texts (R115). -/
theorem wordsFrom_operandChars (rs : List Reg) : wordsFrom [] (operandChars rs) = rs.map regChars := by
  induction rs with
  | nil => rfl
  | cons r rs ih =>
    cases rs with
    | nil => exact wordsFrom_word (regChars_isWord r) (regChars_ne_nil r)
    | cons r' rs =>
      rw [operandChars, wordsFrom_word_separator (regChars_isWord r) (regChars_ne_nil r) rfl, wordsFrom_separator rfl, ih]
      · rfl
      · exact List.cons_ne_nil _ _

theorem readRegs_map_regChars (rs : List Reg) : readRegs (rs.map regChars) = some rs := by
  induction rs with
  | nil => rfl
  | cons r rs ih => simp [readRegs, readReg_regChars, ih]

/-! ### Mnemonics -/

/-- No two commands have one mnemonic (R104): the one found takes the command's operands and becomes the command. -/
theorem find_mnemonic (i : Instr) :
    ∃ k, (sampleInstrs.find? fun j => mnemonicChars j == mnemonicChars i) = some k ∧
      withOperands k (operandList i) = some i := by
  cases i <;> exact ⟨_, rfl, rfl⟩

/-- A mnemonic is a word that reads in capitals as itself; in small letters it is one too. -/
def MnemonicReads (m : List Char) : Prop :=
  m ≠ [] ∧ isWord m = true ∧ m.map Char.toUpper = m ∧ isWord (m.map Char.toLower) = true ∧
    (m.map Char.toLower).map Char.toUpper = m

theorem sampleInstrs_mnemonicReads : ∀ k ∈ sampleInstrs, MnemonicReads (mnemonicChars k) := by
  unfold MnemonicReads
  decide

/-- A command's mnemonic is that of a sample. -/
theorem mnemonicReads (i : Instr) : MnemonicReads (mnemonicChars i) := by
  obtain ⟨k, hfind, -⟩ := find_mnemonic i
  have hk : mnemonicChars k = mnemonicChars i := by simpa using List.find?_some hfind
  exact hk ▸ sampleInstrs_mnemonicReads k (List.mem_of_find?_eq_some hfind)

/-- A word that reads in capitals as the mnemonic, and after it the operands, assemble to the command (R115). -/
theorem assemble_mnemonic_operands {i : Instr} {m : List Char} (hm : isWord m = true)
    (hup : m.map Char.toUpper = mnemonicChars i) :
    assemble (m ++ ' ' :: operandChars (operandList i)) = some i := by
  have hne : m ≠ [] := by
    rintro rfl
    exact (mnemonicReads i).1 hup.symm
  obtain ⟨k, hfind, hops⟩ := find_mnemonic i
  unfold assemble
  rw [wordsFrom_word_separator hm hne rfl, wordsFrom_operandChars]
  simp only [hup, hfind, readRegs_map_regChars, hops]

end Sys2Proof.Machine

namespace Sys2Proof

open Machine

/-- Settles O5: both spellings of the mnemonic are words that read in capitals as it. -/
theorem assemblerReadsItsText : Obligations.AssemblerReadsItsText := by
  intro i
  obtain ⟨-, hword, hup, hwordSmall, hupSmall⟩ := mnemonicReads i
  exact ⟨assemble_mnemonic_operands hword hup, assemble_mnemonic_operands hwordSmall hupSmall⟩

end Sys2Proof
end

section
/-! PROOFS. The host pseudo-instruction LI (30_encoding.md R116): `W/32` writes of the words of a value, one host step each
(20_memory.md R73, R80, R83). -/

namespace Sys2Proof.Machine

/-! ### Words written in order -/

/-- `V[r]` with its words 0 to `j - 1` replaced by those of `x` (R73, R83). -/
def State.withWords (s : State) (r : Reg) (x : Nat) : Nat → State
  | 0 => s
  | j + 1 => (s.withWords r x j).setRegWord r j (wordOf x j)

section
variable (s : State) (r : Reg) (x : Nat)

theorem withWords_succ (j : Nat) : s.withWords r x (j + 1) = (s.withWords r x j).setRegWord r j (wordOf x j) := rfl

/-- Word writes change `v` alone. -/
theorem withWords_eq (j : Nat) : s.withWords r x j = { s with v := (s.withWords r x j).v } := by
  induction j with
  | zero => rfl
  | succ j ih => rw [withWords_succ, ih]; rfl

theorem v_withWords_ne {i : Reg} (h : i ≠ r) (j : Nat) : (s.withWords r x j).v[i] = s.v[i] := by
  induction j with
  | zero => rfl
  | succ j ih => rw [withWords_succ, v_setRegWord_ne _ j _ h, ih]

/-- The bits of the words written are those of `x`, the others stay. -/
theorem testBit_reg_withWords (j n : Nat) :
    ((s.withWords r x j).reg r).testBit n = if n < 32 * j then x.testBit n else (s.reg r).testBit n := by
  induction j with
  | zero => simp [State.withWords]
  | succ j ih =>
    rw [withWords_succ, reg_setRegWord_same, testBit_setWord, ih]
    by_cases hj : n / 32 = j
    · have hlt : n < 32 * (j + 1) := by omega
      have hbit : 32 * j + n % 32 = n := by omega
      have hmod : n % 32 < 32 := by omega
      rw [if_pos hj, if_pos hlt, getLsbD_wordOf, hbit, decide_eq_true hmod, Bool.true_and]
    · have hlt : n < 32 * (j + 1) ↔ n < 32 * j := by omega
      simp only [hj, hlt, if_false]

/-- The words written are marked so (R31). -/
theorem written_withWords {j k : Nat} (hk : k < j) (h32 : k < 32) :
    (s.withWords r x j).v[r].written.getLsbD k = true := by
  induction j with
  | zero => omega
  | succ j ih =>
    rw [withWords_succ, written_setRegWord_same]
    rcases Nat.lt_succ_iff_lt_or_eq.mp hk with hlt | rfl
    · rw [ih hlt, Bool.true_or]
    · simp [h32]

end

/-- A register is written when each of its `W/32` words is (R31). -/
theorem regWritten_of_words {s : State} {r : Reg}
    (h : ∀ k < wordCount s.params, k < 32 → s.v[r].written.getLsbD k = true) : s.regWritten r = true := by
  rw [State.regWritten, beq_iff_eq]
  refine BitVec.eq_of_getLsbD_eq fun k hk => ?_
  have hall : (allWritten s.params).getLsbD k = decide (k < wordCount s.params) := by
    rw [allWritten, BitVec.getLsbD_ofNat, Nat.testBit_two_pow_sub_one, decide_eq_true hk, Bool.true_and]
  rw [BitVec.getLsbD_and, hall]
  by_cases hlt : k < wordCount s.params
  · rw [h k hlt hk, Bool.true_and]
  · simp [hlt]

/-- A register has a word (R7). -/
theorem wordCount_pos {p : Params} (h : p.legal = true) : 0 < wordCount p := by
  simp only [Params.legal, Bool.and_eq_true, decide_eq_true_eq] at h
  obtain ⟨⟨⟨⟨-, hmin⟩, -⟩, -⟩, -⟩ := h
  exact Nat.div_pos (by omega) (by decide)

/-- With every word of a W-bit register replaced, it holds the value and is written. -/
theorem withWords_all {s : State} (hl : s.params.legal = true) {r : Reg} {x : Nat} (hs : s.reg r < 2 ^ s.params.width)
    (hx : x < 2 ^ s.params.width) :
    (s.withWords r x (wordCount s.params)).reg r = x ∧ (s.withWords r x (wordCount s.params)).regWritten r = true := by
  obtain ⟨hW, -⟩ := legal_width hl
  constructor
  · refine Nat.eq_of_testBit_eq fun n => ?_
    rw [testBit_reg_withWords, ← hW]
    split
    · rfl
    · next hn =>
      have hpow : 2 ^ s.params.width ≤ 2 ^ n := Nat.pow_le_pow_right two_pos (by omega)
      rw [Nat.testBit_lt_two_pow (hs.trans_le hpow), Nat.testBit_lt_two_pow (hx.trans_le hpow)]
  · refine regWritten_of_words fun k hk h32 => written_withWords s r x ?_ h32
    rw [withWords_eq] at hk
    exact hk

/-! ### The host's steps -/

/-- The host's turn with no schedule left and no command in flight (R4; log 3). -/
theorem step_of_idle_host {s : State} {line : HostLine} (hb : s.status.busy = false) (hs : s.schedule = [])
    (hline : s.host.prog[s.host.pc]? = some line) : step s = s.runLine line := by
  have hpop : s.popTurn = s := by
    rw [State.popTurn, hs, List.tail_nil, ← hs]
  have hturn : s.nextTurn = .host := by simp [State.nextTurn, hs, hb]
  rw [step_eq, hpop, hturn]
  simp only [State.stepOf, State.hostStep, hline]

/-- One host step of LI writes the word that the host has reached (R116). -/
theorem runLine_li {s : State} {n : Reg} {imm : Nat} (hb : s.status.busy = false)
    (hj : s.host.word < wordCount s.params) (h32 : wordCount s.params ≤ 32) :
    s.runLine (.li n imm) = .next (s.setRegWord n s.host.word (wordOf imm s.host.word)).hostNextWord := by
  simp only [State.runLine, State.busWrite, State.busAddr, windowOffset_base_add,
    memWrite_vOffset s n (hj.trans_le h32), writePlace_vword_idle hb n hj]

/-- A run whose first step goes on. -/
theorem run_succ_of_next {s t : State} (h : step s = .next t) (k : Nat) :
    Host.Core.run Sys2Proof.core (k + 1) s = Host.Core.run Sys2Proof.core k t := by
  have hcore : Sys2Proof.core.step s = .next t := h
  simp only [Host.Core.run, hcore]

/-- LI has written words 0 to `j - 1` and the host stands at word `j`. -/
def State.liReached (s : State) (n : Reg) (imm j : Nat) : State :=
  { s with v := (s.withWords n imm j).v, host := { s.host with word := j } }

/-- LI has written the register and the host stands at its next line. -/
def State.liDone (s : State) (n : Reg) (imm : Nat) : State :=
  { s with v := (s.withWords n imm (wordCount s.params)).v, host := { s.host with pc := s.host.pc + 1, word := 0 } }

theorem liReached_zero {s : State} (h : s.host.word = 0) (n : Reg) (imm : Nat) : s.liReached n imm 0 = s := by
  simp only [State.liReached, State.withWords, ← h]

section
variable {s : State} {n : Reg} {imm : Nat} (hb : s.status.busy = false) (hs : s.schedule = [])
  (hline : s.host.prog[s.host.pc]? = some (.li n imm)) (h32 : wordCount s.params ≤ 32)
include hb hs hline h32

/-- A host step at word `j` of LI writes that word and goes on to the next one. -/
theorem step_liReached {j : Nat} (hj : j < wordCount s.params) :
    step (s.liReached n imm j) =
      .next ((s.liReached n imm j).setRegWord n j (wordOf imm j)).hostNextWord :=
  (step_of_idle_host (s := s.liReached n imm j) hb hs hline).trans
    (runLine_li (s := s.liReached n imm j) hb hj h32)

theorem step_liReached_of_lt {j : Nat} (hj : j + 1 < wordCount s.params) :
    step (s.liReached n imm j) = .next (s.liReached n imm (j + 1)) := by
  rw [step_liReached hb hs hline h32 (by omega)]
  exact congrArg Host.Outcome.next (if_pos hj)

theorem step_liReached_last {j : Nat} (hj : j + 1 = wordCount s.params) :
    step (s.liReached n imm j) = .next (s.liDone n imm) := by
  rw [step_liReached hb hs hline h32 (by omega), State.liDone, ← hj]
  exact congrArg Host.Outcome.next (if_neg (show ¬j + 1 < wordCount s.params by omega))

/-- From word `j` the remaining host steps finish the line (R116). -/
theorem run_liReached (k : Nat) {j : Nat} (hj : j + (k + 1) = wordCount s.params) :
    Host.Core.run Sys2Proof.core (k + 1) (s.liReached n imm j) = .next (s.liDone n imm) := by
  induction k generalizing j with
  | zero => exact run_succ_of_next (step_liReached_last hb hs hline h32 hj) 0
  | succ k ih =>
    rw [run_succ_of_next (step_liReached_of_lt hb hs hline h32 (by omega))]
    exact ih (by omega)

end

end Sys2Proof.Machine

namespace Sys2Proof

open Machine

/-- Settles O23: LI's host steps write the register word by word, from word 0 to word `W/32 - 1`. -/
theorem liLoadsRegister : Obligations.LiLoadsRegister := by
  rintro s n imm ⟨hlegal, hregs, -⟩ hb hs hline hword himm
  obtain ⟨-, h32, -⟩ := legal_width hlegal
  obtain ⟨hvalue, hwritten⟩ := withWords_all hlegal (hregs n).1 himm
  obtain ⟨k, hk⟩ : ∃ k, wordCount s.params = k + 1 := Nat.exists_eq_add_one.mpr (wordCount_pos hlegal)
  have hrun := run_liReached hb hs hline h32 (imm := imm) k (j := 0) (by omega)
  rw [liReached_zero hword, ← hk] at hrun
  refine ⟨s.liDone n imm, hrun, hvalue, ?_, fun r hr => v_withWords_ne s n imm hr _, ?_⟩
  · rw [withWords_eq] at hwritten
    exact hwritten
  · rw [State.liDone, ← hword]

end Sys2Proof
end

section
/-! PROOFS. The modular inverse: `InvMod` is the unique inverse below the modulus, and INV writes it or names why there is none
(40_modular_inverse.md R140 to R142). -/

namespace Sys2Proof.Machine

/-- `InvMod` answers 0 for 0, although 0 has an inverse modulo 1 only (R140). -/
@[simp] theorem invMod_zero (m : Nat) : invMod 0 m = some 0 := rfl

/-- A nonzero number that shares a factor with the modulus is NotInvertible (R140): the converse of `invMod_none`. -/
theorem invMod_of_gcd_ne_one {a m : Nat} (ha : a ≠ 0) (hg : Nat.gcd (a % m) m ≠ 1) : invMod a m = none := by
  rw [invMod, if_neg ha, if_pos hg]

/-- A number is coprime to the modulus when its residue is: R140's test reads the residue alone. -/
theorem coprime_of_gcd_mod_eq_one {a m : Nat} (h : Nat.gcd (a % m) m = 1) : Nat.Coprime a m := by
  rw [Nat.Coprime, Nat.gcd_comm, Nat.gcd_rec, h]

/-- Two numbers below the modulus that are inverses of one number are the same (R142). -/
theorem inverse_unique {a m x y : Nat} (hc : Nat.Coprime a m) (hx : x < m) (hy : y < m) (hax : a * x % m = 1 % m)
    (hay : a * y % m = 1 % m) : y = x := by
  have hmul : a * y ≡ a * x [MOD m] := hay.trans hax.symm
  exact (Nat.ModEq.cancel_left_of_coprime hc.symm hmul).eq_of_lt_of_lt hy hx

end Sys2Proof.Machine

namespace Sys2Proof

open Machine

/-- Settles O36: the Euclidean loop returns an inverse of a coprime number, and coprime numbers are cancelled. -/
theorem invModIsInverse : Obligations.InvModIsInverse := by
  intro a m hm
  refine ⟨?_, invMod_of_gcd_ne_one, fun _ hg => ?_⟩
  · rintro rfl
    exact invMod_zero m
  · have hc : Nat.Coprime a m := coprime_of_gcd_mod_eq_one hg
    obtain ⟨x, hx, hlt, hmul⟩ := invMod_of_coprime hm hc
    refine ⟨x, hx, hlt, by rwa [Nat.mod_mul_mod], fun y hy hay => ?_⟩
    rw [Nat.mod_mul_mod] at hay
    exact inverse_unique hc hlt hy hmul hay

/-! ### INV -/

/-- A ready command whose rule writes one W-bit value leaves that value in its destination and changes nothing else but
STATUS (R113). -/
theorem exec_of_oneWrite {s : State} {i : Instr} {rd : Reg} {x : Nat} (h : Ready s i)
    (hr : ruleOf i s = .ok (oneWrite rd x)) (hx : x < 2 ^ s.params.width) :
    ∃ t, exec i s = .next t ∧ OnlyRegs [rd] (doneStatus s) s t ∧ t.reg rd = x :=
  ⟨s.commit (oneWrite rd x), exec_of_ok h hr, commit_one hx⟩

section
variable {s : State} {rd a m : Reg}

theorem ruleOf_inv_zero_modulus (hm : s.reg m = 0) : ruleOf (.inv rd a m) s = .error .invalidModulus 0 := by
  rw [ruleOf, ruleInv, if_pos hm]
  rfl

theorem ruleOf_inv_of_none (hm : s.reg m ≠ 0) (h : invMod (s.reg a) (s.reg m) = none) :
    ruleOf (.inv rd a m) s = .error .notInvertible 0 := by
  rw [ruleOf, ruleInv, if_neg hm, h]
  rfl

theorem ruleOf_inv_of_some {x : Nat} (hm : s.reg m ≠ 0) (h : invMod (s.reg a) (s.reg m) = some x) :
    ruleOf (.inv rd a m) s = .ok (oneWrite rd x) := by
  rw [ruleOf, ruleInv, if_neg hm, h]

/-- INV writes what `InvMod` answers: it is below the modulus, so it fits the register (R141). -/
theorem exec_inv_of_some {x : Nat} (hregs : RegsOk s) (h : Ready s (.inv rd a m)) (hm : s.reg m ≠ 0)
    (hx : invMod (s.reg a) (s.reg m) = some x) :
    ∃ t, exec (.inv rd a m) s = .next t ∧ OnlyRegs [rd] (doneStatus s) s t ∧ t.reg rd = x :=
  exec_of_oneWrite h (ruleOf_inv_of_some hm hx) ((invMod_lt (Nat.pos_of_ne_zero hm) hx).trans (hregs m).1)

end

/-- Settles O37: INV's checks in their order, then each answer of `InvMod` by O36. -/
theorem invResult : Obligations.InvResult := by
  intro s rd a m hregs hR
  refine ⟨fun hm => exec_of_error hR (ruleOf_inv_zero_modulus hm), fun hm ha hg => ?_, fun hm hinv => ?_⟩
  · exact exec_of_error hR (ruleOf_inv_of_none hm (invMod_of_gcd_ne_one ha hg))
  · by_cases ha : s.reg a = 0
    · have hzero : invMod (s.reg a) (s.reg m) = some 0 := by rw [ha, invMod_zero]
      obtain ⟨t, ht, honly, hrd⟩ := exec_inv_of_some hregs hR hm hzero
      exact ⟨t, ht, honly, fun _ => hrd, fun hne => absurd ha hne⟩
    · obtain ⟨-, -, hcoprime⟩ := invModIsInverse (s.reg a) (s.reg m) (Nat.pos_of_ne_zero hm)
      obtain ⟨x, hx, hlt, hmul, -⟩ := hcoprime ha (hinv.resolve_left ha)
      obtain ⟨t, ht, honly, rfl⟩ := exec_inv_of_some hregs hR hm hx
      exact ⟨t, ht, honly, fun h0 => absurd h0 ha, fun _ => ⟨hlt, hmul⟩⟩

end Sys2Proof
end

section
/-! PROOFS. Montgomery arithmetic (41_montgomery.md R160 to R166): square and multiply is the power, `R` and RINV cancel mod
`N`, and each command writes its rule's residue. -/

namespace Sys2Proof.Machine

/-! ### Square and multiply (R165) -/

/-- The exponent's leading bits grow by one bit. -/
theorem div_two_pow_eq (e i : Nat) : e / 2 ^ i = e / 2 ^ (i + 1) * 2 + (e.testBit i).toNat := by
  rw [Nat.toNat_testBit, pow_succ, ← Nat.div_div_eq_div_mul, Nat.div_add_mod']

/-- From the power to the exponent's leading bits, the loop reaches the power to the whole exponent. -/
theorem powLoop_eq (t e n i : Nat) : powLoop t e n i (t ^ (e / 2 ^ i) % n) = t ^ e % n := by
  induction i with
  | zero => rw [powLoop, pow_zero, Nat.div_one]
  | succ i ih =>
    rw [powLoop, ← ih, div_two_pow_eq e i, pow_add t, pow_mul t, sq]
    cases e.testBit i <;> simp [Nat.mul_mod]

/-- Square and multiply is the power mod `n`; `0^0` is 1 (R165). -/
theorem powMod_eq (t e n : Nat) : powMod t e n = t ^ e % n := by
  have h := powLoop_eq t e n (bitlen e)
  rwa [Nat.div_eq_of_lt (lt_two_pow_bitlen e), pow_zero] at h

/-! ### The laws of a context whose RINV inverts `R` mod `N` (R161, R166) -/

section
variable {c : MontCtx} (h : 2 ^ c.bl * c.rinv ≡ 1 [MOD c.n])
include h

/-- R166's first law. -/
theorem montOut_montIn (a : Nat) : montOut c (montIn c a) = a % c.n := by
  change a * 2 ^ c.bl % c.n * c.rinv ≡ a [MOD c.n]
  calc a * 2 ^ c.bl % c.n * c.rinv
    _ ≡ a * 2 ^ c.bl * c.rinv [MOD c.n] := (Nat.mod_modEq _ _).mul_right _
    _ = a * (2 ^ c.bl * c.rinv) := mul_assoc ..
    _ ≡ a * 1 [MOD c.n] := h.mul_left a
    _ = a := mul_one a

/-- The product of two Montgomery forms is the Montgomery form of the product (R164). -/
theorem montMul_montIn (a b : Nat) : montMul c (montIn c a) (montIn c b) = montIn c (a * b) := by
  change a * 2 ^ c.bl % c.n * (b * 2 ^ c.bl % c.n) * c.rinv ≡ a * b * 2 ^ c.bl [MOD c.n]
  calc a * 2 ^ c.bl % c.n * (b * 2 ^ c.bl % c.n) * c.rinv
    _ ≡ a * 2 ^ c.bl * (b * 2 ^ c.bl) * c.rinv [MOD c.n] :=
      ((Nat.mod_modEq _ _).mul (Nat.mod_modEq _ _)).mul_right _
    _ = a * b * 2 ^ c.bl * (2 ^ c.bl * c.rinv) := by ring
    _ ≡ a * b * 2 ^ c.bl * 1 [MOD c.n] := h.mul_left _
    _ = a * b * 2 ^ c.bl := mul_one _

/-- The power of a Montgomery form is the Montgomery form of the power (R165). -/
theorem montPow_montIn (a e : Nat) : montPow c (montIn c a) e = montIn c (a ^ e % c.n) := by
  rw [montPow, montOut_montIn h, powMod_eq, ← Nat.pow_mod]

/-- `R^2 · RINV` is `R` mod `N` (R161). -/
theorem r2_mul_rinv (hr2 : c.r2 = 2 ^ c.bl * 2 ^ c.bl % c.n) : c.r2 * c.rinv % c.n = 2 ^ c.bl % c.n := by
  have hR : c.r2 = montIn c (2 ^ c.bl) := hr2
  rw [hR]
  exact montOut_montIn h _

end

end Sys2Proof.Machine

namespace Sys2Proof

open Machine

/-! ### The commands -/

/-- A command all of whose spans are single registers is well formed (R106). -/
theorem wf_of_single_spans {i : Instr} (h : ∀ x ∈ i.spans, x.2 = 1) : i.wf = true := by
  refine List.all_eq_true.mpr fun x hx => ?_
  rw [spanFits, h x hx, decide_eq_true_eq]
  exact x.1.isLt

/-- Without MCTXV a Montgomery command completes with NO_CONTEXT (R111). -/
theorem errorsWith_of_no_mctxv {s : State} {i : Instr} (hctx : contextOf i = .mont) (hspans : ∀ x ∈ i.spans, x.2 = 1)
    (hm : s.status.mctxv = false) : ErrorsWith i s 10 :=
  exec_noContext (wf_of_single_spans hspans) (by rw [hctx]; exact hm)

/-- The invariant with MCTXV set gives a loaded context (R161). -/
theorem montLoaded_of_inv {s : State} (h : Inv s) (hm : s.status.mctxv = true) : MontLoaded s.params.width s.mont := by
  obtain ⟨-, -, -, -, hmont, -⟩ := h
  exact ((montOk_iff s).mp hmont).2 hm

/-- A ready Montgomery command whose rule is a residue mod `N` writes it: it is below `N`, so it fits the register. -/
theorem exec_of_montResidue {s : State} {i : Instr} {rd : Reg} {x : Nat} (hI : Inv s) (hctx : contextOf i = .mont)
    (h : Ready s i) (hr : ruleOf i s = .ok (oneWrite rd (x % s.mont.n))) :
    ∃ t, exec i s = .next t ∧ OnlyRegs [rd] (doneStatus s) s t ∧ t.reg rd = x % s.mont.n := by
  have ⟨_, hvalid, _⟩ := h
  rw [hctx] at hvalid
  obtain ⟨hodd, hn, -⟩ := montLoaded_of_inv hI hvalid
  exact exec_of_oneWrite h hr ((Nat.mod_lt x (by omega)).trans hn)

/-- MCTX of an odd modulus loads its context and sets MCTXV (R160). -/
theorem exec_mctx_of_odd {s : State} {n : Reg} (h : Ready s (.mctx n)) (hodd : s.reg n % 2 = 1) :
    exec (.mctx n) s = .next { s with mont := montContext s.params.montGran (s.reg n)
                                      status := { doneStatus s with mctxv := true } } := by
  refine exec_of_ok (w := { mont := some (montContext s.params.montGran (s.reg n)) }) h ?_
  rw [ruleOf, ruleMctx, if_neg (by omega)]

/-- Settles O38: an even modulus is refused; an odd one loads a context of the invariant's kind, in which RINV inverts
`R`. -/
theorem mctxResult : Obligations.MctxResult := by
  intro s n hI hR
  obtain ⟨hlegal, hregs, -⟩ := hI
  refine ⟨fun heven => exec_of_error hR (e := .invalidModulus) ?_, fun hodd => ⟨_, exec_mctx_of_odd hR hodd, ?_⟩⟩
  · rw [ruleOf, ruleMctx, if_pos heven]
    rfl
  · obtain ⟨-, -, hgran, -⟩ := legal_width hlegal
    obtain ⟨-, -, hwidth, -, hr2, hrinv, hinv⟩ := montLoaded_montContext hlegal hodd (hregs n).1
    obtain ⟨hlo, hhi⟩ := montExp_bounds hgran (s.reg n)
    exact ⟨rfl, rfl, montExp_mod _ _, hlo, hhi, hwidth, hr2, hrinv, r2_mul_rinv hinv hr2,
      (Nat.mod_mul_mod ..).trans hinv⟩

/-- Settles O39: each of the three rules is a residue mod `N`. -/
theorem montgomeryResults : Obligations.MontgomeryResults := by
  intro s rd a b hI
  refine ⟨fun hm => ⟨?_, ?_, ?_⟩, fun h => ?_, fun h => ?_, fun h => ?_⟩
  · exact errorsWith_of_no_mctxv rfl (by simp [Instr.spans]) hm
  · exact errorsWith_of_no_mctxv rfl (by simp [Instr.spans]) hm
  · exact errorsWith_of_no_mctxv rfl (by simp [Instr.spans]) hm
  · exact exec_of_montResidue hI rfl h rfl
  · exact exec_of_montResidue hI rfl h rfl
  · exact exec_of_montResidue hI rfl h rfl

/-- Settles O40: square and multiply on the plain value of the base is its power. -/
theorem mpowResult : Obligations.MpowResult := by
  intro s rd x e hI
  refine ⟨errorsWith_of_no_mctxv rfl (by simp [Instr.spans]), fun h => exec_of_montResidue hI rfl h ?_⟩
  rw [ruleOf, ruleMpow, montPow, powMod_eq]
  rfl

/-- Settles O41: products and powers of Montgomery forms are Montgomery forms, and converting out undoes converting in. -/
theorem montgomeryLaws : Obligations.MontgomeryLaws := by
  intro s hI hm a b e
  obtain ⟨-, -, -, -, -, -, hinv⟩ := montLoaded_of_inv hI hm
  refine ⟨montOut_montIn hinv a, ?_, ?_⟩
  · rw [montMul_montIn hinv, montOut_montIn hinv]
  · rw [montPow_montIn hinv, montOut_montIn hinv, Nat.mod_mod]

end Sys2Proof
end

section
/-! PROOFS. The GF(2^m) commands (42_gf2m.md R190 to R194): the halves of the product and the remainder fit a register, each
command writes its rule's value, and GFMULR is GFMUL followed by GFRED. -/

namespace Sys2Proof.Machine

/-- The high half of the product of two W-bit polynomials has bit `W - 1` clear: the product has at most `2W - 1` bits
(R191). -/
theorem clmul_div_two_pow_lt {u v W : Nat} (hu : u < 2 ^ W) (hv : v < 2 ^ W) : clmul u v / 2 ^ W < 2 ^ (W - 1) := by
  cases W with
  | zero =>
    obtain rfl : u = 0 := by omega
    simp
  | succ d => exact Nat.div_lt_of_lt_mul ((clmul_lt hu hv).trans_eq (pow_add ..))

/-- The remainder fits the register that holds the polynomial (R19). -/
theorem polymod_lt {f W : Nat} (hf : f ≠ 0) (hW : f < 2 ^ W) (t : Nat) : polymod t f < 2 ^ W :=
  (bitlen_le_iff _ W).mp ((bitlen_polymod_lt hf t).le.trans ((bitlen_le_iff f W).mpr hW))

/-- The operand check passes exactly when every register of every source span is written (R113). -/
theorem sourcesWritten_iff (s : State) (i : Instr) :
    s.sourcesWritten i = true ↔ ∀ x ∈ sourceSpans i, ∀ r ∈ spanRegs x.1 x.2, s.regWritten r = true := by
  simp only [State.sourcesWritten, List.all_eq_true]

end Sys2Proof.Machine

namespace Sys2Proof

open Machine

/-! ### What a command that only writes registers leaves -/

section
variable {rs : List Reg} {st : Status} {s t : State} (h : OnlyRegs rs st s t)
include h

theorem OnlyRegs.params_eq : t.params = s.params := by
  obtain ⟨ht, -⟩ := h
  rw [ht]

theorem OnlyRegs.reg_of_not_mem {r : Reg} (hr : r ∉ rs) : t.reg r = s.reg r := by
  obtain ⟨-, hv, -⟩ := h
  rw [State.reg, hv r hr, State.reg]

theorem OnlyRegs.regWritten_of_not_mem {r : Reg} (hr : r ∉ rs) : t.regWritten r = s.regWritten r := by
  have ⟨_, hv, _⟩ := h
  rw [State.regWritten, hv r hr, h.params_eq, State.regWritten]

end

/-! ### GFADD and GFMUL -/

/-- The destination pair of a ready GFMUL ends by V31 (R106). -/
theorem gfmul_pair_fits {s : State} {rd a b : Reg} (h : Ready s (.gfmul rd a b)) : rd.val + 2 ≤ 32 := by
  obtain ⟨hwf, -⟩ := h
  exact span_le_of_wf hwf (by simp [Instr.spans])

/-- GFMUL leaves the low and high halves of the product in the pair (R191). -/
theorem exec_gfmul {s : State} {rd a b : Reg} (hregs : RegsOk s) (h : Ready s (.gfmul rd a b)) :
    ∃ t, exec (.gfmul rd a b) s = .next t ∧ OnlyRegs [rd, spanReg rd 1] (doneStatus s) s t ∧
      t.reg rd = clmul (s.reg a) (s.reg b) % 2 ^ s.params.width ∧
      t.reg (spanReg rd 1) = clmul (s.reg a) (s.reg b) / 2 ^ s.params.width := by
  have hfit := gfmul_pair_fits h
  have hlow : clmul (s.reg a) (s.reg b) % 2 ^ s.params.width < 2 ^ s.params.width := Nat.mod_lt _ (Nat.two_pow_pos _)
  have hhigh : clmul (s.reg a) (s.reg b) / 2 ^ s.params.width < 2 ^ s.params.width :=
    (clmul_div_two_pow_lt (hregs a).1 (hregs b).1).trans_le (Nat.pow_le_pow_right two_pos (Nat.sub_le _ _))
  exact ⟨_, exec_of_ok h rfl, commit_two (by omega) hlow hhigh⟩

/-- Settles O44: the sum fits the register, and the two halves make the product. -/
theorem gfaddGfmulResults : Obligations.GfaddGfmulResults := by
  intro s rd a b hregs
  refine ⟨fun h => exec_of_oneWrite h rfl (Nat.xor_lt_two_pow (hregs a).1 (hregs b).1), fun h => ?_⟩
  obtain ⟨t, ht, honly, hlow, hhigh⟩ := exec_gfmul hregs h
  refine ⟨t, ht, honly, ?_, ?_⟩
  · rw [hlow, hhigh, Nat.mod_add_div']
  · rw [hhigh]
    exact clmul_div_two_pow_lt (hregs a).1 (hregs b).1

/-! ### GFRED and GFMULR -/

section
variable {s : State} {i : Instr} {rd : Reg} {t f : Nat} (h : Ready s i) (hr : ruleOf i s = reduceBy rd t f)
include h hr

/-- Reduction by a polynomial whose bit 0 is clear completes with INVALID_FIELD_POLYNOMIAL (R192). -/
theorem errorsWith_of_reduceBy_even (heven : f % 2 = 0) : ErrorsWith i s 4 := by
  refine exec_of_error h (e := .invalidFieldPolynomial) ?_
  rw [hr, reduceBy, if_pos heven]
  rfl

/-- Reduction by a polynomial whose bit 0 is set writes the remainder (R192). -/
theorem exec_of_reduceBy_odd (hodd : f % 2 = 1) (hf : f < 2 ^ s.params.width) :
    ∃ u, exec i s = .next u ∧ OnlyRegs [rd] (doneStatus s) s u ∧ u.reg rd = polymod t f := by
  refine exec_of_oneWrite h ?_ (polymod_lt (by omega) hf t)
  rw [hr, reduceBy, if_neg (by omega)]

end

/-- Settles O45: both rules are the reduction, of the pair and of the product. -/
theorem reductionResults : Obligations.ReductionResults := by
  intro s rd a b f hregs
  obtain ⟨hf, -⟩ := hregs f
  exact ⟨fun h => ⟨errorsWith_of_reduceBy_even h rfl, fun hodd => exec_of_reduceBy_odd h rfl hodd hf⟩,
    fun h => ⟨errorsWith_of_reduceBy_even h rfl, fun hodd => exec_of_reduceBy_odd h rfl hodd hf⟩⟩

/-- After GFMUL into a pair, GFRED of the pair by a polynomial outside it that was written before is ready (R113). -/
theorem ready_gfred_of_gfmul {s t : State} {p a b f : Reg} (h : Ready s (.gfmul p a b))
    (honly : OnlyRegs [p, spanReg p 1] (doneStatus s) s t) (hf : f ∉ [p, spanReg p 1]) (hw : s.regWritten f = true)
    (rd : Reg) : Ready t (.gfred rd p f) := by
  have hfit := gfmul_pair_fits h
  have ⟨_, _, hpair⟩ := honly
  refine ⟨?_, rfl, (sourcesWritten_iff _ _).mpr fun x hx => ?_⟩
  · simp only [Instr.wf, Instr.spans, spanFits, List.all_cons, List.all_nil, Bool.and_true, Bool.and_eq_true,
      decide_eq_true_eq]
    omega
  · obtain rfl | rfl : x = (p, 2) ∨ x = (f, 1) := by simpa [sourceSpans] using hx
    · rwa [spanRegs_two]
    · rw [spanRegs_one, List.forall_mem_singleton, honly.regWritten_of_not_mem hf]
      exact hw

/-- Settles O46: GFMUL leaves the product in the pair, so GFRED reduces what GFMULR reduces, by the same polynomial. -/
theorem gfmulrIsGfmulThenGfred : Obligations.GfmulrIsGfmulThenGfred := by
  intro s rd a b f p hregs hp hp1 hodd hmul hmulr
  have hout : f ∉ [p, spanReg p 1] := by simp [hp, hp1]
  have hwritten : s.regWritten f = true := by
    have ⟨_, _, hsources⟩ := hmulr
    exact (sourcesWritten_iff _ _).mp hsources (f, 1) (by simp [sourceSpans]) f (by simp [spanRegs_one])
  obtain ⟨-, hproduct⟩ := gfaddGfmulResults s p a b hregs
  obtain ⟨t₁, h₁, honly, hpair, -⟩ := hproduct hmul
  have hf : t₁.reg f = s.reg f := honly.reg_of_not_mem hout
  have hfit : t₁.reg f < 2 ^ t₁.params.width := by
    rw [hf, honly.params_eq]
    exact (hregs f).1
  have hred : Ready t₁ (.gfred rd p f) := ready_gfred_of_gfmul hmul honly hout hwritten rd
  obtain ⟨t₂, h₂, -, hrd₂⟩ := exec_of_reduceBy_odd hred rfl (hf ▸ hodd) hfit
  obtain ⟨t₃, h₃, -, hrd₃⟩ := exec_of_reduceBy_odd hmulr rfl hodd (hregs f).1
  refine ⟨t₁, t₂, t₃, h₁, h₂, h₃, ?_⟩
  rw [hrd₂, hrd₃, State.pair, honly.params_eq, hpair, hf]

end Sys2Proof
end

section
/-! PROOFS. The curve descriptor: CURVE's checks in their order and what it loads, and the doubling chain of the generator table
(43_curve_context.md R220 to R224). -/

namespace Sys2Proof.Machine

/-! ### The checks -/

/-- `OnCurve` (R224) is the curve's equation modulo `p`. -/
theorem onCurve_iff {p : Nat} (hp : 0 < p) (x y a b : Nat) :
    onCurve x y p a b = true ↔ ((y : Int) ^ 2 - (x ^ 3 + a * x + b)) % p = 0 := by
  have hpowers : (y : Int) * y - (x * x * x + a * x + b) = y ^ 2 - (x ^ 3 + a * x + b) := by ring
  rw [onCurve, beq_iff_eq, zmod_eq_zero_iff _ hp, hpowers, Int.dvd_iff_emod_eq_zero]

section
variable {p a b h gx gy n : Nat}

theorem checkCurve_bad_modulus (hp : p % 2 = 0 ∨ p < 5) : checkCurve p a b gx gy n = some .invalidModulus := by
  rw [checkCurve, if_pos hp]

theorem checkCurve_small_order (hodd : p % 2 = 1) (h5 : 5 ≤ p) (hn : n < 2) :
    checkCurve p a b gx gy n = some .invalidModulus := by
  rw [checkCurve, if_neg (by omega), if_pos hn]

theorem checkCurve_bad_generator (hodd : p % 2 = 1) (h5 : 5 ≤ p) (hn : 2 ≤ n)
    (hg : gx ≥ p ∨ gy ≥ p ∨ gy = 0 ∨ onCurve gx gy p (a % p) (b % p) = false) :
    checkCurve p a b gx gy n = some .malformedPoint := by
  rw [checkCurve, if_neg (by omega), if_neg (by omega), if_pos hg]

/-- The converse of `checkCurve_eq_none`. -/
theorem checkCurve_passed (hodd : p % 2 = 1) (h5 : 5 ≤ p) (hn : 2 ≤ n) (hx : gx < p) (hy : gy < p) (hy0 : gy ≠ 0)
    (hon : onCurve gx gy p (a % p) (b % p) = true) : checkCurve p a b gx gy n = none := by
  have hg : ¬(gx ≥ p ∨ gy ≥ p ∨ gy = 0 ∨ onCurve gx gy p (a % p) (b % p) = false) := by
    simp only [not_or, Bool.not_eq_false]
    exact ⟨hx.not_ge, hy.not_ge, hy0, hon⟩
  rw [checkCurve, if_neg (by omega), if_neg (by omega), if_neg hg]

theorem loadCurve_of_failed {e : ErrorCode} (hc : checkCurve p a b gx gy n = some e) :
    loadCurve p a b h gx gy n = .error e 0 := by
  rw [loadCurve, hc]
  rfl

theorem loadCurve_of_passed (hc : checkCurve p a b gx gy n = none) :
    loadCurve p a b h gx gy n =
      .ok { curve := some (curveContext p a b h gx gy n, buildTable p (a % p) gx gy n) } := by
  rw [loadCurve, hc]

end

/-! ### The generator table -/

section
variable (p a : Nat)

theorem length_tableFrom (k : Nat) (t : Option Aff) : (tableFrom p a k t).length = k + 1 := by
  induction k generalizing t with
  | zero => rfl
  | succ k ih => rw [tableFrom, List.length_cons, ih]

theorem tableFrom_head (k : Nat) (t : Option Aff) : (tableFrom p a k t)[0]? = some t := by
  cases k <;> rfl

/-- Each entry but the last is followed by its double, or by no point where it holds none or has no double (R223). -/
theorem tableFrom_next {k j : Nat} (hj : j < k) {t e : Option Aff} (he : (tableFrom p a k t)[j]? = some e) :
    (tableFrom p a k t)[j + 1]? = some (e.bind (affDbl p a)) := by
  induction k generalizing t j with
  | zero => omega
  | succ k ih =>
    cases j with
    | zero =>
      obtain rfl : t = e := Option.some.inj he
      exact tableFrom_head p a k _
    | succ j => exact ih (Nat.lt_of_succ_lt_succ hj) he

end

end Sys2Proof.Machine

namespace Sys2Proof

open Machine

/-! ### CURVE -/

section
variable {s : State} {c : Reg} {p a b h gx gy n : Nat}

/-- A ready CURVE whose descriptor fails a check completes with that check's error (R221). -/
theorem errorsWith_of_checkCurve {e : ErrorCode} (hR : Ready s (.curve c))
    (hrule : ruleOf (.curve c) s = loadCurve p a b h gx gy n) (hc : checkCurve p a b gx gy n = some e) :
    ErrorsWith (.curve c) s e.code :=
  exec_of_error hR (hrule.trans (loadCurve_of_failed hc))

/-- A ready CURVE whose descriptor passes the checks loads the context and the table, sets their valid bits and changes
nothing else (R221). -/
theorem exec_curve_of_passed (hR : Ready s (.curve c)) (hrule : ruleOf (.curve c) s = loadCurve p a b h gx gy n)
    (hc : checkCurve p a b gx gy n = none) :
    exec (.curve c) s = .next { s with curve := curveContext p a b h gx gy n
                                       gtab := buildTable p (a % p) gx gy n
                                       status := { doneStatus s with curvev := true, gtabv := true } } :=
  exec_of_ok hR (hrule.trans (loadCurve_of_passed hc))

end

/-- Settles O47: each clause is one outcome of the checks, which the rule turns into an error or a load. -/
theorem curveResult : Obligations.CurveResult := by
  intro s c p a b h gx gy n hR hp ha hb hh hgx hgy hn
  have hrule : ruleOf (.curve c) s = loadCurve p a b h gx gy n := by
    rw [hp, ha, hb, hh, hgx, hgy, hn]
    rfl
  refine ⟨fun hmod => ?_, fun hodd h5 hn2 => ?_, fun hodd h5 hn2 hbad => ?_, fun hodd h5 hn2 hx hy hy0 hon => ?_⟩
  · exact errorsWith_of_checkCurve hR hrule (checkCurve_bad_modulus hmod)
  · exact errorsWith_of_checkCurve hR hrule (checkCurve_small_order hodd h5 hn2)
  · rw [Ne, ← onCurve_iff (by omega), Bool.not_eq_true] at hbad
    exact errorsWith_of_checkCurve hR hrule (checkCurve_bad_generator hodd h5 hn2 hbad)
  · rw [← onCurve_iff (by omega)] at hon
    exact exec_curve_of_passed hR hrule (checkCurve_passed hodd h5 hn2 hx hy hy0 hon)

/-- Settles O48: the table is a chain of doublings that starts at `G`. -/
theorem generatorTableDoubles : Obligations.GeneratorTableDoubles :=
  fun p a _ _ _ => ⟨length_tableFrom p a _ _, tableFrom_head p a _ _, fun _ _ hk => tableFrom_next p a hk⟩

end Sys2Proof
end

section
/-! PROOFS. `AffMul` is double-and-add (44_point_arith.md R243). -/

namespace Sys2Proof.Machine

/-- The rounds for a scalar with one bit more are those for the scalar, then one for the new last bit (R243). -/
theorem affMulLoop_two_mul_add (p a : Nat) (P : Aff) (k : Nat) (b : Bool) (i : Nat) (acc : Aff) :
    affMulLoop p a P (2 * k + b.toNat) (i + 1) acc = (affMulLoop p a P k i acc).bind (affRound p a P b) := by
  induction i generalizing acc with
  | zero =>
    have hbit : (2 * k + b.toNat).testBit 0 = b := by cases b <;> simp
    simp only [affMulLoop, hbit, Option.bind_some]
    cases affRound p a P b acc <;> rfl
  | succ i ih =>
    have hbit : (2 * k + b.toNat).testBit (i + 1) = k.testBit i := by
      rw [Nat.testBit_succ]
      congr 1
      have := b.toNat_lt
      omega
    simp only [affMulLoop, hbit] at ih ⊢
    cases affRound p a P (k.testBit i) acc with
    | none => rfl
    | some R => exact ih R

@[simp] theorem affMul_zero (p a : Nat) (P : Aff) : affMul p a 0 P = some .identity := rfl

/-- A scalar with one bit more takes one round more (R243). -/
theorem affMul_two_mul_add (p a k : Nat) (P : Aff) (b : Bool) (h : 2 * k + b.toNat ≠ 0) :
    affMul p a (2 * k + b.toNat) P = (affMul p a k P).bind (affRound p a P b) := by
  rw [affMul, bitlen_two_mul_add b.toNat_lt h, affMulLoop_two_mul_add]
  rfl

theorem affRound_false (p a : Nat) (P : Aff) : affRound p a P false = affDbl p a := by
  funext acc
  unfold affRound
  cases affDbl p a acc <;> rfl

theorem affRound_true (p a : Nat) (P : Aff) :
    affRound p a P true = fun acc => (affDbl p a acc).bind fun d => affAdd p a d P := by
  funext acc
  unfold affRound
  cases affDbl p a acc <;> rfl

end Sys2Proof.Machine

namespace Sys2Proof

open Machine

/-- Settles O56: a new last bit is one round more, which doubles and then adds `P` for a 1. -/
theorem affMulIsDoubleAndAdd : Obligations.AffMulIsDoubleAndAdd := by
  intro p a k P
  refine ⟨affMul_zero p a P, ?_, ?_⟩
  · by_cases hk : k = 0
    · subst hk
      rfl
    · have heven := affMul_two_mul_add p a k P false (by simpa using hk)
      rwa [affRound_false] at heven
  · rw [Option.bind_assoc, ← affRound_true]
    exact affMul_two_mul_add p a k P true (Nat.succ_ne_zero _)

end Sys2Proof
end

section
/-! PROOFS. The point commands (44_point_arith.md R255, R258, R262, R265): what PADD and PDBL write with JAC_REPR = exact, what
PEQ sets and what J2A writes. -/

namespace Sys2Proof

open Machine

/-- A command that needs the curve context completes with error 10 without it (R111). -/
theorem errorsWith_of_no_curvev {s : State} {i : Instr} (hctx : contextOf i = .curve) (hv : s.status.curvev = false)
    (hw : i.wf = true) : ErrorsWith i s 10 :=
  exec_noContext hw (by rw [hctx]; exact hv)

/-- A ready command whose rule writes one reduced triple leaves its canonical form in the destination, with INF exactly for
an infinite one, and changes nothing else but STATUS (R246, R113). -/
theorem exec_of_pointWrites {s : State} {i : Instr} {rd : Reg} {J : Jac} (hR : Ready s i)
    (hrule : ruleOf i s = .ok (pointWrites rd J)) (hspan : rd.val + 2 < 32) (hp : 0 < s.curve.p)
    (hW : s.curve.p ≤ 2 ^ s.params.width) (hJ : J.reduced s.curve.p) :
    ∃ t, exec i s = .next t ∧ OnlyRegs (spanRegs rd 3) { doneStatus s with inf := J.isInf } s t ∧
      HoldsPoint t rd J.canon := by
  obtain ⟨hstate, hframe, hwritten, hholds⟩ := commit_point (k := 0) hspan hp hW hJ
  exact ⟨_, exec_of_ok hR hrule, ⟨hstate, hframe, hwritten⟩, hholds⟩

/-! ### PADD and PDBL -/

theorem jacobianWrites_of_exact {s : State} (h : s.params.jacRepr = .exact) (rd : Reg) (J : Jac) :
    jacobianWrites s rd J = pointWrites rd J := by
  rw [jacobianWrites, h]

/-- With JAC_REPR = exact PADD and PDBL write the canonical form of their formulas' triple (R12, R255, R258). -/
theorem exec_jacobian_of_exact {s : State} {i : Instr} {rd a b : Reg} {J : Jac} (hI : Inv s)
    (hexact : s.params.jacRepr = .exact)
    (hi : (i = .padd rd a b ∧ J = jadd s.curve.p s.curve.a (s.point a) (s.point b)) ∨
      (i = .pdbl rd a ∧ J = jdbl s.curve.p s.curve.a (s.point a))) (hR : Ready s i) :
    ∃ t, exec i s = .next t ∧ OnlyRegs (spanRegs rd 3) { doneStatus s with inf := J.isInf } s t ∧
      HoldsPoint t rd J.canon := by
  obtain ⟨⟨hp, hW⟩, hspan, hJ, hrule⟩ := pointResult_of_ready hI hi hR
  rw [jacobianWrites_of_exact hexact] at hrule
  exact exec_of_pointWrites hR hrule hspan (Nat.zero_lt_of_lt hp) hW.le hJ

/-- Settles O49: both are writers of one Jacobian result. -/
theorem pointSumAndDoubleResults : Obligations.PointSumAndDoubleResults := fun _ _ _ b hI hexact =>
  ⟨fun hv => ⟨errorsWith_of_no_curvev rfl hv, errorsWith_of_no_curvev rfl hv⟩,
    exec_jacobian_of_exact hI hexact (.inl ⟨rfl, rfl⟩),
    exec_jacobian_of_exact (b := b) hI hexact (.inr ⟨rfl, rfl⟩)⟩

/-! ### PEQ -/

theorem isInf_iff (t : Jac) : t.isInf = true ↔ t.y = 0 ∨ t.z = 0 := by simp [Jac.isInf]

/-- The test of PEQ (R262): two infinite triples are equal, an infinite and a finite one are not, and two finite ones are when
both cross-products agree modulo `p`. -/
theorem jacEq_iff {p : Nat} (hp : 0 < p) (P Q : Jac) :
    jacEq p P Q = true ↔
      (P.isInf = true ∧ Q.isInf = true) ∨
        (¬P.isInf = true ∧ ¬Q.isInf = true ∧ (p : Int) ∣ P.x * Q.z ^ 2 - Q.x * P.z ^ 2 ∧
          (p : Int) ∣ P.y * Q.z ^ 3 - Q.y * P.z ^ 3) := by
  have hx : (P.x : Int) * (Q.z * Q.z) - Q.x * (P.z * P.z) = P.x * Q.z ^ 2 - Q.x * P.z ^ 2 := by ring
  have hy : (P.y : Int) * (Q.z * Q.z * Q.z) - Q.y * (P.z * P.z * P.z) = P.y * Q.z ^ 3 - Q.y * P.z ^ 3 := by ring
  rw [jacEq, hx, hy]
  cases P.isInf <;> cases Q.isInf <;> simp [zmod_eq_zero_iff _ hp]

/-- Settles O52: EQ becomes the answer of the test, and nothing else but BUSY and DONE changes. -/
theorem peqResult : Obligations.PeqResult := by
  rintro s a b P Q rfl rfl
  refine ⟨fun hw hv => errorsWith_of_no_curvev rfl hv hw, fun hR h5 => ?_⟩
  have hexec := exec_of_ok (i := .peq a b) hR rfl
  refine ⟨_, hexec, rfl, ?_⟩
  simp only [← isInf_iff]
  exact jacEq_iff (by omega) _ _

/-! ### J2A -/

section
variable {s : State} {rd a : Reg}

theorem ruleOf_j2a_of_inf (h : (s.point a).isInf = true) : ruleOf (.j2a rd a) s = .ok (pointWrites rd ⟨0, 0, 0⟩) := by
  rw [ruleOf, ruleJ2a, if_pos h]

theorem ruleOf_j2a_of_none (h : (s.point a).isInf = false) (hinv : invMod (s.point a).z s.curve.p = none) :
    ruleOf (.j2a rd a) s = .error .notInvertible 0 := by
  rw [ruleOf, ruleJ2a, h, if_neg Bool.false_ne_true, hinv]
  rfl

theorem ruleOf_j2a_of_some {zi : Nat} (h : (s.point a).isInf = false) (hinv : invMod (s.point a).z s.curve.p = some zi) :
    ruleOf (.j2a rd a) s =
      .ok (pointWrites rd ⟨(affineOf s.curve.p (s.point a) zi).1, (affineOf s.curve.p (s.point a) zi).2, 1⟩) := by
  rw [ruleOf, ruleJ2a, h, if_neg Bool.false_ne_true, hinv]

end

/-- The coordinates by an inverse of `Z` solve `x·Z² = X` and `y·Z³ = Y` mod `p` (R245, R265). -/
theorem affineOf_mul_pow {p zi : Nat} {P : Jac} (hP : P.reduced p) (hzi : P.z * zi % p = 1 % p) :
    (affineOf p P zi).1 * P.z ^ 2 % p = P.x ∧ (affineOf p P zi).2 * P.z ^ 3 % p = P.y := by
  obtain ⟨hx, hy, -⟩ := hP
  have hcancel (c n : Nat) : c * (P.z * zi) ^ n ≡ c [MOD p] := by
    have hinv : P.z * zi ≡ 1 [MOD p] := hzi
    simpa using (hinv.pow n).mul_left c
  constructor
  · rw [affineOf, Nat.mod_mul_mod, show P.x * zi * zi * P.z ^ 2 = P.x * (P.z * zi) ^ 2 by ring]
    exact Eq.trans (hcancel P.x 2) (Nat.mod_eq_of_lt hx)
  · rw [affineOf, Nat.mod_mul_mod, show P.y * zi * zi * zi * P.z ^ 3 = P.y * (P.z * zi) ^ 3 by ring]
    exact Eq.trans (hcancel P.y 3) (Nat.mod_eq_of_lt hy)

/-- J2A of a finite triple whose `Z` is a unit answers `(x, y, 1)` for the solution of `x·Z² = X` and `y·Z³ = Y` (R265). -/
theorem ruleOf_j2a_of_coprime {s : State} {a : Reg} (rd : Reg) (hp : 0 < s.curve.p) (h : (s.point a).isInf = false)
    (hg : Nat.Coprime (s.point a).z s.curve.p) :
    ∃ x y, ruleOf (.j2a rd a) s = .ok (pointWrites rd ⟨x, y, 1⟩) ∧ x < s.curve.p ∧ y < s.curve.p ∧
      x * (s.point a).z ^ 2 % s.curve.p = (s.point a).x ∧ y * (s.point a).z ^ 3 % s.curve.p = (s.point a).y := by
  obtain ⟨zi, hinv, -, hzi⟩ := invMod_of_coprime hp hg
  exact ⟨_, _, ruleOf_j2a_of_some h hinv, Nat.mod_lt _ hp, Nat.mod_lt _ hp, affineOf_mul_pow (point_reduced s a hp) hzi⟩

/-- A ready J2A has a modulus above 1 that fits a register and a destination span that fits (R106, R222). -/
theorem j2a_bounds {s : State} {rd a : Reg} (hI : Inv s) (hR : Ready s (.j2a rd a)) :
    1 < s.curve.p ∧ s.curve.p ≤ 2 ^ s.params.width ∧ rd.val + 2 < 32 := by
  obtain ⟨hw, hctx, -⟩ := hR
  obtain ⟨hp, hW⟩ := curve_modulus_bounds hI hctx
  have hspan := span_le_of_wf (r := rd) (n := 3) hw (by simp [Instr.spans])
  exact ⟨hp, hW.le, by omega⟩

/-- Settles O53: the rule's three answers; `(x, y, 1)` is its own canonical form, since `y = 0` would give `Y = y·Z³ = 0`. -/
theorem j2aResult : Obligations.J2aResult := by
  rintro s rd a P hI rfl
  simp only [← isInf_iff, Bool.not_eq_true]
  refine ⟨fun hw hv => errorsWith_of_no_curvev rfl hv hw, fun hR hinf => ?_, fun hR hfin hg => ?_, fun hR hfin hg => ?_⟩
  · obtain ⟨hp, hW, hspan⟩ := j2a_bounds hI hR
    have hp0 : 0 < s.curve.p := Nat.zero_lt_of_lt hp
    exact exec_of_pointWrites hR (ruleOf_j2a_of_inf hinf) hspan hp0 hW ⟨hp0, hp0, hp0⟩
  · obtain ⟨-, hz0⟩ := (isInf_eq_false_iff _).mp hfin
    have hz : (s.point a).z % s.curve.p = (s.point a).z := Nat.mod_mod _ _
    exact exec_of_error hR (ruleOf_j2a_of_none hfin (invMod_of_gcd_ne_one hz0 (by rwa [hz])))
  · obtain ⟨hp, hW, hspan⟩ := j2a_bounds hI hR
    obtain ⟨x, y, hrule, hx, hy, hX, hY⟩ := ruleOf_j2a_of_coprime rd (Nat.zero_lt_of_lt hp) hfin hg
    obtain ⟨hY0, -⟩ := (isInf_eq_false_iff _).mp hfin
    have hy0 : y ≠ 0 := by
      rintro rfl
      exact hY0 (by simpa using hY.symm)
    have haffine : (Jac.mk x y 1).isInf = false := (isInf_eq_false_iff _).mpr ⟨hy0, one_ne_zero⟩
    obtain ⟨t, ht, honly, hholds⟩ := exec_of_pointWrites hR hrule hspan (Nat.zero_lt_of_lt hp) hW ⟨hx, hy, hp⟩
    rw [haffine] at honly
    rw [Jac.canon, haffine] at hholds
    exact ⟨t, x, y, ht, honly, hholds, hx, hy, hX, hY⟩

end Sys2Proof
end

section
/-! PROOFS. The Jacobian formulas over the field `Z/p` (44_point_arith.md R247 to R253): each of them scales the coordinates of
the point that one line, a tangent or a chord, gives in the affine group law (R241, R242). -/

namespace Sys2Proof.Machine

/-! ### Triples over `Z/p` -/

/-- Integers `(X, Y, Z)` are Jacobian coordinates of the affine point `(x, y)` of `Z/p` (R245). -/
def Represents (p : Nat) (X Y Z : Int) (x y : ZMod p) : Prop :=
  (Z : ZMod p) ≠ 0 ∧ (X : ZMod p) = x * Z ^ 2 ∧ (Y : ZMod p) = y * Z ^ 3

/-- The triple comes from the line of slope `e/d` through `(x1, y1)` and a point of abscissa `x2`: its coordinates are those of
R241 and R242 with the denominator `d` cleared, times the powers of a factor `k` that is not 0. -/
def OnLine (p : Nat) (T : Jac) (d e x1 y1 x2 : ZMod p) : Prop :=
  ∃ k : ZMod p, k ≠ 0 ∧ (T.z : ZMod p) = k * d ∧ (T.x : ZMod p) = k ^ 2 * (e ^ 2 - (x1 + x2) * d ^ 2) ∧
    (T.y : ZMod p) = k ^ 3 * (e * (x1 * d ^ 2 - (e ^ 2 - (x1 + x2) * d ^ 2)) - y1 * d ^ 3)

/-- The triple comes from the tangent at `(x, y)` (R241). -/
def IsDouble (p a : Nat) (T : Jac) (x y : ZMod p) : Prop := OnLine p T (2 * y) (3 * x ^ 2 + a) x y x

/-- The triple comes from the tangent when the two points are equal, else from the chord (R242). -/
def IsSum (p a : Nat) (T : Jac) (x1 y1 x2 y2 : ZMod p) : Prop :=
  if x1 = x2 ∧ y1 = y2 then IsDouble p a T x1 y1 else OnLine p T (x2 - x1) (y2 - y1) x1 y1 x2

section
variable {p a : Nat} {x1 y1 x2 y2 : ZMod p}

theorem IsSum.isDouble {T : Jac} (h : IsSum p a T x1 y1 x2 y2) (heq : x1 = x2 ∧ y1 = y2) : IsDouble p a T x1 y1 := by
  rwa [IsSum, if_pos heq] at h

theorem IsSum.onLine {T : Jac} (h : IsSum p a T x1 y1 x2 y2) (hne : ¬(x1 = x2 ∧ y1 = y2)) :
    OnLine p T (x2 - x1) (y2 - y1) x1 y1 x2 := by
  rwa [IsSum, if_neg hne] at h

/-- A formula that doubles exactly for equal points, and else computes the chord, gives the sum. -/
theorem isSum_ite {c : Prop} [Decidable c] {T U : Jac} (hc : c ↔ x1 = x2 ∧ y1 = y2) (hT : IsDouble p a T x1 y1)
    (hU : OnLine p U (x2 - x1) (y2 - y1) x1 y1 x2) : IsSum p a (if c then T else U) x1 y1 x2 y2 := by
  unfold IsSum
  by_cases h : c
  · rwa [if_pos h, if_pos (hc.mp h)]
  · rwa [if_neg h, if_neg (mt hc.mpr h)]

/-- The sum does not depend on the order of its points. -/
theorem IsSum.symm {T : Jac} (h : IsSum p a T x1 y1 x2 y2) : IsSum p a T x2 y2 x1 y1 := by
  by_cases heq : x1 = x2 ∧ y1 = y2
  · obtain ⟨rfl, rfl⟩ := heq
    exact h
  · obtain ⟨k, hk, hz, hx, hy⟩ := h.onLine heq
    rw [IsSum, if_neg fun h' => heq ⟨h'.1.symm, h'.2.symm⟩]
    refine ⟨-k, neg_ne_zero.mpr hk, ?_, ?_, ?_⟩
    · rw [hz]; ring
    · rw [hx]; ring
    · rw [hy]; ring

end

/-- A remainder vanishes exactly when the integer is 0 in `Z/p`. -/
theorem emod_eq_zero_iff_cast (p : Nat) (k : Int) : k % p = 0 ↔ (k : ZMod p) = 0 := by
  rw [ZMod.intCast_zmod_eq_zero_iff_dvd, Int.dvd_iff_emod_eq_zero]

/-- Two remainders are the same exactly when the integers' difference is 0 in `Z/p`. -/
theorem emod_sub_emod_eq_zero_iff_cast (p : Nat) (k l : Int) : k % p - l % p = 0 ↔ ((k - l : Int) : ZMod p) = 0 := by
  rw [sub_eq_zero, ← emod_eq_zero_iff_cast, Int.emod_eq_emod_iff_emod_sub_eq_zero]

@[simp, push_cast] theorem cast_zmod {p : Nat} [NeZero p] (k : Int) : ((zmod k p : Nat) : ZMod p) = k :=
  zmod_toZMod k (NeZero.pos p)

/-! ### The formulas -/

section
variable {p a : Nat} [Fact p.Prime] {X1 Y1 Z1 X2 Y2 Z2 : Int} {x1 y1 x2 y2 : ZMod p}

/-- `MDBL` (R252). -/
theorem mdbl_isDouble (hP : Represents p X1 Y1 1 x1 y1) (hy : y1 ≠ 0) : IsDouble p a (mdbl p a X1 Y1) x1 y1 := by
  obtain ⟨-, hX, hY⟩ := hP
  have hyy : ¬Y1 * Y1 % (p : Int) = 0 := by
    rw [emod_eq_zero_iff_cast]
    simp [hY, hy]
  unfold mdbl
  rw [if_neg hyy]
  refine ⟨1, one_ne_zero, ?_, ?_, ?_⟩ <;> push_cast [hX, hY] <;> ring

/-- `DBL` (R253), which is MDBL for `Z = 1`. -/
theorem dbl_isDouble (hP : Represents p X1 Y1 Z1 x1 y1) (hy : y1 ≠ 0) : IsDouble p a (dbl p a X1 Y1 Z1) x1 y1 := by
  by_cases hZ : Z1 = 1
  · rw [dbl, if_pos hZ]
    exact mdbl_isDouble (hZ ▸ hP) hy
  · obtain ⟨hz, hX, hY⟩ := hP
    have hYne : (Y1 : ZMod p) ≠ 0 := hY ▸ mul_ne_zero hy (pow_ne_zero 3 hz)
    have hinf : ¬(Y1 = 0 ∨ Z1 = 0) := by
      rintro (rfl | rfl)
      · exact hYne Int.cast_zero
      · exact hz Int.cast_zero
    have hyy : ¬Y1 * Y1 % (p : Int) = 0 := by
      rw [emod_eq_zero_iff_cast]
      simp [hYne]
    unfold dbl
    rw [if_neg hZ, if_neg hinf, if_neg hyy]
    refine ⟨Z1 ^ 4, pow_ne_zero 4 hz, ?_, ?_, ?_⟩ <;> push_cast [hX, hY] <;> ring

/-- `ZADD` (R249), scaled by `Z³`. -/
theorem zadd_isSum (hP : Represents p X1 Y1 Z1 x1 y1) (hQ : Represents p X2 Y2 Z1 x2 y2) (hy : y1 ≠ 0) :
    IsSum p a (zadd p a X1 Y1 Z1 X2 Y2) x1 y1 x2 y2 := by
  have hdbl := dbl_isDouble (a := a) hP hy
  obtain ⟨hz, hX1, hY1⟩ := hP
  obtain ⟨-, hX2, hY2⟩ := hQ
  refine isSum_ite ?_ hdbl ⟨Z1 ^ 3, pow_ne_zero 3 hz, ?_, ?_, ?_⟩
  · rw [emod_eq_zero_iff_cast, emod_eq_zero_iff_cast]
    simp [hX1, hX2, hY1, hY2, hz, sub_eq_zero, eq_comm]
  all_goals
    push_cast [hX1, hX2, hY1, hY2]
    ring

variable (h2 : (2 : ZMod p) ≠ 0)
include h2

/-- `MMADD` (R248), scaled by 2. -/
theorem mmadd_isSum (hP : Represents p X1 Y1 1 x1 y1) (hQ : Represents p X2 Y2 1 x2 y2) (hy : y1 ≠ 0) :
    IsSum p a (mmadd p a X1 Y1 X2 Y2) x1 y1 x2 y2 := by
  have hdbl := mdbl_isDouble (a := a) hP hy
  obtain ⟨-, hX1, hY1⟩ := hP
  obtain ⟨-, hX2, hY2⟩ := hQ
  refine isSum_ite ?_ hdbl ⟨2, h2, ?_, ?_, ?_⟩
  · rw [emod_eq_zero_iff_cast, emod_eq_zero_iff_cast]
    simp [hX1, hX2, hY1, hY2, h2, sub_eq_zero, eq_comm]
  all_goals
    push_cast [hX1, hX2, hY1, hY2]
    ring

/-- `MADD` (R250), scaled by `-2·Z³` as the chord from its affine operand, the one it doubles. -/
theorem madd_isSum (hP : Represents p X1 Y1 Z1 x1 y1) (hQ : Represents p X2 Y2 1 x2 y2) (hy : y2 ≠ 0) :
    IsSum p a (madd p a X1 Y1 Z1 X2 Y2) x2 y2 x1 y1 := by
  have hdbl := mdbl_isDouble (a := a) hQ hy
  obtain ⟨hz, hX1, hY1⟩ := hP
  obtain ⟨-, hX2, hY2⟩ := hQ
  have hr : ((2 * (Y2 * Z1 * (Z1 * Z1 % p) % p - Y1) : Int) : ZMod p) = 2 * Z1 ^ 3 * (y2 - y1) := by
    push_cast [hY1, hY2]
    ring
  have hh : ((X2 * (Z1 * Z1 % p) % p - X1 : Int) : ZMod p) = Z1 ^ 2 * (x2 - x1) := by
    push_cast [hX1, hX2]
    ring
  refine isSum_ite ?_ hdbl ⟨-2 * Z1 ^ 3, mul_ne_zero (neg_ne_zero.mpr h2) (pow_ne_zero 3 hz), ?_, ?_, ?_⟩
  · rw [emod_eq_zero_iff_cast, emod_eq_zero_iff_cast, hr, hh]
    simp [h2, hz, sub_eq_zero, and_comm]
  all_goals
    push_cast [hX1, hX2, hY1, hY2]
    ring

/-- `ADDG` (R251), scaled by `2·Z1³·Z2³`. -/
theorem addg_isSum (hP : Represents p X1 Y1 Z1 x1 y1) (hQ : Represents p X2 Y2 Z2 x2 y2) (hy : y1 ≠ 0) :
    IsSum p a (addg p a X1 Y1 Z1 X2 Y2 Z2) x1 y1 x2 y2 := by
  have hdbl := dbl_isDouble (a := a) hP hy
  obtain ⟨hz1, hX1, hY1⟩ := hP
  obtain ⟨hz2, hX2, hY2⟩ := hQ
  have hr : ((2 * (Y2 * Z1 * (Z1 * Z1 % p) % p - Y1 * Z2 * (Z2 * Z2 % p) % p) : Int) : ZMod p) =
      2 * (Z1 ^ 3 * Z2 ^ 3) * (y2 - y1) := by
    push_cast [hY1, hY2]
    ring
  have hh : ((X2 * (Z1 * Z1 % p) - X1 * (Z2 * Z2 % p) : Int) : ZMod p) = Z1 ^ 2 * Z2 ^ 2 * (x2 - x1) := by
    push_cast [hX1, hX2]
    ring
  refine isSum_ite ?_ hdbl ⟨2 * (Z1 ^ 3 * Z2 ^ 3),
    mul_ne_zero h2 (mul_ne_zero (pow_ne_zero 3 hz1) (pow_ne_zero 3 hz2)), ?_, ?_, ?_⟩
  · rw [emod_sub_emod_eq_zero_iff_cast, emod_eq_zero_iff_cast, hr, hh]
    simp [h2, hz1, hz2, sub_eq_zero, eq_comm]
  all_goals
    push_cast [hX1, hX2, hY1, hY2]
    ring

end

/-! ### The dispatch -/

theorem jadd_of_inf_left {p a : Nat} {P : Jac} (h : P.isInf = true) (Q : Jac) : jadd p a P Q = Q := by
  rw [jadd, if_pos h]

theorem jadd_of_inf_right {p a : Nat} {P Q : Jac} (hP : P.isInf = false) (hQ : Q.isInf = true) : jadd p a P Q = P := by
  rw [jadd, hP, if_neg Bool.false_ne_true, if_pos hQ]

section
variable {p a : Nat} [Fact p.Prime] {P Q : Jac} {x1 y1 x2 y2 : ZMod p}

/-- A triple of a point with `y ≠ 0` is finite (R245). -/
theorem isInf_eq_false_of_represents (hP : Represents p P.x P.y P.z x1 y1) (hy : y1 ≠ 0) : P.isInf = false := by
  obtain ⟨hz, -, hY⟩ := hP
  have hY0 : ((P.y : Int) : ZMod p) ≠ 0 := hY ▸ mul_ne_zero hy (pow_ne_zero 3 hz)
  refine (isInf_eq_false_iff P).mpr ⟨fun h => hY0 ?_, fun h => hz ?_⟩
  · rw [h]; simp
  · rw [h]; simp

/-- `JAdd` of finite triples gives the sum, whichever formula computes it (R247). -/
theorem jadd_isSum (h2 : (2 : ZMod p) ≠ 0) (hP : Represents p P.x P.y P.z x1 y1) (hQ : Represents p Q.x Q.y Q.z x2 y2)
    (hy1 : y1 ≠ 0) (hy2 : y2 ≠ 0) : IsSum p a (jadd p a P Q) x1 y1 x2 y2 := by
  have hone {T : Jac} {x y : ZMod p} (hT : Represents p T.x T.y T.z x y) (h : T.z = 1) : Represents p T.x T.y 1 x y := by
    rwa [h] at hT
  rw [jadd, isInf_eq_false_of_represents hP hy1, isInf_eq_false_of_represents hQ hy2, if_neg Bool.false_ne_true,
    if_neg Bool.false_ne_true]
  split_ifs with hz h1 h1 h1'
  · exact mmadd_isSum h2 (hone hP h1) (hone hQ (hz ▸ h1)) hy1
  · exact zadd_isSum hP (hz ▸ hQ) hy1
  · exact madd_isSum h2 hQ (hone hP h1) hy1
  · exact (madd_isSum h2 hP (hone hQ h1') hy2).symm
  · exact addg_isSum h2 hP hQ hy1

end

end Sys2Proof.Machine
end

section
/-! PROOFS. The identity laws of the point operations, and their agreement with the affine reference (44_point_arith.md R240 to
R246, R254, R257, R262). -/

namespace Sys2Proof.Machine

/-! ### The identity laws, for every odd modulus (R257) -/

theorem canon_of_finite {T : Jac} (h : T.isInf = false) : T.canon = T := by
  rw [Jac.canon, h, if_neg Bool.false_ne_true]

@[simp] theorem canon_isInf (T : Jac) : T.canon.isInf = T.isInf := by
  cases h : T.isInf with
  | true =>
    rw [Jac.canon, if_pos h]
    rfl
  | false => rw [canon_of_finite h, h]

theorem jacEq_of_inf (p : Nat) {P Q : Jac} (hP : P.isInf = true) (hQ : Q.isInf = true) : jacEq p P Q = true := by
  simp [jacEq, hP, hQ]

/-- A triple's canonical form equals it under PEQ's test (R246, R262). -/
theorem jacEq_canon_self (p : Nat) (P : Jac) : jacEq p P.canon P = true := by
  cases h : P.isInf with
  | true => exact jacEq_of_inf p (by rw [canon_isInf, h]) h
  | false =>
    rw [canon_of_finite h]
    simp [jacEq, h, zmod]

section
variable {p a : Nat} {X Y Z Y' : Int}

/-- `MDBL` of a triple whose `Y²` vanishes mod `p` is infinite (R252). -/
theorem mdbl_of_sq_dvd (h : (p : Int) ∣ Y * Y) : mdbl p a X Y = ⟨0, 0, 1⟩ := by
  rw [mdbl, if_pos (Int.emod_eq_zero_of_dvd h)]

/-- `DBL` of a triple whose `Y²` vanishes mod `p` is infinite (R253). -/
theorem dbl_of_sq_dvd (h : (p : Int) ∣ Y * Y) : dbl p a X Y Z = ⟨0, 0, 1⟩ := by
  rw [dbl, mdbl_of_sq_dvd h]
  split_ifs with h1 h2
  · rfl
  · rfl
  · exact if_pos (Int.emod_eq_zero_of_dvd h)

theorem isCoprime_two_of_odd (hodd : p % 2 = 1) : IsCoprime (p : Int) 2 :=
  Nat.isCoprime_iff_coprime.mpr (Nat.coprime_two_right.mpr (Nat.odd_iff.mpr hodd))

/-- Where the sum of two ordinates vanishes, and the square of their difference too, so does the square of each. -/
theorem sq_dvd_of_opposite (hodd : p % 2 = 1) (hopp : (p : Int) ∣ Y + Y') (hsq : (p : Int) ∣ (Y' - Y) * (Y' - Y)) :
    (p : Int) ∣ Y * Y := by
  have h4 : 2 ^ 2 * (Y * Y) = (Y' - Y) * (Y' - Y) - (Y + Y') * (Y' - 3 * Y) := by ring
  have hdvd : (p : Int) ∣ 2 ^ 2 * (Y * Y) := h4 ▸ hsq.sub (hopp.mul_right _)
  exact (isCoprime_two_of_odd hodd).pow_right.dvd_of_dvd_mul_left hdvd

/-- `MMADD` of opposite points is infinite: `Z3 = 0`, or it doubles a point whose `Y²` vanishes (R248). -/
theorem mmadd_opposite_isInf (hodd : p % 2 = 1) (hopp : (p : Int) ∣ Y + Y') : (mmadd p a X Y X Y').isInf = true := by
  unfold mmadd
  dsimp only
  split_ifs with h
  · have hdiff := (isCoprime_two_of_odd hodd).dvd_of_dvd_mul_left (Int.dvd_of_emod_eq_zero h.2)
    rw [mdbl_of_sq_dvd (sq_dvd_of_opposite hodd hopp (hdiff.mul_right _))]
    rfl
  · simp [isInf_iff, zmod]

/-- `ZADD` of opposite points is infinite, likewise (R249). -/
theorem zadd_opposite_isInf (hodd : p % 2 = 1) (hopp : (p : Int) ∣ Y + Y') : (zadd p a X Y Z X Y').isInf = true := by
  unfold zadd
  dsimp only
  split_ifs with h
  · rw [dbl_of_sq_dvd (sq_dvd_of_opposite hodd hopp (Int.dvd_of_emod_eq_zero h.2))]
    rfl
  · simp [isInf_iff, zmod]

end

section
variable {p : Nat} (a : Nat)

/-- The double of an infinite triple is infinite. -/
theorem jdbl_of_inf {O : Jac} (h : O.isInf = true) : (jdbl p a O).isInf = true := by
  rw [isInf_iff] at h
  by_cases hy : O.y = 0
  · rw [jdbl, dbl_of_sq_dvd (by simp [hy])]
    rfl
  · have hz : O.z = 0 := h.resolve_left hy
    simp [jdbl, dbl, hz, isInf_iff]

theorem neg_isInf {P : Jac} (hy : P.y < p) : Jac.isInf ⟨P.x, (p - P.y) % p, P.z⟩ = P.isInf := by
  have hneg : (p - P.y) % p = 0 ↔ P.y = 0 := by
    by_cases h0 : P.y = 0
    · simp [h0]
    · rw [Nat.mod_eq_of_lt (by omega)]
      omega
  rw [Bool.eq_iff_iff, isInf_iff, isInf_iff, hneg]

/-- `P + (-P)` is infinite. -/
theorem jadd_neg_isInf (hodd : p % 2 = 1) {P : Jac} (hy : P.y < p) :
    (jadd p a P ⟨P.x, (p - P.y) % p, P.z⟩).isInf = true := by
  have hopp : (p : Int) ∣ (P.y : Int) + ((p - P.y) % p : Nat) := by
    rw [← Nat.cast_add, Int.natCast_dvd_natCast, Nat.dvd_iff_mod_eq_zero, Nat.add_mod_mod, Nat.add_sub_cancel' hy.le,
      Nat.mod_self]
  cases hP : P.isInf with
  | true => rw [jadd_of_inf_left hP, neg_isInf hy, hP]
  | false =>
    rw [jadd, neg_isInf hy, hP, if_neg Bool.false_ne_true, if_neg Bool.false_ne_true, if_pos rfl]
    split_ifs
    · exact mmadd_opposite_isInf hodd hopp
    · exact zadd_opposite_isInf hodd hopp

/-- An infinite triple is neutral on either side. -/
theorem jacEq_jadd_of_inf {P O : Jac} (hO : O.isInf = true) :
    jacEq p (jadd p a P O).canon P = true ∧ jacEq p (jadd p a O P).canon P = true := by
  rw [jadd_of_inf_left hO]
  refine ⟨?_, jacEq_canon_self p P⟩
  cases hP : P.isInf with
  | true =>
    rw [jadd_of_inf_left hP]
    exact jacEq_of_inf p (by rw [canon_isInf, hO]) hP
  | false =>
    rw [jadd_of_inf_right hP hO]
    exact jacEq_canon_self p P

end

/-! ### The affine group law's cases (R241, R242) -/

section
variable {p a x y x1 y1 x2 y2 iv : Nat}

theorem affDbl_of_ne (hy : y ≠ 0) (hinv : invMod (2 * y) p = some iv) :
    affDbl p a (.pt x y) = some (affLine p ((3 * x * x + a) * iv % p) x y x) := by
  rw [affDbl, if_neg hy, hinv]

theorem affAdd_of_opposite (h : (y1 + y2) % p = 0) : affAdd p a (.pt x y1) (.pt x y2) = some .identity := by
  rw [affAdd, if_pos ⟨rfl, h⟩]

theorem affAdd_self (h : (y + y) % p ≠ 0) : affAdd p a (.pt x y) (.pt x y) = affDbl p a (.pt x y) := by
  rw [affAdd, if_neg fun h' => h h'.2, if_pos ⟨rfl, rfl⟩]

theorem affAdd_of_ne (hx : x1 ≠ x2) (hinv : invMod (zmod ((x2 : Int) - x1) p) p = some iv) :
    affAdd p a (.pt x1 y1) (.pt x2 y2) = some (affLine p (zmod (((y2 : Int) - y1) * iv) p) x1 y1 x2) := by
  rw [affAdd, if_neg fun h => hx h.1, if_neg fun h => hx h.1, hinv]

end

/-! ### Agreement with the affine reference (R254) -/

/-- The canonical form of a triple stands for the triple's point. -/
theorem standsFor_canon {p : Nat} {T : Jac} {A : Aff} (h : StandsFor p T A) : StandsFor p T.canon A := by
  cases hinf : T.isInf with
  | false => rwa [canon_of_finite hinf]
  | true =>
    cases A with
    | identity => rwa [StandsFor, canon_isInf]
    | pt x y =>
      rw [StandsFor] at h ⊢
      split_ifs at h ⊢ with hy
      · rwa [canon_isInf]
      · exact absurd hinf (by simp [h.1])

section
variable {p a : Nat} [Fact p.Prime] {T : Jac}

theorem natCast_inj_of_lt {x y : Nat} (hx : x < p) (hy : y < p) : (x : ZMod p) = y ↔ x = y := by
  rw [ZMod.natCast_eq_natCast_iff', Nat.mod_eq_of_lt hx, Nat.mod_eq_of_lt hy]

theorem natCast_eq_zero_iff_of_lt {x : Nat} (hx : x < p) : (x : ZMod p) = 0 ↔ x = 0 := by
  simpa using natCast_inj_of_lt hx (NeZero.pos p)

/-- `InvMod` of a number that is not 0 mod a prime is its inverse (R140). -/
theorem invMod_of_cast_ne_zero {c : Nat} (hc : (c : ZMod p) ≠ 0) : ∃ iv, invMod c p = some iv ∧ (c : ZMod p) * iv = 1 := by
  have hp : p.Prime := Fact.out
  have hcop : Nat.Coprime c p := by
    rw [Nat.coprime_comm, hp.coprime_iff_not_dvd, ← ZMod.natCast_eq_zero_iff]
    exact hc
  obtain ⟨iv, hiv, -, hmul⟩ := invMod_of_coprime hp.pos hcop
  refine ⟨iv, hiv, ?_⟩
  exact_mod_cast (ZMod.natCast_eq_natCast_iff' (c * iv) 1 p).mpr hmul

/-- The coordinates by the inverse of `Z` are the residues that the triple represents over `Z/p` (R245). -/
theorem affineOf_eq_iff {x y zi : Nat} (hmul : (T.z : ZMod p) * zi = 1) :
    affineOf p T zi = (x, y) ↔
      x < p ∧ y < p ∧ (T.x : ZMod p) = x * (T.z : ZMod p) ^ 2 ∧ (T.y : ZMod p) = y * (T.z : ZMod p) ^ 3 := by
  have hp : 0 < p := NeZero.pos p
  rw [affineOf, Prod.mk.injEq]
  constructor
  · rintro ⟨rfl, rfl⟩
    refine ⟨Nat.mod_lt _ hp, Nat.mod_lt _ hp, ?_, ?_⟩
    · push_cast [ZMod.natCast_mod]
      linear_combination (-(T.x : ZMod p) * (T.z * zi + 1)) * hmul
    · push_cast [ZMod.natCast_mod]
      linear_combination (-(T.y : ZMod p) * ((T.z * zi) ^ 2 + T.z * zi + 1)) * hmul
  · rintro ⟨hx, hy, hX, hY⟩
    rw [← natCast_inj_of_lt (Nat.mod_lt _ hp) hx, ← natCast_inj_of_lt (Nat.mod_lt _ hp) hy]
    constructor
    · push_cast [ZMod.natCast_mod, hX]
      linear_combination (x : ZMod p) * (T.z * zi + 1) * hmul
    · push_cast [ZMod.natCast_mod, hY]
      linear_combination (y : ZMod p) * ((T.z * zi) ^ 2 + T.z * zi + 1) * hmul

/-- A reduced triple stands for a point with `y ≠ 0` exactly when it represents it over `Z/p`. -/
theorem standsFor_pt_iff {x y : Nat} (hT : T.reduced p) (hy : y ≠ 0) :
    StandsFor p T (.pt x y) ↔ x < p ∧ y < p ∧ Represents p T.x T.y T.z x y := by
  obtain ⟨-, -, hTz⟩ := hT
  rw [StandsFor, if_neg hy]
  constructor
  · rintro ⟨hfin, zi, hinv, haff⟩
    obtain ⟨-, hz0⟩ := (isInf_eq_false_iff T).mp hfin
    have hz : (T.z : ZMod p) ≠ 0 := mt (natCast_eq_zero_iff_of_lt hTz).mp hz0
    obtain ⟨iv, hiv, hmul⟩ := invMod_of_cast_ne_zero hz
    obtain rfl : iv = zi := Option.some.inj (hiv.symm.trans hinv)
    obtain ⟨hx, hy, hX, hY⟩ := (affineOf_eq_iff hmul).mp haff
    exact ⟨hx, hy, by exact_mod_cast hz, by exact_mod_cast hX, by exact_mod_cast hY⟩
  · rintro ⟨hx, hylt, hrep⟩
    have hfin := isInf_eq_false_of_represents hrep (mt (natCast_eq_zero_iff_of_lt hylt).mp hy)
    obtain ⟨hz, hX, hY⟩ := hrep
    push_cast at hz hX hY
    obtain ⟨zi, hinv, hmul⟩ := invMod_of_cast_ne_zero hz
    exact ⟨hfin, zi, hinv, (affineOf_eq_iff hmul).mpr ⟨hx, hylt, hX, hY⟩⟩

theorem represents_of_standsFor {x y : Nat} (hT : T.reduced p) (hne : ∀ x', Aff.pt x y ≠ .pt x' 0)
    (h : StandsFor p T (.pt x y)) :
    Aff.reduced p (.pt x y) ∧ Represents p T.x T.y T.z x y ∧ (y : ZMod p) ≠ 0 := by
  have hy : y ≠ 0 := by
    rintro rfl
    exact hne x rfl
  obtain ⟨hx, hylt, hrep⟩ := (standsFor_pt_iff hT hy).mp h
  exact ⟨⟨hx, hylt⟩, hrep, mt (natCast_eq_zero_iff_of_lt hylt).mp hy⟩

/-- The canonical form of a reduced triple that represents a point stands for that point, one with `y = 0` included. -/
theorem standsFor_canon_of_represents {x y : Nat} (hT : T.reduced p) (hx : x < p) (hy : y < p)
    (h : Represents p T.x T.y T.z x y) : StandsFor p T.canon (.pt x y) := by
  by_cases hy0 : y = 0
  · obtain ⟨-, hTy, -⟩ := hT
    obtain ⟨-, -, hY⟩ := h
    have hY0 : T.y = 0 := (natCast_eq_zero_iff_of_lt hTy).mp (by simpa [hy0] using hY)
    rw [StandsFor, if_pos hy0, canon_isInf, isInf_iff]
    exact .inl hY0
  · have hyc : (y : ZMod p) ≠ 0 := mt (natCast_eq_zero_iff_of_lt hy).mp hy0
    rw [canon_of_finite (isInf_eq_false_of_represents h hyc)]
    exact (standsFor_pt_iff hT hy0).mpr ⟨hx, hy, h⟩

/-- A triple from a line through two points stands for the point that the affine line of the same slope gives. -/
theorem OnLine.standsFor_affLine {d e : ZMod p} {lam x1 y1 x2 : Nat} (h : OnLine p T d e x1 y1 x2) (hT : T.reduced p)
    (hd : d ≠ 0) (hlam : (lam : ZMod p) * d = e) : StandsFor p T.canon (affLine p lam x1 y1 x2) := by
  obtain ⟨k, hk, hz, hx, hy⟩ := h
  subst hlam
  refine standsFor_canon_of_represents hT (zmod_lt _ (NeZero.pos p)) (zmod_lt _ (NeZero.pos p)) ⟨?_, ?_, ?_⟩
  · push_cast
    rw [hz]
    exact mul_ne_zero hk hd
  · push_cast
    rw [hx, hz]
    ring
  · push_cast
    rw [hy, hz]
    ring

/-- A triple from a line without a slope is infinite. -/
theorem OnLine.isInf_of_vertical {e x1 y1 x2 : ZMod p} (h : OnLine p T 0 e x1 y1 x2) (hT : T.reduced p) :
    T.isInf = true := by
  obtain ⟨k, -, hz, -, -⟩ := h
  rw [mul_zero, natCast_eq_zero_iff_of_lt hT.2.2] at hz
  exact (isInf_iff T).mpr (.inr hz)

/-- Points on a curve with one abscissa are equal or opposite (R224). -/
theorem eq_or_opposite_of_onCurve {b x y1 y2 : Nat} (h : onCurve x y1 p a b = true)
    (h' : onCurve x y2 p a b = true) :
    (y1 : ZMod p) = y2 ∨ (y1 + y2 : ZMod p) = 0 := by
  have hcurve {y : Nat} (hon : onCurve x y p a b = true) : (y : ZMod p) ^ 2 = x ^ 3 + a * x + b := by
    rw [onCurve_iff (NeZero.pos p), emod_eq_zero_iff_cast] at hon
    push_cast at hon
    exact sub_eq_zero.mp hon
  have hprod : ((y1 : ZMod p) - y2) * (y1 + y2) = 0 := by
    linear_combination hcurve h - hcurve h'
  exact (mul_eq_zero.mp hprod).imp_left sub_eq_zero.mp

variable (h2 : (2 : ZMod p) ≠ 0)
include h2

/-- A double over `Z/p` stands for `AffDbl` (R241). -/
theorem IsDouble.standsFor_affDbl {x y : Nat} (h : IsDouble p a T x y) (hT : T.reduced p) (hy : (y : ZMod p) ≠ 0) :
    ∃ R, affDbl p a (.pt x y) = some R ∧ StandsFor p T.canon R := by
  have hd : (2 * y : ZMod p) ≠ 0 := mul_ne_zero h2 hy
  have hy0 : y ≠ 0 := by
    rintro rfl
    simp at hy
  obtain ⟨iv, hinv, hmul⟩ := invMod_of_cast_ne_zero (c := 2 * y) (by exact_mod_cast hd)
  push_cast at hmul
  refine ⟨_, affDbl_of_ne hy0 hinv, OnLine.standsFor_affLine h hT hd ?_⟩
  push_cast [ZMod.natCast_mod]
  linear_combination (3 * (x : ZMod p) ^ 2 + a) * hmul

/-- A sum over `Z/p` of points on the curve stands for `AffAdd`: of opposite points the identity, of equal points the double, of
points with two abscissas the chord's (R242). -/
theorem IsSum.standsFor_affAdd {b x1 y1 x2 y2 : Nat} (h : IsSum p a T x1 y1 x2 y2) (hT : T.reduced p)
    (hP : Aff.reduced p (.pt x1 y1)) (hQ : Aff.reduced p (.pt x2 y2)) (hcP : onCurve x1 y1 p a b = true)
    (hcQ : onCurve x2 y2 p a b = true) (hy : (y1 : ZMod p) ≠ 0) :
    ∃ R, affAdd p a (.pt x1 y1) (.pt x2 y2) = some R ∧ StandsFor p T.canon R := by
  obtain ⟨hx1, hy1⟩ := hP
  obtain ⟨hx2, hy2⟩ := hQ
  have hmod : (y1 + y2) % p = 0 ↔ (y1 + y2 : ZMod p) = 0 := by
    rw [← Nat.dvd_iff_mod_eq_zero, ← ZMod.natCast_eq_zero_iff, Nat.cast_add]
  by_cases hx : x1 = x2
  · subst hx
    by_cases hopp : (y1 + y2 : ZMod p) = 0
    · have hne : ¬((x1 : ZMod p) = x1 ∧ (y1 : ZMod p) = y2) := fun ⟨_, he⟩ =>
        mul_ne_zero h2 hy (by linear_combination hopp + he)
      have hline := h.onLine hne
      rw [sub_self] at hline
      refine ⟨.identity, affAdd_of_opposite (hmod.mpr hopp), ?_⟩
      rw [StandsFor, canon_isInf]
      exact hline.isInf_of_vertical hT
    · have heq := (eq_or_opposite_of_onCurve hcP hcQ).resolve_right hopp
      obtain rfl : y1 = y2 := (natCast_inj_of_lt hy1 hy2).mp heq
      rw [affAdd_self (mt hmod.mp hopp)]
      exact (h.isDouble ⟨rfl, rfl⟩).standsFor_affDbl h2 hT hy
  · have hxne : (x1 : ZMod p) ≠ x2 := mt (natCast_inj_of_lt hx1 hx2).mp hx
    have hd : (x2 - x1 : ZMod p) ≠ 0 := sub_ne_zero.mpr hxne.symm
    have hcast : ((zmod ((x2 : Int) - x1) p : Nat) : ZMod p) = x2 - x1 := by simp
    obtain ⟨iv, hinv, hmul⟩ := invMod_of_cast_ne_zero (hcast ▸ hd)
    rw [hcast] at hmul
    refine ⟨_, affAdd_of_ne hx hinv, (h.onLine fun h' => hxne h'.1).standsFor_affLine hT hd ?_⟩
    push_cast
    linear_combination (y2 - y1 : ZMod p) * hmul

end

end Sys2Proof.Machine

namespace Sys2Proof

open Machine

theorem two_ne_zero_of_five_le {p : Nat} (h5 : 5 ≤ p) : (2 : ZMod p) ≠ 0 := by
  intro h
  have hdvd : p ∣ 2 := (ZMod.natCast_eq_zero_iff 2 p).mp (by exact_mod_cast h)
  have hle : p ≤ 2 := Nat.le_of_dvd two_pos hdvd
  omega

section
variable {p a b : Nat} [Fact p.Prime] (h5 : 5 ≤ p) {P Q : Jac} {A B : Aff} (hPr : P.reduced p)
  (hA0 : ∀ x, A ≠ .pt x 0) (hP : StandsFor p P A)
include h5 hPr hA0 hP

/-- `DBL` agrees with `AffDbl` (R254). -/
theorem standsFor_jdbl : ∃ R, affDbl p a A = some R ∧ StandsFor p (jdbl p a P).canon R := by
  cases A with
  | identity => exact ⟨.identity, rfl, standsFor_canon (jdbl_of_inf a hP)⟩
  | pt x y =>
    obtain ⟨-, hrep, hy⟩ := represents_of_standsFor hPr hA0 hP
    exact (dbl_isDouble hrep hy).standsFor_affDbl (two_ne_zero_of_five_le h5) (dbl_reduced (by omega) _ _ _ _) hy

/-- `JAdd` agrees with `AffAdd` (R254). -/
theorem standsFor_jadd (hQr : Q.reduced p) (hA : AffOnCurve p a b A) (hB : AffOnCurve p a b B) (hB0 : ∀ x, B ≠ .pt x 0)
    (hQ : StandsFor p Q B) : ∃ R, affAdd p a A B = some R ∧ StandsFor p (jadd p a P Q).canon R := by
  cases A with
  | identity =>
    rw [jadd_of_inf_left hP]
    exact ⟨B, rfl, standsFor_canon hQ⟩
  | pt x1 y1 =>
    obtain ⟨hAr, hPrep, hy1⟩ := represents_of_standsFor hPr hA0 hP
    cases B with
    | identity =>
      rw [jadd_of_inf_right (isInf_eq_false_of_represents hPrep hy1) hQ]
      exact ⟨.pt x1 y1, rfl, standsFor_canon hP⟩
    | pt x2 y2 =>
      obtain ⟨hBr, hQrep, hy2⟩ := represents_of_standsFor hQr hB0 hQ
      have h2 := two_ne_zero_of_five_le h5
      have hsum := jadd_isSum (a := a) h2 hPrep hQrep hy1 hy2
      exact hsum.standsFor_affAdd h2 (jadd_reduced (by omega) a hPr hQr) hAr hBr hA hB hy1

end

/-- Settles O51: the laws hold for any odd modulus; over a prime one every formula scales the affine tangent's or chord's
point. -/
theorem pointLawsAndAgreement : Obligations.PointLawsAndAgreement := by
  constructor
  · intro p a P O hodd h5 hPx hPy hPz hOx hOy hOz hO
    obtain ⟨hright, hleft⟩ := jacEq_jadd_of_inf (p := p) (P := P) a hO
    exact ⟨hright, hleft, jadd_neg_isInf a hodd hPy, jdbl_of_inf a hO⟩
  · intro p a b P Q A B hp h5 hPx hPy hPz hQx hQy hQz hA hB hA0 hB0 hP hQ
    have : Fact p.Prime := ⟨hp⟩
    exact ⟨standsFor_jadd h5 ⟨hPx, hPy, hPz⟩ hA0 hP ⟨hQx, hQy, hQz⟩ hA hB hB0 hQ,
      standsFor_jdbl h5 ⟨hPx, hPy, hPz⟩ hA0 hP⟩

end Sys2Proof
end

section
/-! PROOFS. The width-`w` NAF recoding stands for its scalar (45_scalar_mul.md R293). -/

namespace Sys2Proof.Machine

/-- The digit `d` taken off `k` leaves `k'`, for the window width `w` (R293): `k = d + 2k'`, and a nonzero digit is odd, below
`2^(w-1)` in size, and leaves an even `k'`, whose own first digit is then 0. -/
def NafStep (w k : Nat) (d : Int) (k' : Nat) : Prop :=
  (k : Int) = d + 2 * k' ∧ (d = 0 ∨ (d % 2 = 1 ∧ d.natAbs < 2 ^ (w - 1) ∧ k' % 2 = 0))

/-- Windows of two bits or more are a multiple of 4, and their half is even. -/
theorem exists_two_pow_eq_four_mul {w : Nat} (hw : 2 ≤ w) : ∃ m, 2 ^ (w - 1) = 2 * m ∧ 2 ^ w = 4 * m := by
  obtain ⟨v, rfl⟩ := Nat.exists_eq_add_of_le' hw
  exact ⟨2 ^ v, pow_succ' 2 v, by ring⟩

/-- A power of 2 that is at least `2^w·q + r`, with `r` past half of the window, is at least the next multiple of `2^w`. -/
theorem next_multiple_le_two_pow {w f q r : Nat} (hhigh : 2 ^ (w - 1) < r) (hle : 2 ^ w * q + r ≤ 2 ^ f) :
    2 ^ w * (q + 1) ≤ 2 ^ f := by
  have hpow : 2 ^ (w - 1) < 2 ^ f := by omega
  have hlt : w - 1 < f := (Nat.pow_lt_pow_iff_right one_lt_two).mp hpow
  obtain ⟨c, hc⟩ := Nat.pow_dvd_pow 2 (show w ≤ f by omega)
  rw [hc] at hle ⊢
  have hr : 0 < r := Nat.zero_lt_of_lt hhigh
  exact Nat.mul_le_mul_left _ (Nat.lt_of_mul_lt_mul_left (a := 2 ^ w) (by omega))

section
variable {w k : Nat} (hw : 2 ≤ w) (hodd : k % 2 = 1)
include hw hodd

/-- In the lower half of the window the digit is `k mod 2^w` itself. -/
theorem nafStep_low (hlow : k % 2 ^ w < 2 ^ (w - 1)) : NafStep w k (k % 2 ^ w : Nat) ((k - k % 2 ^ w) / 2) := by
  obtain ⟨m, -, hfull⟩ := exists_two_pow_eq_four_mul hw
  have hdiv : 4 * (m * (k / 2 ^ w)) + k % 2 ^ w = k := by rw [← mul_assoc, ← hfull, Nat.div_add_mod]
  exact ⟨by omega, .inr ⟨by omega, by omega, by omega⟩⟩

/-- In the upper half of the window the digit is negative, and `k` goes up to the next multiple of `2^w`. -/
theorem nafStep_high (hhigh : ¬k % 2 ^ w < 2 ^ (w - 1)) :
    NafStep w k ((k % 2 ^ w : Nat) - 2 ^ w) ((k + (2 ^ w - k % 2 ^ w)) / 2) ∧
      ∀ f, k ≤ 2 ^ f → 2 * ((k + (2 ^ w - k % 2 ^ w)) / 2) ≤ 2 ^ f := by
  obtain ⟨m, hhalf, hfull⟩ := exists_two_pow_eq_four_mul hw
  have hfullInt : (2 : Int) ^ w = 4 * m := by exact_mod_cast hfull
  have hdiv : 4 * (m * (k / 2 ^ w)) + k % 2 ^ w = k := by rw [← mul_assoc, ← hfull, Nat.div_add_mod]
  have hwin : k % 2 ^ w < 2 ^ w := Nat.mod_lt _ (Nat.two_pow_pos w)
  refine ⟨⟨by omega, .inr ⟨by omega, by omega, by omega⟩⟩, fun f hf => ?_⟩
  have hnext : 4 * (m * (k / 2 ^ w)) + 4 * m ≤ 2 ^ f := by
    rw [← mul_assoc, ← hfull, ← mul_add_one]
    exact next_multiple_le_two_pow (r := k % 2 ^ w) (by omega) (by rwa [Nat.div_add_mod])
  omega

end

@[simp] theorem nafDigits_zero (w f : Nat) : nafDigits w f 0 = [] := by cases f <;> rfl

/-- What a round of the recoding does to a nonzero scalar: one step, which keeps the scalar within the remaining fuel. -/
theorem nafDigits_succ {w k : Nat} (hw : 2 ≤ w) (hk : k ≠ 0) (f : Nat) :
    ∃ d k', nafDigits w (f + 1) k = d :: nafDigits w f k' ∧ NafStep w k d k' ∧ (k ≤ 2 ^ f → 2 * k' ≤ 2 ^ f) := by
  rw [nafDigits, if_neg hk]
  by_cases hodd : k % 2 = 1
  · rw [if_pos hodd]
    by_cases hlow : k % 2 ^ w < 2 ^ (w - 1)
    · rw [if_pos hlow]
      exact ⟨_, _, rfl, nafStep_low hw hodd hlow, by omega⟩
    · rw [if_neg hlow]
      obtain ⟨hstep, hfuel⟩ := nafStep_high hw hodd hlow
      exact ⟨_, _, rfl, hstep, hfuel f⟩
  · rw [if_neg hodd]
    exact ⟨_, _, rfl, ⟨by omega, .inl rfl⟩, by omega⟩

/-- An even scalar has no digit or the first digit 0. -/
theorem head?_nafDigits_of_even {w k : Nat} (heven : k % 2 = 0) (f : Nat) : ∀ d ∈ (nafDigits w f k).head?, d = 0 := by
  cases f with
  | zero => simp [nafDigits]
  | succ f => by_cases hk : k = 0 <;> simp [nafDigits, hk, heven]

section
variable {w : Nat} (hw : 2 ≤ w)
include hw

/-- The digits stand for the scalar, once the fuel is one more than the scalar's length. -/
theorem digitsValue_nafDigits (f k : Nat) (hf : 2 * k ≤ 2 ^ f) : digitsValue (nafDigits w f k) = k := by
  induction f generalizing k with
  | zero =>
    obtain rfl : k = 0 := by omega
    rfl
  | succ f ih =>
    by_cases hk : k = 0
    · simp [hk, digitsValue]
    · obtain ⟨d, k', hdigits, ⟨hvalue, -⟩, hfuel⟩ := nafDigits_succ hw hk f
      rw [hdigits, digitsValue, ih k' (hfuel (by omega)), hvalue]

theorem odd_of_mem_nafDigits (f k : Nat) : ∀ d ∈ nafDigits w f k, d = 0 ∨ (d % 2 = 1 ∧ d.natAbs < 2 ^ (w - 1)) := by
  induction f generalizing k with
  | zero => simp [nafDigits]
  | succ f ih =>
    by_cases hk : k = 0
    · simp [hk]
    · obtain ⟨d, k', hdigits, ⟨-, hd⟩, -⟩ := nafDigits_succ hw hk f
      rw [hdigits, List.forall_mem_cons]
      exact ⟨hd.imp_right fun ⟨hodd, hsize, _⟩ => ⟨hodd, hsize⟩, ih k'⟩

/-- No two nonzero digits are neighbours: a nonzero digit leaves an even scalar. -/
theorem isChain_nafDigits (f k : Nat) : (nafDigits w f k).IsChain fun d e => d = 0 ∨ e = 0 := by
  induction f generalizing k with
  | zero => exact .nil
  | succ f ih =>
    by_cases hk : k = 0
    · simp [hk]
    · obtain ⟨d, k', hdigits, ⟨-, hd⟩, -⟩ := nafDigits_succ hw hk f
      rw [hdigits, List.isChain_cons]
      refine ⟨fun e he => ?_, ih k'⟩
      rcases hd with rfl | ⟨-, -, heven⟩
      · exact .inl rfl
      · exact .inr (head?_nafDigits_of_even heven f e he)

end

end Sys2Proof.Machine

namespace Sys2Proof

open Machine

/-- Settles O57: by induction on the recoding's rounds; R293's `bitlen(k) + 1` rounds are enough for the value. -/
theorem nafRecodesScalar : Obligations.NafRecodesScalar := by
  intro w k hw _
  refine ⟨digitsValue_nafDigits hw _ k ?_, odd_of_mem_nafDigits hw _ k, fun j d e hd he => ?_⟩
  · have := lt_two_pow_bitlen k
    rw [pow_succ]
    omega
  · obtain ⟨hj, rfl⟩ := List.getElem?_eq_some_iff.mp hd
    obtain ⟨hj', rfl⟩ := List.getElem?_eq_some_iff.mp he
    exact (isChain_nafDigits hw _ k).getElem j hj'

end Sys2Proof
end

section
/-! PROOFS. The scalar multiplication commands (45_scalar_mul.md R290 to R292, R295, R296): what SMUL, SMUL.O and SMULG
write. -/

namespace Sys2Proof.Machine

section
variable {s : State} {d k : Nat} {P : Aff}

theorem scalarMul_of_none (h : affMul s.curve.p s.curve.a k P = none) : s.scalarMul d k P = none := by
  rw [State.scalarMul, h]

/-- Where `AffMul` has a value the scalar multiplication answers a reduced point: that value, and no draw, for a point of odd
order (R243, R295). -/
theorem scalarMul_of_some {R : Aff} (hp : 0 < s.curve.p) (hP : P.reduced s.curve.p)
    (h : affMul s.curve.p s.curve.a k P = some R) :
    ∃ r, s.scalarMul d k P = some r ∧ r.1.reduced s.curve.p ∧
      (OddOrder s.curve.p s.curve.a P ∨ orderOpen s.curve.p s.curve.a s.curve.n P = false → r = (R, d)) := by
  rw [← orderOpen_eq_false_iff s.curve.n hp hP, or_self]
  cases ho : orderOpen s.curve.p s.curve.a s.curve.n P with
  | false => exact ⟨_, scalarMul_closed h ho, affMul_reduced hp hP h, fun _ => rfl⟩
  | true => exact ⟨_, by rw [State.scalarMul, h, ho]; rfl, drawnPoint_reduced hp _ _ _, nofun⟩

end

end Sys2Proof.Machine

namespace Sys2Proof

open Machine

/-- A ready point-writing command of the curve has a modulus above 1 that fits a register and a destination span that fits
(R106, R222). -/
theorem pointDest_bounds {s : State} {i : Instr} {rd : Reg} (hI : Inv s) (hR : Ready s i) (hctx : contextOf i = .curve)
    (hdest : (rd, 3) ∈ i.spans) : 1 < s.curve.p ∧ s.curve.p ≤ 2 ^ s.params.width ∧ rd.val + 2 < 32 := by
  obtain ⟨hw, hvalid, -⟩ := hR
  rw [hctx] at hvalid
  obtain ⟨hp, hW⟩ := curve_modulus_bounds hI hvalid
  have hspan := span_le_of_wf hw hdest
  exact ⟨hp, hW.le, by omega⟩

/-- A ready command whose rule writes a scalar multiplication's point leaves that point's canonical triple in the destination,
`AffMul`'s for a point of odd order (R243, R246, R295). -/
theorem exec_of_scalarMul {s : State} {i : Instr} {rd : Reg} {k : Nat} {P R : Aff} (hR : Ready s i)
    (hrule : ∀ r, s.scalarMul 0 k P = some r → ruleOf i s = .ok (scalarWrites rd r)) (hp : 1 < s.curve.p)
    (hW : s.curve.p ≤ 2 ^ s.params.width) (hspan : rd.val + 2 < 32) (hP : P.reduced s.curve.p)
    (hmul : affMul s.curve.p s.curve.a k P = some R) :
    ∃ t R', exec i s = .next t ∧ HoldsPoint t rd R'.triple.canon ∧
      t = { s with v := t.v, status := { doneStatus s with inf := R'.triple.isInf }, draws := t.draws } ∧
      (∀ r : Reg, r ∉ spanRegs rd 3 → t.v[r] = s.v[r]) ∧
      (OddOrder s.curve.p s.curve.a P ∨ orderOpen s.curve.p s.curve.a s.curve.n P = false →
        R' = R ∧ t.draws = s.draws) := by
  have hp0 : 0 < s.curve.p := Nat.zero_lt_of_lt hp
  obtain ⟨⟨R', n⟩, hr, hred, hsettled⟩ := scalarMul_of_some (d := 0) hp0 hP hmul
  obtain ⟨hstate, hframe, -, hholds⟩ := commit_point (k := n) hspan hp0 hW (triple_reduced hp hred)
  refine ⟨_, R', exec_of_ok hR (hrule _ hr), hholds, hstate, hframe, fun hodd => ?_⟩
  obtain ⟨rfl, rfl⟩ := Prod.mk.inj (hsettled hodd)
  exact ⟨rfl, rfl⟩

/-! ### SMUL and SMUL.O -/

/-- SMUL.O where `order` holds, else SMUL (R290). -/
def smulForm (order : Bool) (rd a b : Reg) : Instr := if order then .smulO rd a b else .smul rd a b

/-- The scalar of the form: reduced mod `2·C.N` for SMUL.O (R291). -/
def smulScalar (order : Bool) (s : State) (b : Reg) : Nat := if order then s.reg b % (2 * s.curve.n) else s.reg b

section
variable {s : State} {o : Bool} {rd a b : Reg}

theorem ruleOf_smulForm : ruleOf (smulForm o rd a b) = smulRule o rd a b := by cases o <;> rfl

theorem contextOf_smulForm : contextOf (smulForm o rd a b) = .curve := by cases o <;> rfl

theorem dest_mem_spans_smulForm : (rd, 3) ∈ (smulForm o rd a b).spans := by cases o <;> simp [smulForm, Instr.spans]

theorem smulRule_of_inf (hinf : (s.point a).isInf = true) : smulRule o rd a b s = .ok (pointWrites rd ⟨0, 0, 0⟩) := by
  rw [smulRule, if_pos hinf]

theorem smulRule_of_no_inverse (hfin : (s.point a).isInf = false) (hinv : invMod (s.point a).z s.curve.p = none) :
    smulRule o rd a b s = .error .notInvertible 0 := by
  simp [smulRule, hfin, hinv, CmdResult.raise]

section
variable {zi x y : Nat} (hfin : (s.point a).isInf = false) (hinv : invMod (s.point a).z s.curve.p = some zi)
  (hxy : (x, y) = affineOf s.curve.p (s.point a) zi)
include hfin hinv hxy

theorem smulRule_of_off_curve (hoff : onCurve x y s.curve.p s.curve.a s.curve.b = false) :
    smulRule o rd a b s = .error .malformedPoint 0 := by
  simp [smulRule, hfin, hinv, ← hxy, hoff, CmdResult.raise]

theorem smulRule_of_scalarMul_some (hon : onCurve x y s.curve.p s.curve.a s.curve.b = true) {r : Aff × Nat}
    (hr : s.scalarMul 0 (smulScalar o s b) (.pt x y) = some r) :
    smulRule o rd a b s = .ok (scalarWrites rd r) := by
  rw [smulScalar] at hr
  simp [smulRule, hfin, hinv, ← hxy, hon, hr]

theorem smulRule_of_scalarMul_none (hon : onCurve x y s.curve.p s.curve.a s.curve.b = true)
    (hr : s.scalarMul 0 (smulScalar o s b) (.pt x y) = none) :
    smulRule o rd a b s =
      s.openOutcome 0 [.noContext, .notInvertible, .malformedPoint] (spanRegs rd 3) true false := by
  rw [smulScalar] at hr
  simp [smulRule, hfin, hinv, ← hxy, hon, hr]

end

end

/-- Settles O54: the rule's checks in their order, then the scalar multiplication, for both forms at once. -/
theorem smulResult : Obligations.SmulResult := by
  rintro s o rd a b i P k hI hi rfl hk hR
  obtain rfl : i = smulForm o rd a b := hi
  obtain rfl : k = smulScalar o s b := hk
  obtain ⟨hp, hW, hspan⟩ := pointDest_bounds hI hR contextOf_smulForm dest_mem_spans_smulForm
  have hp0 : 0 < s.curve.p := Nat.zero_lt_of_lt hp
  have hrule : ruleOf (smulForm o rd a b) s = smulRule o rd a b s := congrFun ruleOf_smulForm s
  refine ⟨fun hinf => ?_, fun hfin hinv => ?_, fun zi x y hfin hinv hxy => ⟨fun hoff => ?_, fun R hon hmul => ?_,
    fun hon hmul => ?_⟩⟩
  · exact exec_of_pointWrites hR (hrule.trans (smulRule_of_inf hinf)) hspan hp0 hW ⟨hp0, hp0, hp0⟩
  · exact exec_of_error hR (hrule.trans (smulRule_of_no_inverse hfin hinv))
  · exact exec_of_error hR (hrule.trans (smulRule_of_off_curve hfin hinv hxy hoff))
  · obtain ⟨rfl, rfl⟩ := Prod.mk.inj hxy
    exact exec_of_scalarMul hR (fun r hr => hrule.trans (smulRule_of_scalarMul_some hfin hinv rfl hon hr)) hp hW hspan
      ⟨Nat.mod_lt _ hp0, Nat.mod_lt _ hp0⟩ hmul
  · exact exec_of_openOutcome hR (by decide)
      (hrule.trans (smulRule_of_scalarMul_none hfin hinv hxy hon (scalarMul_of_none hmul)))

/-! ### SMULG -/

section
variable {s : State} {rd b : Reg}

theorem ruleOf_smulg_of_some {r : Aff × Nat}
    (hr : s.scalarMul 0 (s.reg b % (2 * s.curve.n)) (.pt s.curve.gx s.curve.gy) = some r) :
    ruleOf (.smulg rd b) s = .ok (scalarWrites rd r) := by
  rw [ruleOf, ruleSmulg, State.generator, hr]

theorem ruleOf_smulg_of_none (hr : s.scalarMul 0 (s.reg b % (2 * s.curve.n)) (.pt s.curve.gx s.curve.gy) = none) :
    ruleOf (.smulg rd b) s = s.openOutcome 0 [.noContext] (spanRegs rd 3) true false := by
  rw [ruleOf, ruleSmulg, State.generator, hr]

/-- The checks of CURVE leave a generator of residues (R222). -/
theorem generator_reduced (hI : Inv s) (hR : Ready s (.smulg rd b)) :
    (Aff.pt s.curve.gx s.curve.gy).reduced s.curve.p := by
  obtain ⟨-, hvalid, -⟩ := hR
  obtain ⟨-, -, -, -, -, -, -, hcurve⟩ := hI
  obtain ⟨-, -, -, -, -, -, hx, hy, -⟩ := hcurve hvalid
  exact ⟨hx, hy⟩

end

/-- Settles O55: SMULG is the scalar multiplication of the loaded generator, with no check of its own. -/
theorem smulgResult : Obligations.SmulgResult := by
  rintro s rd b k R hI hR rfl
  obtain ⟨hp, hW, hspan⟩ := pointDest_bounds (rd := rd) hI hR rfl (by simp [Instr.spans])
  refine ⟨fun hmul => ?_, fun hmul => ?_⟩
  · exact exec_of_scalarMul hR (fun _ => ruleOf_smulg_of_some) hp hW hspan (generator_reduced hI hR) hmul
  · exact exec_of_openOutcome hR (by decide) (ruleOf_smulg_of_none (scalarMul_of_none hmul))

end Sys2Proof
end

section
/-! PROOFS. ECDSA (46_ecdsa.md R320 to R323, R326 to R331): which blinded nonce is scanned, what ESIGN writes, EVERIFY's
verdict. -/

namespace Sys2Proof.Machine

/-! ### The blinded nonce (R321) -/

theorem bitlen_mono {m n : Nat} (h : m ≤ n) : bitlen m ≤ bitlen n :=
  (bitlen_le_iff m _).mpr (h.trans_lt (lt_two_pow_bitlen n))

/-- Adding a residue to `n` keeps the bit length exactly while the sum stays below `2^bitlen(n)`. -/
theorem bitlen_add_eq_iff (r n : Nat) : bitlen (r + n) = bitlen n ↔ r + n < 2 ^ bitlen n := by
  rw [← bitlen_le_iff]
  exact ⟨Eq.le, fun h => h.antisymm (bitlen_mono (Nat.le_add_left n r))⟩

theorem two_pow_bitlen_le_two_mul {n : Nat} (hn : n ≠ 0) : 2 ^ bitlen n ≤ 2 * n := by
  rw [← mul_pow_sub_one (bitlen_pos hn).ne']
  exact Nat.mul_le_mul_left 2 (two_pow_le_of_bitlen hn)

theorem blind_of_lt {k n : Nat} (h : k % n + n < 2 ^ bitlen n) : blind k n = k % n + n :=
  if_pos ((bitlen_add_eq_iff _ n).mpr h)

theorem blind_of_le {k n : Nat} (h : 2 ^ bitlen n ≤ k % n + n) : blind k n = k % n + 2 * n := by
  rw [blind, if_neg (mt (bitlen_add_eq_iff _ n).mp h.not_gt), add_assoc, ← two_mul]

/-- Modulo `2n` the blinded nonce is one of the two scalars that stand for `k mod n`. -/
theorem blind_mod {n : Nat} (hn : 0 < n) (k : Nat) :
    blind k n % (2 * n) = k % n + n ∨ blind k n % (2 * n) = k % n := by
  have hk : k % n < n := Nat.mod_lt k hn
  rcases Nat.lt_or_ge (k % n + n) (2 ^ bitlen n) with h | h
  · exact .inl (by rw [blind_of_lt h, Nat.mod_eq_of_lt (by omega)])
  · exact .inr (by rw [blind_of_le h, Nat.add_mod_right, Nat.mod_eq_of_lt (by omega)])

/-! ### The scalar multiplications -/

/-- CURVE's checks leave a generator of residues and an order of at least 2 that fits a register (R222). -/
theorem generator_reduced_and_order_bounds {s : State} (hI : Inv s) (hv : s.status.curvev = true) :
    s.generator.reduced s.curve.p ∧ 2 ≤ s.curve.n ∧ s.curve.n < 2 ^ s.params.width := by
  obtain ⟨-, -, -, -, -, -, -, hcurve⟩ := hI
  obtain ⟨-, -, -, -, -, -, hx, hy, -, -, hn, hnW, -⟩ := hcurve hv
  exact ⟨⟨hx, hy⟩, hn, hnW⟩

/-- A scalar multiplication of a point of odd order is `AffMul`, by either test for the order (R243, R295). -/
theorem scalarMul_of_settled {s : State} {d k : Nat} {P R : Aff} (hred : Inv s → 0 < s.curve.p ∧ P.reduced s.curve.p)
    (hmul : affMul s.curve.p s.curve.a k P = some R)
    (hodd : (Inv s ∧ OddOrder s.curve.p s.curve.a P) ∨ orderOpen s.curve.p s.curve.a s.curve.n P = false) :
    s.scalarMul d k P = some (R, d) := by
  refine scalarMul_closed hmul (hodd.elim (fun ⟨hI, ho⟩ => ?_) id)
  obtain ⟨hp, hP⟩ := hred hI
  exact (orderOpen_eq_false_iff s.curve.n hp hP).mpr ho

/-! ### ESIGN's rule (R320) -/

section
variable (rd : Reg) {priv e k n x d : Nat}

theorem signWith_of_r_zero (hr : x % n = 0) : signWith rd priv e k n x d = .error .degenerateSignature d := by
  rw [signWith, if_pos hr]

theorem signWith_of_no_inverse (hr : x % n ≠ 0) (hk : invMod (k % n) n = none) :
    signWith rd priv e k n x d = .error .notInvertible d := by
  rw [signWith, if_neg hr, hk]

section
variable {ki : Nat} (hr : x % n ≠ 0) (hk : invMod (k % n) n = some ki)
include hr hk

theorem signWith_of_s_zero (hs : ki * (e + priv * (x % n)) % n = 0) :
    signWith rd priv e k n x d = .error .degenerateSignature d := by
  simp only [signWith, if_neg hr, hk, if_pos hs]

theorem signWith_of_s_ne_zero (hs : ki * (e + priv * (x % n)) % n ≠ 0) :
    signWith rd priv e k n x d =
      .ok { regs := [(rd, x % n), (spanReg rd 1, ki * (e + priv * (x % n)) % n)], draws := d } := by
  simp only [signWith, if_neg hr, hk, if_neg hs]

end

end

section
variable {s : State} {rd d e k : Reg} {m : Nat}

theorem ruleOf_esign_of_identity
    (h : s.scalarMul 0 (blind (s.reg k) s.curve.n % (2 * s.curve.n)) s.generator = some (.identity, m)) :
    ruleOf (.esign rd d e k) s = .error .degenerateSignature m := by
  rw [ruleOf, ruleEsign, h]

theorem ruleOf_esign_of_pt {x y : Nat}
    (h : s.scalarMul 0 (blind (s.reg k) s.curve.n % (2 * s.curve.n)) s.generator = some (.pt x y, m)) :
    ruleOf (.esign rd d e k) s = signWith rd (s.reg d) (s.reg e % s.curve.n) (s.reg k) s.curve.n x m := by
  rw [ruleOf, ruleEsign, h]

end

/-! ### EVERIFY's rule (R326) -/

/-- The verdict (R331). -/
theorem acceptsPoint_iff {n r : Nat} {R : Aff} :
    acceptsPoint n r R = true ↔ ∃ x y, R = .pt x y ∧ x % n = r := by
  cases R <;> simp [acceptsPoint]

theorem verifySum_of_some {s : State} {u1 u2 r d d' : Nat} {Q A B R : Aff}
    (hA : s.scalarMul 0 u1 s.generator = some (A, d)) (hB : s.scalarMul d u2 Q = some (B, d'))
    (hR : affAdd s.curve.p s.curve.a A B = some R) :
    verifySum s u1 u2 r Q = .ok { valid := some (acceptsPoint s.curve.n r R), draws := d' } := by
  simp only [verifySum, hA, hB, hR]

section
variable {s : State} {Q : Jac} {e r sig : Nat}

theorem verifyInRange_of_inf (hinf : Q.isInf = true) : verifyInRange s Q e r sig = .error .malformedPoint 0 := by
  rw [verifyInRange, if_pos hinf, CmdResult.raise]

theorem verifyInRange_of_no_inverse (hfin : Q.isInf = false) (hz : invMod Q.z s.curve.p = none) :
    verifyInRange s Q e r sig = .error .notInvertible 0 := by
  simp [verifyInRange, hfin, hz, CmdResult.raise]

section
variable {zi x y : Nat} (hfin : Q.isInf = false) (hz : invMod Q.z s.curve.p = some zi)
  (hxy : (x, y) = affineOf s.curve.p Q zi)
include hfin hz hxy

theorem verifyInRange_of_off_curve (hoff : onCurve x y s.curve.p s.curve.a s.curve.b = false) :
    verifyInRange s Q e r sig = .error .malformedPoint 0 := by
  simp [verifyInRange, hfin, hz, ← hxy, hoff, CmdResult.raise]

section
variable (hon : onCurve x y s.curve.p s.curve.a s.curve.b = true)
include hon

theorem verifyInRange_of_sig_no_inverse (hsig : invMod sig s.curve.n = none) :
    verifyInRange s Q e r sig = .ok { valid := some false } := by
  simp [verifyInRange, hfin, hz, ← hxy, hon, hsig]

theorem verifyInRange_of_sig_inverse {c : Nat} (hsig : invMod sig s.curve.n = some c) :
    verifyInRange s Q e r sig = verifySum s (e * c % s.curve.n) (r * c % s.curve.n) r (.pt x y) := by
  simp [verifyInRange, hfin, hz, ← hxy, hon, hsig]

end

end

end

section
variable {s : State} {a e rs : Reg}

theorem ruleOf_everify_of_out_of_range
    (h : ¬(1 ≤ s.reg rs ∧ s.reg rs < s.curve.n ∧ 1 ≤ s.reg (spanReg rs 1) ∧ s.reg (spanReg rs 1) < s.curve.n)) :
    ruleOf (.everify a e rs) s = .ok { valid := some false, vrange := some true } := by
  rw [ruleOf, ruleEverify, if_neg h]

theorem ruleOf_everify_of_in_range
    (h : 1 ≤ s.reg rs ∧ s.reg rs < s.curve.n ∧ 1 ≤ s.reg (spanReg rs 1) ∧ s.reg (spanReg rs 1) < s.curve.n) :
    ruleOf (.everify a e rs) s =
      verifyInRange s (s.point a) (s.reg e % s.curve.n) (s.reg rs) (s.reg (spanReg rs 1)) := by
  rw [ruleOf, ruleEverify, if_pos h]

end

end Sys2Proof.Machine

namespace Sys2Proof

open Machine

/-- Settles O60: `k mod n + n` has the length of `n` exactly below `2^bitlen(n)`, and `2^bitlen(n) ≤ 2n`. -/
theorem blindSelection : Obligations.BlindSelection := by
  intro k n hn
  refine ⟨fun h => ⟨blind_of_lt h, ?_⟩, fun h => ⟨blind_of_le h, mt (bitlen_add_eq_iff _ n).mp h.not_gt⟩, ?_,
    blind_mod hn k⟩
  · rw [blind_of_lt h, bitlen_add_eq_iff]
    exact h
  · rw [← not_le, bitlen_le_iff, not_lt]
    exact (two_pow_bitlen_le_two_mul hn.ne').trans (Nat.le_add_left _ _)

/-- Settles O58: a generator of odd order gives `AffMul`'s point with no draw; then the rule's tests in their order. -/
theorem esignResult : Obligations.EsignResult := by
  rintro s rd d e k n kc R hI hR rfl rfl hmul hodd
  have ⟨hw, hvalid, _⟩ := hR
  obtain ⟨hgen, hn, hnW⟩ := generator_reduced_and_order_bounds hI hvalid
  have hp : 0 < s.curve.p := Nat.zero_lt_of_lt (curve_modulus_bounds hI hvalid).1
  have hspan := span_le_of_wf hw (r := rd) (n := 2) (by simp [Instr.spans])
  have hlt (z : Nat) : z % s.curve.n < s.curve.n := Nat.mod_lt z (by omega)
  have hs := scalarMul_of_settled (d := 0) (P := s.generator) (fun _ => ⟨hp, hgen⟩) hmul
    (hodd.imp_left (⟨hI, ·⟩))
  refine ⟨?_, ?_, ?_, ?_⟩
  · rintro rfl
    exact exec_of_error hR (ruleOf_esign_of_identity hs)
  · rintro x y rfl hr
    exact exec_of_error hR ((ruleOf_esign_of_pt hs).trans (signWith_of_r_zero rd hr))
  · rintro x y rfl hr hk
    exact exec_of_error hR ((ruleOf_esign_of_pt hs).trans (signWith_of_no_inverse rd hr hk))
  · rintro x y ki rfl hr hk
    refine ⟨fun h0 => exec_of_error hR ((ruleOf_esign_of_pt hs).trans (signWith_of_s_zero rd hr hk h0)), fun h0 => ?_⟩
    obtain ⟨honly, hr', hs'⟩ := commit_two (s := s) (rd := rd) (by omega) ((hlt x).trans hnW)
      ((hlt (ki * (s.reg e % s.curve.n + s.reg d * (x % s.curve.n)))).trans hnW)
    refine ⟨_, exec_of_ok hR ((ruleOf_esign_of_pt hs).trans (signWith_of_s_ne_zero rd hr hk h0)), honly, hr', hs', ?_⟩
    rw [hr', hs']
    exact ⟨Nat.pos_of_ne_zero hr, hlt _, Nat.pos_of_ne_zero h0, hlt _⟩

/-- Settles O59: the range test, then the rule's checks in their order; where `G` and `Q` have odd order both scalar
multiplications are `AffMul`'s, with no draw. -/
theorem everifyResult : Obligations.EverifyResult := by
  rintro s a e rs i Q r sg p n hR rfl rfl rfl rfl rfl rfl
  have ⟨_, hvalid, _⟩ := hR
  refine ⟨fun h => exec_of_ok hR (ruleOf_everify_of_out_of_range h), fun h1 h2 h3 h4 => ?_⟩
  have hrule := ruleOf_everify_of_in_range (a := a) (e := e) ⟨h1, h2, h3, h4⟩
  refine ⟨fun hinf => exec_of_error hR (hrule.trans (verifyInRange_of_inf hinf)),
    fun hfin hz => exec_of_error hR (hrule.trans (verifyInRange_of_no_inverse hfin hz)), fun zi x y hfin hz hxy => ?_⟩
  refine ⟨fun hoff => exec_of_error hR (hrule.trans (verifyInRange_of_off_curve hfin hz hxy hoff)),
    fun hon hsig => exec_of_ok hR (hrule.trans (verifyInRange_of_sig_no_inverse hfin hz hxy hon hsig)), ?_⟩
  intro c A B R hon hsig hA hB hsum hG hQ
  have hp (hI : Inv s) : 0 < s.curve.p := Nat.zero_lt_of_lt (curve_modulus_bounds hI hvalid).1
  have hkey (hI : Inv s) : (Aff.pt x y).reduced s.curve.p := by
    obtain ⟨rfl, rfl⟩ := Prod.mk.inj hxy
    exact ⟨Nat.mod_lt _ (hp hI), Nat.mod_lt _ (hp hI)⟩
  have hA' := scalarMul_of_settled (d := 0) (P := s.generator)
    (fun hI => ⟨hp hI, (generator_reduced_and_order_bounds hI hvalid).1⟩) hA hG
  have hB' := scalarMul_of_settled (d := 0) (fun hI => ⟨hp hI, hkey hI⟩) hB hQ
  exact ⟨_, exec_of_ok hR (hrule.trans ((verifyInRange_of_sig_inverse hfin hz hxy hon hsig).trans
    (verifySum_of_some hA' hB' hsum))), acceptsPoint_iff⟩

end Sys2Proof
end

section
/-! PROOFS. How a command ends, the interrupt it raises and the latency it ends after (60_exceptions.md R350 to R352, R360;
70_reset_and_hazards.md R412), and the two resets (70_reset_and_hazards.md R390, R391). -/

namespace Sys2Proof.Machine

/-! ### Completion -/

/-- The codes that an error places in ECODE (R352). -/
theorem errorCode_code_mem (e : ErrorCode) : e.code ∈ [(1 : BitVec 4), 2, 4, 5, 8, 9, 10] := by
  cases e <;> decide

/-- A completed command has cleared BUSY and set DONE, with success or with an error (R113, R350, R351). -/
theorem exec_next_status {i : Instr} {s t : State} (h : exec i s = .next t) :
    t.status.busy = false ∧ t.status.done = true ∧
      ((t.status.err = s.status.err ∧ t.status.ecode = s.status.ecode) ∨
        (t.status.err = true ∧ t.status.ecode ∈ [(1 : BitVec 4), 2, 4, 5, 8, 9, 10])) := by
  rcases exec_next_cases h with ⟨e, k, rfl⟩ | ⟨w, -, -, rfl⟩
  · exact ⟨rfl, rfl, .inr ⟨rfl, errorCode_code_mem e⟩⟩
  · exact ⟨rfl, rfl, .inl ⟨rfl, rfl⟩⟩

/-- A completed command has set DONE and left IE, so it raises the interrupt exactly when IE = 1 (R360). -/
theorem irq_of_exec_next {i : Instr} {s t : State} (h : exec i s = .next t) : t.irq = s.ctrl.ie := by
  rcases exec_next_cases h with ⟨e, k, rfl⟩ | ⟨w, -, -, rfl⟩ <;> simp [State.irq]

/-- A STATUS write with bit 1 = 1 clears DONE, so it lowers the interrupt (R39, R360). -/
theorem irq_of_done_clear (s : State) {w : Word} (h : w.getLsbD 1 = true) :
    State.irq { s with status := s.status.hostWrite w } = false := by
  simp [State.irq, h]

/-! ### The core's step after the latency -/

/-- The core's step ends the command in flight, unless that is a command that reads an unwritten word (R109, R113). -/
theorem coreStep_completes_iff {s : State} (hb : s.status.busy = true) :
    (∃ t, s.coreStep = .next t ∧ t.status.busy = false ∧ t.status.done = true) ↔
      ∀ i, decode s.cmd = .ok i → s.readsUnwritten i = false := by
  cases hd : decode s.cmd with
  | error e =>
    have hraise := coreStep_illegal hb hd
    simp [hraise]
  | ok i =>
    rw [coreStep_legal hb hd]
    cases hu : s.readsUnwritten i with
    | true => simp [exec_stops hu, hu]
    | false =>
      obtain ⟨t, ht⟩ := exec_completes hu
      obtain ⟨hbusy, hdone, -⟩ := exec_next_status ht
      simp [ht, hbusy, hdone, hu]

/-- A host whose program has ended does nothing in its step (log 3). -/
theorem hostStep_of_ended {s : State} (h : s.host.prog.length ≤ s.host.pc) : s.hostStep = .next s := by
  rw [State.hostStep, List.getElem?_eq_none h]

/-- The host's turn (R4). -/
theorem step_of_host {s : State} (h : s.nextTurn = .host) : step s = s.popTurn.hostStep := by
  rw [step_eq, h]
  rfl

/-- A run of one step is that step. -/
theorem run_one (M : Host.Core) (s : M.State) : M.run 1 s = M.step s := by
  rw [Host.Core.run]
  cases M.step s <;> rfl

/-- With `k` host turns scheduled, the host's program ended and a command in flight, `k + 1` steps are the core's step
(R4, R412). -/
theorem run_of_latency (k : Nat) {s : State} (hb : s.status.busy = true) (hs : s.schedule = List.replicate k .host)
    (hend : s.host.prog.length ≤ s.host.pc) :
    Host.Core.run Sys2Proof.core (k + 1) s = { s with schedule := [] }.coreStep := by
  induction k generalizing s with
  | zero =>
    have hturn : s.nextTurn = .core := by simp [State.nextTurn, hs, hb]
    have hpop : s.popTurn = { s with schedule := [] } := by rw [State.popTurn, hs, List.replicate_zero, List.tail_nil]
    exact (run_one Sys2Proof.core s).trans (hpop ▸ step_of_core hturn)
  | succ k ih =>
    have hturn : s.nextTurn = .host := by simp [State.nextTurn, hs, List.replicate_succ]
    have hpop : s.popTurn.schedule = List.replicate k .host := by simp [hs]
    have hidle : step s = .next s.popTurn := (step_of_host hturn).trans (hostStep_of_ended hend)
    rw [run_succ_of_next hidle]
    exact ih hb hpop hend

/-! ### The resets -/

/-- A CTRL write with SRST = 1 is the soft reset (R36, R391). -/
theorem memWrite_ctrl_of_srst (s : State) {w : Word} (h : w.getLsbD 0 = true) :
    s.memWrite 0x0008 4 w = some s.softReset :=
  (memWrite_of_place s rfl w).trans (congrArg some (if_pos h))

/-- A hard reset in a step leaves the schedule without its turn (R390). -/
theorem step_of_hardReset {s : State} (h : s.nextTurn = .hardReset) : step s = .next s.popTurn.hardReset := by
  rw [step_eq, h]
  rfl

/-- Each V register right after hard reset: no word written, a W-bit value (R390). -/
theorem hardReset_register (s : State) (i : Reg) :
    s.hardReset.v[i].written = 0 ∧ s.hardReset.reg i < 2 ^ s.params.width := by
  rw [State.reg, hardReset_v, drawnRegs_get]
  exact ⟨rfl, Nat.mod_lt _ (Nat.two_pow_pos _)⟩

end Sys2Proof.Machine

namespace Sys2Proof

open Machine

/-- Settles O22: a completion sets DONE and leaves IE; acceptance, the DONE clear and the resets leave DONE = 0; a CTRL write
leaves DONE. -/
theorem irqFollowsDoneAndIe : Obligations.IrqFollowsDoneAndIe := by
  refine fun s => ⟨rfl, rfl, rfl, fun i t => irq_of_exec_next, fun w => rfl, fun w t hclear ht => ?_,
    fun w t hsrst ht => ?_⟩
  · obtain ⟨-, rfl⟩ := memWrite_some ht
    exact irq_of_done_clear s hclear
  · obtain ⟨-, rfl⟩ := memWrite_some ht
    exact congrArg State.irq (writePlace_ctrl_of_not_srst s hsrst)

/-- Settles O27: the operand check is the only stop, and a completion is a commit or an error. -/
theorem commandOutcomes : Obligations.CommandOutcomes := by
  refine fun i s => ⟨exec_stops, fun hu => ?_⟩
  obtain ⟨t, ht⟩ := exec_completes hu
  exact ⟨t, ht, exec_next_status ht⟩

/-- Settles O28: a commit leaves ERR as it was, so a completion that sets it is an error, which writes STATUS alone. -/
theorem errorsArePrecise : Obligations.ErrorsArePrecise := by
  intro i s t h hclear herr
  rcases exec_next_cases h with ⟨e, k, rfl⟩ | ⟨w, -, -, rfl⟩
  · exact ⟨rfl, errorCode_code_mem e⟩
  · have hkept : (s.commit w).status.err = s.status.err := rfl
    rw [hkept, hclear] at herr
    cases herr

/-- Settles O24: the host's turns change nothing, and the core's step after them completes the command or stops. -/
theorem completionAfterLatency : Obligations.CompletionAfterLatency := by
  intro k s hb hs hend
  rw [run_of_latency k hb hs hend]
  refine ⟨coreStep_completes_iff (s := { s with schedule := [] }) hb, fun i hd hu => ?_⟩
  exact (coreStep_legal (s := { s with schedule := [] }) hb hd).trans (exec_stops hu)

/-- Settles O19: the write is the soft reset, which forgets STATUS and CMD, all that acceptance changed. -/
theorem softResetKeepsOperands : Obligations.SoftResetKeepsOperands := by
  refine fun s w hsrst => ⟨memWrite_ctrl_of_srst s hsrst, fun c => ?_⟩
  rw [memWrite_ctrl_of_srst s hsrst, memWrite_ctrl_of_srst (s.accept c) hsrst]
  rfl

/-- Settles O20: the platform's turn is the hard reset of the state without that turn. -/
theorem hardResetClears : Obligations.HardResetClears := fun s hturn =>
  have hctrl : Ctrl.reset.word = 0x40 := by decide
  have hstatus : Status.reset.word = 0 := by decide
  ⟨s.popTurn.hardReset, step_of_hardReset hturn, hardReset_register s.popTurn, hctrl, hstatus, rfl, rfl, rfl, rfl, rfl,
    rfl, rfl, rfl⟩

end Sys2Proof
end
